-- ==== Sys2Proof/Word.lean ====
section
/-! DEFINITION. The word types of the block (spec/00_scope.md R8, R9; spec/20_memory.md R70). -/

namespace Sys2Proof

/-- A 32-bit word, bit 0 least significant (R8). -/
abbrev Word := BitVec 32

/-- The smallest addressable unit (R70). -/
abbrev Byte := BitVec 8

/-- A physical address of the one data space, modulo 2^32 (R9, R70). -/
abbrev Addr := BitVec 32

/-- A half index, and the HC discriminator of a completion event: 0 or 1 (spec/30_encoding.md R105). -/
abbrev Half := Fin 2

/-- A reader thread id, 0 to 127; the HOST is thread 0 (R108; spec/10_state.md R41, R42). -/
abbrev Tid := Fin 128

end Sys2Proof
end

