-- ==== Sys2Proof/Syntax.lean ====
section
/-! DEFINITION. The operations of the block: one constructor per row of spec/opcode_table.json
(spec/30_encoding.md R101, R104). Every operand is an unsigned field of the word (R102) at its own width. -/

namespace Sys2Proof

/-- A host command or an internal event (R104). The comments give OPC and format. -/
inductive Instr where
  /-- 0x01 N -/
  | fxreset
  /-- 0x02 N -/
  | setshift
  /-- 0x03 C, VAL -/
  | settima (val : BitVec 16)
  /-- 0x04 C, VAL -/
  | settimb (val : BitVec 16)
  /-- 0x05 N -/
  | sdmaen
  /-- 0x06 N -/
  | sclr
  /-- 0x07 N -/
  | fxenable
  /-- 0x08 N -/
  | getbuf
  /-- 0x09 N -/
  | fxdisable
  /-- 0x10 N -/
  | dalloc
  /-- 0x11 N -/
  | dsetup
  /-- 0x12 N -/
  | dstart
  /-- 0x13 N -/
  | dstop
  /-- 0x14 N -/
  | dfree
  /-- 0x18 N -/
  | cinv
  /-- 0x20 N -/
  | init
  /-- 0x21 N -/
  | start
  /-- 0x22 N -/
  | stop
  /-- 0x31 H, the half to decode -/
  | decode (h : Half)
  /-- 0x41 Q: TID, NB, CAP -/
  | consume (tid : Tid) (nb : Bool) (cap : BitVec 16)
  /-- 0x42 N -/
  | fiforst
  /-- 0x80 W, with the wire word V beside it (R106) -/
  | shiftword (v : Word)
  /-- 0x81 N -/
  | dmabeat
  /-- 0x83 H, the discriminator HC (R105) -/
  | cmpl (hc : Half)
  /-- 0x84 H, the half whose batch is produced -/
  | produce (h : Half)
  /-- 0x85 T -/
  | wake (tid : Tid)
  /-- 0x86 T -/
  | sigintr (tid : Tid)
  deriving DecidableEq, Repr

/-- Where a word is presented: on the command port, or as the name of an agent's own step (R104, R107). -/
inductive Channel where
  | port
  | agent
  deriving DecidableEq, Repr

end Sys2Proof
end

