-- ==== Sys2Proof/WellFormed.lean ====
section
/-! DEFINITION. Which instruction is well formed on which channel (spec/30_encoding.md R104, R107): a host command on
the command port, an internal event as an agent's own step. The operands need no further check: each has the
width of its field (R102) and "no TID value is reserved" (R108). -/

namespace Sys2Proof

/-- The channel that an operation belongs to (R104, R107). -/
def Instr.channel : Instr → Channel
  | .fxreset => .port
  | .setshift => .port
  | .settima _ => .port
  | .settimb _ => .port
  | .sdmaen => .port
  | .sclr => .port
  | .fxenable => .port
  | .getbuf => .port
  | .fxdisable => .port
  | .dalloc => .port
  | .dsetup => .port
  | .dstart => .port
  | .dstop => .port
  | .dfree => .port
  | .cinv => .port
  | .init => .port
  | .start => .port
  | .stop => .port
  | .decode _ => .port
  | .consume _ _ _ => .port
  | .fiforst => .port
  | .shiftword _ => .agent
  | .dmabeat => .agent
  | .cmpl _ => .agent
  | .produce _ => .agent
  | .wake _ => .agent
  | .sigintr _ => .agent

/-- An instruction is well formed on channel `ch` if it belongs there. -/
def Instr.wellFormed (ch : Channel) (i : Instr) : Bool := decide (i.channel = ch)

end Sys2Proof
end

