-- ==== Sys2Proof/Decode.lean ====
section
/-! DEFINITION. Decoding of command and event words and the encoder, from the formats of spec/30_encoding.md R101, the
operand fields of R102 and the opcode map of R104. Decoding is total and rejects by name (R107).
A word is a single 32-bit value (R100), so no byte order enters here. -/

namespace Sys2Proof

/-- Why a word is rejected (R107). -/
inductive Reject where
  /-- The opcode names no row of the channel's table. -/
  | unknownOpcode (w : Word)
  /-- On the command port: the opcode is an internal event code, 0x80 to 0x86. -/
  | internalEvent (w : Word)
  /-- A bit shown as 0 in R101 is not 0. -/
  | reservedBits (w : Word)
  /-- A SHIFTWORD word with no payload word after it (R106), or no word at all. -/
  | truncated
  deriving DecidableEq, Repr

/-- The unsigned field `w[lo + len - 1 : lo]` (R8). -/
def bits (w : Word) (lo len : Nat) : Nat := w.toNat / 2 ^ lo % 2 ^ len

/-- OPC (R100). -/
def opcode (w : Word) : Nat := bits w 24 8

/-- Format N, and the command word of format W: bits 23:0 are reserved. -/
def formatN (w : Word) (i : Instr) : Except Reject Instr :=
  if bits w 0 24 = 0 then .ok i else .error (.reservedBits w)

/-- Format H: bits 23:1 are reserved, H is bit 0. -/
def formatH (w : Word) (mk : Half → Instr) : Except Reject Instr :=
  if bits w 1 23 = 0 then .ok (mk (Fin.ofNat 2 (bits w 0 1))) else .error (.reservedBits w)

/-- Format C: bits 23:16 are reserved, VAL is bits 15:0. -/
def formatC (w : Word) (mk : BitVec 16 → Instr) : Except Reject Instr :=
  if bits w 16 8 = 0 then .ok (mk (BitVec.ofNat 16 (bits w 0 16))) else .error (.reservedBits w)

/-- Format Q: TID is bits 23:17, NB is bit 16, CAP is bits 15:0; nothing is reserved. -/
def formatQ (w : Word) (mk : Tid → Bool → BitVec 16 → Instr) : Except Reject Instr :=
  .ok (mk (Fin.ofNat 128 (bits w 17 7)) (decide (bits w 16 1 = 1)) (BitVec.ofNat 16 (bits w 0 16)))

/-- Format T: bits 16:0 are reserved, TID is bits 23:17. -/
def formatT (w : Word) (mk : Tid → Instr) : Except Reject Instr :=
  if bits w 0 17 = 0 then .ok (mk (Fin.ofNat 128 (bits w 17 7))) else .error (.reservedBits w)

/-- The host-command table of R104. -/
def decodeHost (w : Word) : Except Reject Instr :=
  match opcode w with
  | 0x01 => formatN w .fxreset
  | 0x02 => formatN w .setshift
  | 0x03 => formatC w .settima
  | 0x04 => formatC w .settimb
  | 0x05 => formatN w .sdmaen
  | 0x06 => formatN w .sclr
  | 0x07 => formatN w .fxenable
  | 0x08 => formatN w .getbuf
  | 0x09 => formatN w .fxdisable
  | 0x10 => formatN w .dalloc
  | 0x11 => formatN w .dsetup
  | 0x12 => formatN w .dstart
  | 0x13 => formatN w .dstop
  | 0x14 => formatN w .dfree
  | 0x18 => formatN w .cinv
  | 0x20 => formatN w .init
  | 0x21 => formatN w .start
  | 0x22 => formatN w .stop
  | 0x31 => formatH w .decode
  | 0x41 => formatQ w .consume
  | 0x42 => formatN w .fiforst
  | _ => .error (.unknownOpcode w)

/-- The internal-event table of R104; `v` is the payload word that a SHIFTWORD takes (R106). -/
def decodeEvent (w v : Word) : Except Reject Instr :=
  match opcode w with
  | 0x80 => formatN w (.shiftword v)
  | 0x81 => formatN w .dmabeat
  | 0x83 => formatH w .cmpl
  | 0x84 => formatH w .produce
  | 0x85 => formatT w .wake
  | 0x86 => formatT w .sigintr
  | _ => .error (.unknownOpcode w)

/-- The opcode is an internal event code, "0x80 to 0x86" (R107). -/
def isEventCode (w : Word) : Bool := decide (0x80 ≤ opcode w) && decide (opcode w ≤ 0x86)

/-- What the command port makes of a word (R107). -/
def decodePort (w : Word) : Except Reject Instr :=
  if isEventCode w then .error (.internalEvent w) else decodeHost w

/-- A word of either table, with the payload word that stands beside it (spec/95_test_vectors.md: in a trace, host
words and event words stand in one sequence). -/
def decodeWord (w v : Word) : Except Reject Instr :=
  if isEventCode w then decodeEvent w v else decodeHost w

/-- How many words the operation whose first word is `w` takes: two for a SHIFTWORD, else one (R100, R106). -/
def wordCount (w : Word) : Nat := if opcode w = 0x80 then 2 else 1

/-- Decode the first operation of a sequence of words; answer it with the words after it. -/
def decode : List Word → Except Reject (Instr × List Word)
  | [] => .error .truncated
  | w :: rest =>
    if wordCount w = 2 then
      match rest with
      | [] => .error .truncated
      | v :: rest' => (decodeWord w v).map fun i => (i, rest')
    else (decodeWord w 0).map fun i => (i, rest)

/-- The instruction that the bits `w`, numbered as spec/opcode_table.json numbers them, decode to. Bits above `nbits`
are 0; bits 31:0 are the command word and bits 63:32 the payload word. -/
def decodeTableWord (nbits w : Nat) : Option Instr :=
  let x := w % 2 ^ nbits
  match decode [BitVec.ofNat 32 x, BitVec.ofNat 32 (x / 2 ^ 32)] with
  | .ok (i, _) => some i
  | .error _ => none

/-! ### The encoder -/

/-- A word from its opcode and the value of bits 23:0. -/
def mkWord (opc operands : Nat) : Word := BitVec.ofNat 32 (opc * 2 ^ 24 + operands)

/-- The command or event word of an instruction (R101, R104). -/
def Instr.word : Instr → Word
  | .fxreset => mkWord 0x01 0
  | .setshift => mkWord 0x02 0
  | .settima val => mkWord 0x03 val.toNat
  | .settimb val => mkWord 0x04 val.toNat
  | .sdmaen => mkWord 0x05 0
  | .sclr => mkWord 0x06 0
  | .fxenable => mkWord 0x07 0
  | .getbuf => mkWord 0x08 0
  | .fxdisable => mkWord 0x09 0
  | .dalloc => mkWord 0x10 0
  | .dsetup => mkWord 0x11 0
  | .dstart => mkWord 0x12 0
  | .dstop => mkWord 0x13 0
  | .dfree => mkWord 0x14 0
  | .cinv => mkWord 0x18 0
  | .init => mkWord 0x20 0
  | .start => mkWord 0x21 0
  | .stop => mkWord 0x22 0
  | .decode h => mkWord 0x31 h.val
  | .consume tid nb cap => mkWord 0x41 (tid.val * 2 ^ 17 + nb.toNat * 2 ^ 16 + cap.toNat)
  | .fiforst => mkWord 0x42 0
  | .shiftword _ => mkWord 0x80 0
  | .dmabeat => mkWord 0x81 0
  | .cmpl hc => mkWord 0x83 hc.val
  | .produce h => mkWord 0x84 h.val
  | .wake tid => mkWord 0x85 (tid.val * 2 ^ 17)
  | .sigintr tid => mkWord 0x86 (tid.val * 2 ^ 17)

/-- The payload words beside the word: the V of a SHIFTWORD (R106). -/
def Instr.payload : Instr → List Word
  | .shiftword v => [v]
  | _ => []

/-- The words of an instruction. -/
def encode (i : Instr) : List Word := i.word :: i.payload

end Sys2Proof
end

