-- ==== Sys2Proof/Config.lean ====
section
/-! DEFINITION. What an implementation fixes (the parameters of spec/00_scope.md R6) and the free values: the
draws the spec leaves open, opaque constants with no body. -/

namespace Sys2Proof

/-! ### Numbers the source fixes (R6, status "source" or derived from one) -/

/-- RAW_WORDS. -/
def rawWords : Nat := 512
/-- HALF_WORDS. -/
def halfWords : Nat := 256
/-- HALF_BYTES. -/
def halfBytes : Nat := 1024
/-- SAMPLE_BITS. -/
def sampleBits : Nat := 24
/-- CHANNELS. -/
def channels : Nat := 3
/-- FIFO_SLOTS. -/
def fifoSlots : Nat := 2

/-- BYTE_ORDER (R6; spec/92_eei_decisions.md D12 keeps it a parameter). -/
inductive ByteOrder where
  | little
  | big
  deriving DecidableEq, Repr

/-- CACHE_POLICY (R6; spec/20_memory.md R80, R81). -/
inductive CachePolicy where
  | coherent
  | writeBack
  deriving DecidableEq, Repr

/-- The parameter setting of a model (R6): "a model argument". Held in the state and written by no step, so that a
statement about every state is a statement about every setting. -/
structure Params where
  /-- FRAME_WORDS. -/
  frameWords : Nat
  /-- SAMPLE_OFFSETS; FRAME_PHASE is its first entry (R6, R190). -/
  sampleOffsets : List Nat
  /-- RAW_BUF_BASE, OPEN. -/
  rawBufBase : Addr
  /-- SHIFTBUFBIS_ADDR, OPEN. -/
  shiftBufBisAddr : Addr
  /-- RX_PIN, OPEN, 0..255 (spec/10_state.md R23). -/
  rxPin : BitVec 8
  /-- DMA_CHANNEL, OPEN. -/
  dmaChannel : Nat
  /-- TIMA_CMP, OPEN. -/
  timaCmp : BitVec 16
  /-- TIMB_CMP, OPEN. -/
  timbCmp : BitVec 16
  /-- The frame-sync period, in bit clocks, that TIMB_CMP gives. No rule computes it from TIMB_CMP
  (spec/91_not_in_source.md N8), so it is given beside it (spec/93_implementation_defined.md U5). -/
  timbPeriodBits : Nat
  /-- BYTE_ORDER. -/
  byteOrder : ByteOrder
  /-- CACHE_POLICY. -/
  cachePolicy : CachePolicy
  /-- RESET_CLEARS_OVERRUN. -/
  resetClearsOverrun : Bool
  /-- HANDLE_PRESENT; FXCTRL.HANDLE is this bit (spec/10_state.md R22). -/
  handlePresent : Bool
  deriving DecidableEq, Repr

/-- SAMPLE_OFFSETS for a FRAME_PHASE `p`: three contiguous fields (R6, decision D2). -/
def offsetsOfPhase (p : Nat) : List Nat := [p, p + 24, p + 48]

/-- The reference setting: the reference values of R6, and for the OPEN parameters the example values of
spec/95_test_vectors.md. RX_PIN and DMA_CHANNEL have no example there. DESIGN CHOICE 0 for both, unsafe (log 5).
Whether TIMB_CMP = 0x01FF gives FS_PERIOD_BITS is open (spec/91_not_in_source.md N8). DESIGN CHOICE that it gives 512 bit
clocks, `timbPeriodBits := 512`, unsafe (log 5). -/
def Params.reference : Params where
  frameWords := 16
  sampleOffsets := offsetsOfPhase 0
  rawBufBase := 0x20000000
  shiftBufBisAddr := 0x401B0380
  rxPin := 0
  dmaChannel := 0
  timaCmp := 0x1F03
  timbCmp := 0x01FF
  timbPeriodBits := 512
  byteOrder := .little
  cachePolicy := .coherent
  resetClearsOverrun := false
  handlePresent := true

/-- The non-fault error results of a read (spec/43_steering_fifo.md R259; spec/60_exceptions.md R295): three
distinct named constants. -/
inductive ErrCode where
  | eio
  | eagain
  | eintr
  deriving DecidableEq, Repr

/-! ### Free values -/

/-- The draw DMA_ALLOC_OK of the `n`-th draw (spec/40_config.md R140; U14). Free (log 8). -/
opaque Config.allocOk : Nat → Bool

/-- The `n`-th word drawn for a raw word that a decode leaves unspecified (spec/42_decoder.md R214; U2). Free (log 9). -/
opaque Config.freeWord : Nat → Word

/-- What the byte at an address holds before anything writes it (spec/10_state.md R33, R45: `any`; U3). Free (log 7). -/
opaque Config.byteAtReset : Nat → Byte

/-- One integer for each error result, from which `Machine.errno` makes the distinct ERRNO_EIO, ERRNO_EAGAIN and
ERRNO_EINTR, OPEN integers that no rule gives (R6, R295; decision D38; U16). Free (log 13). -/
opaque Config.errnoDraw : ErrCode → Int

/-- F_SRC, the source clock: OPEN, read by no rule (R6; U6). Free (log 13). -/
opaque Config.fSrc : Nat

/-- F_BIT, the bit-clock frequency: OPEN, read by no rule (R6, spec/41_capture_dma.md R189; U6). Free (log 13). -/
opaque Config.fBit : Nat

end Sys2Proof
end

