-- ==== Sys2Proof/Machine/State.lean ====
section
/-! DEFINITION. The state of the block (spec/10_state.md), the reasons a step can stop, and the state after reset
(R45). Plain data throughout. -/

namespace Sys2Proof.Machine

/-! ### Peripheral records CR1 to CR5 (R23, R24, R27, R28): each field lists its legal values -/

/-- SHCFG.MODE. -/
inductive ShMode where
  | disabled
  | receive
  deriving DecidableEq, Repr

/-- SHCFG.INSRC. -/
inductive InSrc where
  | pin
  deriving DecidableEq, Repr

/-- SHCFG.PINCFG. -/
inductive PinCfg where
  | outputDisabled
  deriving DecidableEq, Repr

/-- SHCFG.SSTART and SHCFG.SSTOP. -/
inductive Framing where
  | none
  deriving DecidableEq, Repr

/-- SHCFG.TIMSEL. -/
inductive TimSel where
  | timerA
  deriving DecidableEq, Repr

/-- CR1 SHCFG (R23). -/
structure ShCfg where
  mode : ShMode
  insrc : InSrc
  pin : BitVec 8
  pincfg : PinCfg
  sstart : Framing
  sstop : Framing
  timsel : TimSel
  deriving DecidableEq, Repr

/-- The reset record of SHCFG (R45). -/
def ShCfg.reset : ShCfg := ⟨.disabled, .pin, 0, .outputDisabled, .none, .none, .timerA⟩

/-- CR2 SHSTAT (R24). -/
structure ShStat where
  ssf : Bool
  sef : Bool
  ssde : Bool
  deriving DecidableEq, Repr

/-- TIMA.MODE. -/
inductive TimAMode where
  | disabled
  | dual8Baud
  deriving DecidableEq, Repr

/-- TIMA.TRIG. -/
inductive TimATrig where
  | freeRunning
  deriving DecidableEq, Repr

/-- CR4 TIMA (R27). -/
structure TimA where
  mode : TimAMode
  trig : TimATrig
  cmp : BitVec 16
  deriving DecidableEq, Repr

/-- The reset record of TIMA (R45). -/
def TimA.reset : TimA := ⟨.disabled, .freeRunning, 0⟩

/-- TIMB.MODE. -/
inductive TimBMode where
  | disabled
  | single16
  deriving DecidableEq, Repr

/-- TIMB.ENCOND. -/
inductive TimBEnCond where
  | onTimAEnable
  deriving DecidableEq, Repr

/-- TIMB.DECSRC. -/
inductive TimBDecSrc where
  | timAOutput
  deriving DecidableEq, Repr

/-- CR5 TIMB (R28). -/
structure TimB where
  mode : TimBMode
  encond : TimBEnCond
  decsrc : TimBDecSrc
  cmp : BitVec 16
  deriving DecidableEq, Repr

/-- The reset record of TIMB (R45). -/
def TimB.reset : TimB := ⟨.disabled, .onTimAEnable, .timAOutput, 0⟩

/-- The shift/timer peripheral: CR0 FXCTRL.EN, CR1 to CR5 (R22 to R28). FXCTRL.HANDLE is the parameter HANDLE_PRESENT
(R22) and is read through `State.handle`. -/
structure Peripheral where
  /-- FXCTRL.EN -/
  en : Bool
  shcfg : ShCfg
  shstat : ShStat
  /-- CR3 SHBUF, in primary bit order (R26) -/
  shbuf : Word
  tima : TimA
  timb : TimB
  deriving DecidableEq, Repr

/-- The peripheral's records at reset (R45), which FXRESET restores (spec/40_config.md R131). -/
def Peripheral.reset : Peripheral := ⟨false, .reset, ⟨false, false, false⟩, 0, .reset, .reset⟩

/-! ### DMA channel CR6, CR7 and its pending events (R30 to R32) -/

/-- DMACH.REQSRC. -/
inductive ReqSrc where
  | none
  | shifter
  deriving DecidableEq, Repr

/-- CR6 DMACH (R30). -/
structure DmaCh where
  alloc : Bool
  reqsrc : ReqSrc
  erq : Bool
  tcdv : Bool
  deriving DecidableEq, Repr

/-- TCD.SSIZE and TCD.DSIZE. -/
inductive XferSize where
  | w32
  deriving DecidableEq, Repr

/-- TCD.MAJORLINK. -/
inductive MajorLink where
  | none
  deriving DecidableEq, Repr

/-- CR7 TCD (R31), every field at the width given there. -/
structure Tcd where
  saddr : Addr
  soff : BitVec 16
  ssize : XferSize
  dsize : XferSize
  nbytes : BitVec 32
  slast : BitVec 32
  daddr : Addr
  doff : BitVec 16
  biter : BitVec 16
  citer : BitVec 16
  dlast : BitVec 32
  inthalf : Bool
  intmajor : Bool
  majorlink : MajorLink
  dreq : Bool
  deriving DecidableEq, Repr

/-- The TCD at reset: "all 0 (sizes W32, MAJORLINK NONE)" (R45). -/
def Tcd.reset : Tcd := ⟨0, 0, .w32, .w32, 0, 0, 0, 0, 0, 0, 0, false, false, .none, false⟩

/-- The DMA channel with EVQ, the pending completion events, oldest first (R32). -/
structure Dma where
  ch : DmaCh
  tcd : Tcd
  evq : List Half
  deriving DecidableEq, Repr

/-- The DMA channel at reset (R45). -/
def Dma.reset : Dma := ⟨⟨false, .none, false, false⟩, .reset, []⟩

/-! ### Sample FIFO, half-buffer tracking, reader threads (R34 to R42) -/

/-- An occupied FIFO slot: a reference to the batch of half `h`, generation `g` (R34). -/
structure Entry where
  h : Half
  g : Nat
  deriving DecidableEq, Repr

/-- The Sample FIFO (R34 to R39). A slot is `none` when EMPTY. -/
structure Fifo where
  slot : Vector (Option Entry) 2
  head : Fin 2
  tail : Fin 2
  ovr : Bool
  waiters : Nat
  sem : Nat
  pollnote : Nat
  deriving DecidableEq, Repr

/-- The FIFO at reset (R45). -/
def Fifo.reset : Fifo := ⟨Vector.replicate 2 none, 0, 0, false, 0, 0, 0⟩

/-- GEN, VALID and WSE, one entry per half (R40). -/
structure Tracking where
  gen : Vector Nat 2
  valid : Vector Bool 2
  wse : Vector Bool 2
  deriving DecidableEq, Repr

/-- The tracking values at reset (R45). -/
def Tracking.reset : Tracking := ⟨Vector.replicate 2 0, Vector.replicate 2 false, Vector.replicate 2 false⟩

/-- TS[t] (R41): idle, or blocked in CONSUME with destination capacity `cap` bytes. -/
inductive ThreadState where
  | idle
  | blocked (cap : Nat)
  deriving DecidableEq, Repr

/-- A completed result (R42). -/
inductive Result where
  | ok (bytes : List Byte)
  | err (e : ErrCode)
  | addr (a : Addr)
  deriving DecidableEq, Repr

/-- TS and RESP (R41, R42). -/
structure Readers where
  ts : Vector ThreadState 128
  resp : Vector (Option Result) 128
  deriving DecidableEq, Repr

/-- The threads at reset (R45). -/
def Readers.reset : Readers := ⟨Vector.replicate 128 .idle, Vector.replicate 128 none⟩

/-! ### Faults (R43; spec/60_exceptions.md R290) -/

/-- A recorded fault: its code, as the constructor, and its info (R290). -/
inductive FaultRecord where
  /-- Code 1; the command word, 0 inside INIT. -/
  | fatalNoHandle (word : Word)
  /-- Code 2; DMA_CHANNEL. -/
  | fatalDmaAlloc (channel : Nat)
  /-- Code 3; the command word. -/
  | illegalCommand (word : Word)
  /-- Code 4; the command word. -/
  | configInvalid (word : Word)
  /-- Code 5; the command word. -/
  | reinitActive (word : Word)
  /-- Code 6; the wire word V. -/
  | shifterOverrun (v : Word)
  /-- Code 7; HC. -/
  | completionOverrun (hc : Half)
  /-- Code 8; the half. -/
  | decodeLate (h : Half)
  /-- Code 9; the entry (h, g). -/
  | staleBatch (h : Half) (g : Nat)
  deriving DecidableEq, Repr

/-! ### Memory and the schedule -/

/-- The data space (spec/20_memory.md R70): the bytes written so far, addresses strictly rising. An unlisted address
holds no written byte, and reading it gives a free value (`Memory.byteAt`; log 7). -/
abbrev Memory := List Host.Cell

/-- One turn of the interleaving (spec/20_memory.md R83; log 1). -/
inductive Turn where
  /-- A word offered on the command port by the HOST or a reader. -/
  | command (word : Word)
  /-- An agent's own step, named by its event word; `payload` is the V of a SHIFTWORD (R106). -/
  | event (word payload : Word)
  deriving DecidableEq, Repr

/-- The state of the block. -/
structure State where
  /-- The parameter setting (spec/00_scope.md R6); no step writes it. MODEL'S OWN place for it (log 5). -/
  params : Params
  /-- FXCTRL.EN, SHCFG, SHSTAT, SHBUF, TIMA, TIMB (R22 to R28) -/
  fx : Peripheral
  /-- DMACH, TCD, EVQ (R30 to R32) -/
  dma : Dma
  /-- The data space, which holds RAW (R33; spec/20_memory.md R70, R71) -/
  mem : Memory
  /-- SLOT, HEAD, TAIL, OVR, WAITERS, SEM, POLLNOTE (R34 to R39) -/
  fifo : Fifo
  /-- GEN, VALID, WSE (R40) -/
  track : Tracking
  /-- TS, RESP (R41, R42) -/
  readers : Readers
  /-- FAULT, NONE or the first recorded fault (R43) -/
  fault : Option FaultRecord
  /-- MODEL'S OWN: how many free values have been drawn (log 8). -/
  draws : Nat
  /-- MODEL'S OWN: the outcomes of the allocation attempts to come, next first, where they are supplied as data; with
  none left the outcome is the opaque `Config.allocOk` (log 8). -/
  allocAnswers : List Bool
  /-- MODEL'S OWN: the half whose batch the completion handler is handing to the FIFO. CMPL sets it before its PRODUCE,
  which clears it, so no step leaves it set (spec/43_steering_fifo.md R242, R250; log 4). -/
  handing : Option Half
  /-- MODEL'S OWN: the turns still to be taken, next first (log 1). -/
  sched : List Turn
  deriving DecidableEq, Repr

/-- Reset under the setting `p` (R45, R330): every item at the value R45 states; RAW is `any`, so nothing is listed in
memory. The model's own `draws`, `allocAnswers`, `handing` and `sched` start at 0, empty, none and empty (logs 1, 4 and 8). -/
def State.resetWith (p : Params) : State where
  params := p
  fx := .reset
  dma := .reset
  mem := []
  fifo := .reset
  track := .reset
  readers := .reset
  fault := none
  draws := 0
  allocAnswers := []
  handing := none
  sched := []

/-- The machine right after reset, under the reference setting (log 5). -/
def State.reset : State := State.resetWith .reference

/-- Why the machine has stopped. -/
inductive Fault where
  /-- FAULT holds a record: "no agent has a step" (R43; R292). Raised by every meaning and by `step` in such a state.
  Safe: the spec gives that state no step. -/
  | halted (r : FaultRecord)
  deriving DecidableEq, Repr

/-- Why a step has no meaning. -/
inductive Refusal where
  /-- An instruction with no meaning yet, raised by `exec` alone. Safe. -/
  | notModelled (mnemonic : String)
  /-- The parameter setting is inadmissible (spec/00_scope.md R7; U13), raised by `step`. Safe: "no run exists". -/
  | inadmissibleSetting
  /-- CACHE_POLICY is WRITE_BACK (spec/20_memory.md R81; U12), raised by `step`. Safe: "it gives no meaning to any run". -/
  | writeBackCache
  /-- TIMB_CMP does not give FS_PERIOD_BITS (U5; spec/41_capture_dma.md R190), raised by `step`. Safe. -/
  | framePeriod
  /-- A turn names an agent's step by a word that is no internal event (spec/30_encoding.md R104), raised by `step`. Safe:
  no agent has such a step. -/
  | notAnEvent (word : Word)
  deriving DecidableEq, Repr

end Sys2Proof.Machine
end

