-- ==== Sys2Proof/Machine/Operands.lean ====
section
/-! DEFINITION. The primitives of spec/00_scope.md R9 and R10, the geometry and admissibility of a setting (R6, R7), the
addresses that operands stand for (spec/20_memory.md R71), and byte order (R73). -/

namespace Sys2Proof.Machine

/-! ### Primitives -/

/-- `r[i] = w[31 - i]` (R9). -/
def bitrev32 (w : Word) : Word := w.reverse

/-- Logical shift left, keeping bits 31:0 (R9). -/
def lsl (x : Word) (s : Nat) : Word := x <<< s

/-- Logical shift right (R9). -/
def lsr (x : Word) (s : Nat) : Word := x >>> s

/-- Arithmetic shift right, replicating bit 31 (R9). -/
def asr (x : Word) (s : Nat) : Word := x.sshiftRight s

/-- Sign extension of a 24-bit field: "shift left 8, arithmetic-shift right 8" (R10). -/
def sext24 (v : Word) : Word := asr (lsl v 8) 8

/-! ### Geometry (R6, status "derived") -/

/-- FRAME_PHASE: where the first sample of a frame begins (R6; spec/41_capture_dma.md R190). -/
def framePhase (p : Params) : Nat := p.sampleOffsets.headD 0

/-- FRAMES_PER_HALF. -/
def framesPerHalf (p : Params) : Nat := halfWords / p.frameWords

/-- OUT_WORDS. -/
def outWords (p : Params) : Nat := framesPerHalf p * channels

/-- BATCH_BYTES. -/
def batchBytes (p : Params) : Nat := 4 * outWords p

/-- FS_PERIOD_BITS (spec/41_capture_dma.md R190). -/
def fsPeriodBits (p : Params) : Nat := 32 * p.frameWords

/-- The byte ranges of the raw buffer and of the bit-swapped buffer do not overlap (R7, R72). -/
def rangesDisjoint (p : Params) : Bool :=
  decide (p.rawBufBase.toNat + 2047 < p.shiftBufBisAddr.toNat) ||
    decide (p.shiftBufBisAddr.toNat + 3 < p.rawBufBase.toNat)

/-- The setting is admissible (R7). CHANNELS and FIFO_SLOTS are fixed numbers of the model. -/
def admissible (p : Params) : Bool :=
  decide (halfWords % p.frameWords = 0) &&
  p.sampleOffsets.all (fun o => decide (o + sampleBits ≤ 32 * p.frameWords)) &&
  decide (p.sampleOffsets.length = channels) &&
  decide (outWords p ≤ halfWords) &&
  decide (p.rawBufBase.toNat % 32 = 0) &&
  decide (p.shiftBufBisAddr.toNat % 4 = 0) &&
  rangesDisjoint p &&
  decide (p.rawBufBase.toNat + 2047 < 2 ^ 32)

/-- Why a model refuses the setting, or `none` if it launches (R7, U13; R81, U12; U5). -/
def launchRefusal (p : Params) : Option Refusal :=
  if admissible p = false then some .inadmissibleSetting
  else if p.cachePolicy = .writeBack then some .writeBackCache
  else if p.timbPeriodBits ≠ fsPeriodBits p then some .framePeriod
  else none

/-! ### Addresses (R71) -/

/-- The address of raw word `i`: RAW_BUF_BASE + 4i. -/
def rawAddr (p : Params) (i : Nat) : Addr := p.rawBufBase + BitVec.ofNat 32 (4 * i)

/-- The address of half `h`, the pointer an entry stands for (spec/10_state.md R34): RAW_BUF_BASE + 1024h. -/
def halfBase (p : Params) (h : Half) : Addr := p.rawBufBase + BitVec.ofNat 32 (halfBytes * h.val)

/-- The half that the destination address `a` lies in: (a - RAW_BUF_BASE) div 1024 (spec/41_capture_dma.md R184), or
`none` outside the raw buffer, which no run reaches (R185; log 15). -/
def halfOf (p : Params) (a : Addr) : Option Half :=
  let n := (a - p.rawBufBase).toNat / halfBytes
  if n = 0 then some 0 else if n = 1 then some 1 else none

/-- The HOST's thread id (spec/10_state.md R42). -/
def hostTid : Tid := 0

/-! ### Timer A's compare value (spec/10_state.md R27; spec/40_config.md R133) -/

/-- The half-period of the bit clock in source-clock cycles: CMP[15:8] + 1. -/
def halfPeriod (cmp : BitVec 16) : Nat := cmp.toNat / 256 + 1

/-- The "extra divide factor", CMP[7:0]; what it does is open, and no rule reads it (U4; log 17). -/
def extraDivide (cmp : BitVec 16) : Nat := cmp.toNat % 256

/-! ### Byte order (R73) -/

/-- The four bytes of `v` in ascending address order. -/
def bytesOfWord (o : ByteOrder) (v : Word) : List Byte :=
  let l := [v.extractLsb' 0 8, v.extractLsb' 8 8, v.extractLsb' 16 8, v.extractLsb' 24 8]
  match o with
  | .little => l
  | .big => l.reverse

/-- The word whose bytes in ascending address order are `b0`, `b1`, `b2`, `b3`. -/
def wordOfBytes (o : ByteOrder) (b0 b1 b2 b3 : Byte) : Word :=
  match o with
  | .little => b3 ++ b2 ++ b1 ++ b0
  | .big => b0 ++ b1 ++ b2 ++ b3

/-! ### Results -/

/-- The fault codes of spec/60_exceptions.md R290. -/
def FaultRecord.code : FaultRecord → Nat
  | .fatalNoHandle _ => 1
  | .fatalDmaAlloc _ => 2
  | .illegalCommand _ => 3
  | .configInvalid _ => 4
  | .reinitActive _ => 5
  | .shifterOverrun _ => 6
  | .completionOverrun _ => 7
  | .decodeLate _ => 8
  | .staleBatch _ _ => 9

/-- `x`, moved up by one from `v` on, so that it is never `v` and takes every other value. -/
def skip (v x : Int) : Int := if x < v then x else x + 1

/-- ERRNO_EIO, ERRNO_EAGAIN and ERRNO_EINTR: OPEN, and distinct (spec/60_exceptions.md R295; decision D38). Every three
distinct integers are the values for some `Config.errnoDraw` (log 13). -/
def errno (e : ErrCode) : Int :=
  let eio := Config.errnoDraw .eio
  let eagain := skip eio (Config.errnoDraw .eagain)
  match e with
  | .eio => eio
  | .eagain => eagain
  | .eintr => skip (max eio eagain) (skip (min eio eagain) (Config.errnoDraw .eintr))

/-- What the caller of a read sees (spec/43_steering_fifo.md R259): the number of bytes copied, or the error value.
For GETBUF's ADDR(a), the address. -/
def Result.returnValue : Result → Int
  | .ok bytes => bytes.length
  | .err e => errno e
  | .addr a => a.toNat

end Sys2Proof.Machine
end

