-- ==== Sys2Proof/Machine/Flags.lean ====
section
/-! DEFINITION. The derived flags and tests: the request line (spec/10_state.md R25), the FIFO's full and empty tests
(R35; spec/43_steering_fifo.md R251), and when each agent's step is enabled (spec/41_capture_dma.md R180, R187;
spec/43_steering_fifo.md R240, R270, R274). The test FAULT = NONE, common to all, is `whenLive` of Ops. -/

namespace Sys2Proof.Machine

/-- FXCTRL.HANDLE: "It equals the parameter HANDLE_PRESENT and no command writes it" (R22). -/
def State.handle (s : State) : Bool := s.params.handlePresent

/-- SREQ = SSF ∧ SSDE (R25). -/
def State.sreq (s : State) : Bool := s.fx.shstat.ssf && s.fx.shstat.ssde

/-- "The FIFO is empty when HEAD = TAIL" (R35). -/
def Fifo.isEmpty (f : Fifo) : Bool := decide (f.head = f.tail)

/-- The FIFO is full: advancing TAIL modulo 2 would equal HEAD (R251). -/
def Fifo.isFull (f : Fifo) : Bool := decide (f.tail + 1 = f.head)

/-- The capture destination capacity that a blocked thread waits with, or `none` if it is idle (R41). -/
def ThreadState.cap? : ThreadState → Option Nat
  | .idle => none
  | .blocked cap => some cap

/-- The thread is BLOCKED. -/
def ThreadState.isBlocked : ThreadState → Bool
  | .idle => false
  | .blocked _ => true

/-- TS[t]. -/
def State.tsOf (s : State) (t : Tid) : ThreadState := s.readers.ts[t]

/-- RESP[t]. -/
def State.respOf (s : State) (t : Tid) : Option Result := s.readers.resp[t]

/-- The number of threads blocked in CONSUME, which WAITERS counts (R37). -/
def blockedCount (s : State) : Nat := s.readers.ts.toList.countP ThreadState.isBlocked

/-- A SHIFTWORD is enabled (R180). -/
def shiftEnabled (s : State) : Bool := s.fx.en && decide (s.fx.shcfg.mode = .receive)

/-- A DMA beat is enabled (R187). -/
def beatEnabled (s : State) : Bool :=
  s.dma.ch.alloc && s.dma.ch.tcdv && s.dma.ch.erq && decide (s.dma.ch.reqsrc = .shifter) && s.sreq

/-- A CMPL for `hc` is the ISR's next step: EVQ is not empty and `hc` is its head (R240; log 3). -/
def cmplEnabled (hc : Half) (s : State) : Bool := decide (s.dma.evq.head? = some hc)

/-- A PRODUCE of `h` is enabled: "It runs only inside CMPL", while the handler hands `h` off (R250; log 4). -/
def produceEnabled (h : Half) (s : State) : Bool := decide (s.handing = some h)

/-- A WAKE of `t` is enabled (R270). -/
def wakeEnabled (t : Tid) (s : State) : Bool := (s.tsOf t).isBlocked && decide (0 < s.fifo.sem)

/-- A SIGINTR of `t` is enabled (R274). -/
def sigintrEnabled (t : Tid) (s : State) : Bool := (s.tsOf t).isBlocked

end Sys2Proof.Machine
end

