-- ==== Sys2Proof/Machine/Ops.lean ====
section
/-! DEFINITION. The operations the meanings share: updates of the state's parts, memory (spec/20_memory.md R70 to R78),
recording a fault (spec/10_state.md R43; spec/60_exceptions.md R290 to R292), the completion interrupt from raise to
handler entry (R300 to R305), and the common shape of a command and of an agent's step (spec/40_config.md R130). -/

namespace Sys2Proof.Machine

/-! ### Updates -/

/-- Replace the peripheral's records. -/
def State.withFx (s : State) (x : Peripheral) : State := { s with fx := x }

/-- Replace the DMA channel. -/
def State.withDma (s : State) (d : Dma) : State := { s with dma := d }

/-- Replace the memory. -/
def State.withMem (s : State) (m : Memory) : State := { s with mem := m }

/-- Replace the FIFO. -/
def State.withFifo (s : State) (f : Fifo) : State := { s with fifo := f }

/-- Replace the half-buffer tracking. -/
def State.withTrack (s : State) (k : Tracking) : State := { s with track := k }

/-- Replace the draw counter. -/
def State.withDraws (s : State) (n : Nat) : State := { s with draws := n }

/-- Replace the supplied outcomes of allocation attempts. -/
def State.withAnswers (s : State) (l : List Bool) : State := { s with allocAnswers := l }

/-- Set or clear the half that the handler is handing off. -/
def State.withHanding (s : State) (x : Option Half) : State := { s with handing := x }

/-- Replace the schedule. -/
def State.withSched (s : State) (l : List Turn) : State := { s with sched := l }

/-- `RESP[t] <- r`. -/
def State.withResp (s : State) (t : Tid) (r : Result) : State :=
  { s with readers := { s.readers with resp := s.readers.resp.set t (some r) } }

/-- `TS[t] <- x`. -/
def State.withTs (s : State) (t : Tid) (x : ThreadState) : State :=
  { s with readers := { s.readers with ts := s.readers.ts.set t x } }

/-! ### Memory -/

/-- The byte listed at address `a`, or `none` if `a` is unlisted. -/
def Memory.lookup : Memory → Nat → Option Byte
  | [], _ => none
  | (k, b) :: m, a => if k = a then some b else Memory.lookup m a

/-- The byte at `a`: the last one written, or the free value the address holds from reset (R33; log 7). -/
def Memory.byteAt (m : Memory) (a : Nat) : Byte := (m.lookup a).getD (Config.byteAtReset a)

/-- The cells that hold `bs` from address `a` on. -/
def Memory.cells : Nat → List Byte → Memory
  | _, [] => []
  | a, b :: bs => (a, b) :: Memory.cells (a + 1) bs

/-- Store `bs` at addresses a .. a + length - 1; every other address keeps its byte. -/
def Memory.put (m : Memory) (a : Nat) (bs : List Byte) : Memory :=
  m.filter (fun c => decide (c.1 < a)) ++ Memory.cells a bs ++
    m.filter (fun c => decide (a + bs.length ≤ c.1))

/-- MemWrite (spec/00_scope.md R9): store `bs` from address `a` on, addresses modulo 2^32. -/
def Memory.store (m : Memory) (a : Addr) (bs : List Byte) : Memory :=
  let room := 2 ^ 32 - a.toNat
  if bs.length ≤ room then m.put a.toNat bs
  else (m.put a.toNat (bs.take room)).put 0 (bs.drop room)

/-- MemRead(a, n) (R9): the bytes at a .. a + n - 1, addresses modulo 2^32. -/
def Memory.load (m : Memory) (a : Addr) (n : Nat) : List Byte :=
  (List.range n).map fun i => m.byteAt (a + BitVec.ofNat 32 i).toNat

/-- MemRead(a, 4), assembled in the byte order (R73). -/
def Memory.loadWord (m : Memory) (o : ByteOrder) (a : Addr) : Word :=
  wordOfBytes o (m.byteAt a.toNat) (m.byteAt (a + 1).toNat) (m.byteAt (a + 2).toNat) (m.byteAt (a + 3).toNat)

/-- MemWrite(a, 4, v) in the byte order (R73). -/
def Memory.storeWord (m : Memory) (o : ByteOrder) (a : Addr) (v : Word) : Memory := m.store a (bytesOfWord o v)

/-- MemWrite of consecutive words from `a` on. -/
def Memory.storeWords (m : Memory) (o : ByteOrder) (a : Addr) (ws : List Word) : Memory :=
  m.store a (ws.flatMap (bytesOfWord o))

/-- Addresses strictly rise, all at or above `lo`. -/
def Memory.risingFrom : Nat → Memory → Bool
  | _, [] => true
  | lo, (k, _) :: m => decide (lo ≤ k) && Memory.risingFrom (k + 1) m

/-- The canonical form: addresses strictly rising and inside the 32-bit space. (An unlisted address holds no written
byte, so no entry can equal what it holds.) -/
def Memory.wf (m : Memory) : Bool := Memory.risingFrom 0 m && m.all (fun c => decide (c.1 < 2 ^ 32))

/-- RAW[i] (R33, R71). -/
def State.raw (s : State) (i : Nat) : Word := s.mem.loadWord s.params.byteOrder (rawAddr s.params i)

/-- SHBUFBIS = bitrev32(SHBUF) (spec/10_state.md R26). -/
def State.shbufbis (s : State) : Word := bitrev32 s.fx.shbuf

/-- A DMA read of 4 bytes at `a`: at SHIFTBUFBIS_ADDR it "returns bitrev32(SHBUF) and clears SHSTAT.SSF" (R77);
elsewhere, where no run reads, it is a plain read (log 15). -/
def busRead (s : State) (a : Addr) : Word × State :=
  if a = s.params.shiftBufBisAddr then
    (s.shbufbis, s.withFx { s.fx with shstat := { s.fx.shstat with ssf := false } })
  else (s.mem.loadWord s.params.byteOrder a, s)

/-- CINV: "Under CACHE_POLICY = COHERENT it changes no value the model holds" (R82). -/
def cacheInvalidate (s : State) : State := s

/-! ### Draws -/

/-- The draw DMA_ALLOC_OK of the next allocation attempt (spec/40_config.md R140): the outcome supplied with the state,
else the free value of this draw (log 8). -/
def allocDraw (s : State) : Bool :=
  match s.allocAnswers with
  | ok :: _ => ok
  | [] => Config.allocOk s.draws

/-- The state after that draw. -/
def afterAllocDraw (s : State) : State := (s.withDraws (s.draws + 1)).withAnswers s.allocAnswers.tail

/-! ### Faults -/

/-- `raise Fault(r)`: FAULT becomes `r` unless it already holds the first fault (R43). -/
def raise (r : FaultRecord) (s : State) : State := { s with fault := s.fault.or (some r) }

/-- Go on with `f` unless the steps before raised: a step performs "nothing after the raise line" (R291). -/
def andThen (s : State) (f : State → State) : State :=
  match s.fault with
  | none => f s
  | some _ => s

/-- A step exists only while FAULT = NONE (R292, R293): otherwise the machine has stopped. -/
def whenLive (s : State) (f : State → State) : Host.Outcome State Fault Refusal :=
  match s.fault with
  | none => .next (f s)
  | some r => .fault (.halted r)

/-! ### Commands and agents' steps -/

/-- "Each command except GETBUF and CONSUME sets RESP[0] <- OK([]) when it completes without a fault" (R130). -/
def respondOk (s : State) : State := s.withResp hostTid (.ok [])

/-- A HOST command: its operation, then its result (R130). -/
def hostCommand (op : State → State) (s : State) : Host.Outcome State Fault Refusal :=
  whenLive s fun s => andThen (op s) respondOk

/-- The check common to the peripheral commands (R130, step 3). -/
def withHandle (word : Word) (op : State → State) (s : State) : State :=
  if s.handle = true then op s else raise (.fatalNoHandle word) s

/-- An agent's turn: its step if that is enabled, and nothing if not (log 2). -/
def agentStep (enabled : State → Bool) (op : State → State) (s : State) : Host.Outcome State Fault Refusal :=
  whenLive s fun s => if enabled s then op s else s

/-! ### The completion interrupt -/

/-- `raise_event(hc)` (spec/41_capture_dma.md R186): the source becomes pending in EVQ (R300). -/
def raiseEvent (hc : Half) (s : State) : State :=
  let s := s.withTrack { s.track with wse := s.track.wse.set hc false }
  if hc ∈ s.dma.evq then raise (.completionOverrun hc) s
  else s.withDma { s.dma with evq := s.dma.evq ++ [hc] }

/-- Handler entry: pop the pending event at the head of EVQ (spec/43_steering_fifo.md R240). No other state is saved,
and the handler's return restores nothing (R304, R305). -/
def takeEvent (s : State) : State := s.withDma { s.dma with evq := s.dma.evq.tail }

end Sys2Proof.Machine
end

