-- ==== Sys2Proof/Machine/Capture.lean ====
section
/-! DEFINITION. The steps of the SHIFTER and the DMA: SHIFTWORD and DMABEAT (spec/41_capture_dma.md R180 to R187). -/

namespace Sys2Proof.Machine

/-- R181. The word that overruns still sets SEF and SHBUF. -/
def shiftwordOp (v : Word) (s : State) : State :=
  if s.fx.shstat.ssf = true then
    raise (.shifterOverrun v)
      (s.withFx { s.fx with shbuf := bitrev32 v, shstat := { s.fx.shstat with sef := true } })
  else s.withFx { s.fx with shbuf := bitrev32 v, shstat := { s.fx.shstat with ssf := true } }

/-- SHIFTWORD V (R180, R181). -/
def execShiftword (v : Word) (s : State) : Host.Outcome State Fault Refusal := agentStep shiftEnabled (shiftwordOp v) s

/-- `VALID[h] <- 0; WSE[h] <- 1` (R184). -/
def Tracking.written (k : Tracking) (h : Half) : Tracking :=
  { k with valid := k.valid.set h false, wse := k.wse.set h true }

/-- R183 and the write of R184: one word from the source address to the destination address, with the tracking of the
half written. -/
def beatTransfer (s : State) : State :=
  let (v, t) := busRead s s.dma.tcd.saddr
  let t := t.withMem (t.mem.storeWord t.params.byteOrder t.dma.tcd.daddr v)
  match halfOf t.params t.dma.tcd.daddr with
  | some h => t.withTrack (t.track.written h)
  | none => t

/-- The count and the destination after a beat (R184), with the reload at the end of the major loop (R185). -/
def Tcd.advance (c : Tcd) : Tcd :=
  let c := { c with daddr := c.daddr + c.doff.signExtend 32, citer := c.citer - 1 }
  if c.citer = 0 then { c with daddr := c.daddr + c.dlast, citer := c.biter } else c

/-- The completion events of a beat whose decremented count is `citer`, tested before the reload (R186). -/
def beatEvents (citer : BitVec 16) (s : State) : State :=
  andThen
    (if citer = s.dma.tcd.biter / 2 ∧ s.dma.tcd.inthalf = true then raiseEvent 0 s else s)
    (fun s => if citer = 0 ∧ s.dma.tcd.intmajor = true then raiseEvent 1 s else s)

/-- One element transfer: the read, the write and the count, the reload, then the events (R183 to R186; R291). -/
def dmabeatOp (s : State) : State :=
  let t := beatTransfer s
  beatEvents (t.dma.tcd.citer - 1) (t.withDma { t.dma with tcd := t.dma.tcd.advance })

/-- DMABEAT (R183 to R187). -/
def execDmabeat (s : State) : Host.Outcome State Fault Refusal := agentStep beatEnabled dmabeatOp s

end Sys2Proof.Machine
end

