-- ==== Sys2Proof/Machine/ReadPort.lean ====
section
/-! DEFINITION. The read port: CONSUME, WAKE, SIGINTR and FIFORST (spec/43_steering_fifo.md R255 to R279). -/

namespace Sys2Proof.Machine

/-- The entry may not be copied (R262): it was decoded again, or a beat has written its half. -/
def isStale (k : Tracking) (e : Entry) : Bool := decide (e.g ≠ k.gen[e.h]) || !k.valid[e.h]

/-- The bytes of the batch that an entry refers to (R258, R260). -/
def batchOf (s : State) (e : Entry) : List Byte := s.mem.load (halfBase s.params e.h) (batchBytes s.params)

/-- The loop of COPY (R258), at most `fuel` entries: two slots hold at most two. `bytes` is what has been copied. An
occupied position whose slot is EMPTY, which no run reaches, ends the loop (log 14). -/
def copyLoop (t : Tid) (cap : Nat) : Nat → List Byte → State → State
  | 0, bytes, s => (s.withResp t (.ok bytes)).withTs t .idle
  | fuel + 1, bytes, s =>
    if s.fifo.isEmpty = false ∧ batchBytes s.params ≤ cap - bytes.length then
      match s.fifo.slot[s.fifo.head] with
      | none => (s.withResp t (.ok bytes)).withTs t .idle
      | some e =>
        if isStale s.track e = true then raise (.staleBatch e.h e.g) s
        else
          copyLoop t cap fuel (bytes ++ batchOf s e) (s.withFifo { s.fifo with head := s.fifo.head + 1 })
    else (s.withResp t (.ok bytes)).withTs t .idle

/-- COPY(t, cap) (R258). -/
def copyBatches (t : Tid) (cap : Nat) (s : State) : State := copyLoop t cap fifoSlots [] s

/-- The read of an empty FIFO with an overrun pending: "clears the flag and returns Overrun" (R257, R270). -/
def reportOverrun (t : Tid) (s : State) : State :=
  ((s.withFifo { s.fifo with ovr := false }).withResp t (.err .eio)).withTs t .idle

/-- R255 to R257. -/
def consumeOp (t : Tid) (nb : Bool) (cap : BitVec 16) (s : State) : State :=
  if s.tsOf t ≠ .idle then raise (.configInvalid (Instr.consume t nb cap).word) s
  else if cap.toNat < batchBytes s.params then s.withResp t (.ok [])
  else if s.fifo.isEmpty = true then
    if s.fifo.ovr = true then reportOverrun t s
    else if nb = true then s.withResp t (.err .eagain)
    else (s.withFifo { s.fifo with waiters := s.fifo.waiters + 1 }).withTs t (.blocked cap.toNat)
  else copyBatches t cap.toNat s

/-- CONSUME t, cap[, nb] (R255). -/
def execConsume (t : Tid) (nb : Bool) (cap : BitVec 16) (s : State) : Host.Outcome State Fault Refusal :=
  whenLive s (consumeOp t nb cap)

/-- R278: "sets head = tail to discard all pending batches". -/
def fiforstOp (s : State) : State :=
  s.withFifo { s.fifo with
    head := s.fifo.tail
    ovr := if s.params.resetClearsOverrun = true then false else s.fifo.ovr }

/-- FIFORST (R278). -/
def execFiforst (s : State) : Host.Outcome State Fault Refusal := hostCommand fiforstOp s

/-- R270: take one unit of the signal, then data, or the overrun, or wait again. -/
def wakeOp (t : Tid) (s : State) : State :=
  let u := s.withFifo { s.fifo with sem := s.fifo.sem - 1, waiters := s.fifo.waiters - 1 }
  if u.fifo.isEmpty = false then copyBatches t ((s.tsOf t).cap?.getD 0) u
  else if u.fifo.ovr = true then reportOverrun t u
  else u.withFifo { u.fifo with waiters := u.fifo.waiters + 1 }

/-- WAKE t (R270). -/
def execWake (t : Tid) (s : State) : Host.Outcome State Fault Refusal := agentStep (wakeEnabled t) (wakeOp t) s

/-- R274: "SEM is unchanged". -/
def sigintrOp (t : Tid) (s : State) : State :=
  ((s.withFifo { s.fifo with waiters := s.fifo.waiters - 1 }).withTs t .idle).withResp t (.err .eintr)

/-- SIGINTR t (R274). -/
def execSigintr (t : Tid) (s : State) : Host.Outcome State Fault Refusal :=
  agentStep (sigintrEnabled t) (sigintrOp t) s

end Sys2Proof.Machine
end

