-- ==== Sys2Proof/Machine/DmaConfig.lean ====
section
/-! DEFINITION. The DMA commands DALLOC to DFREE and CINV (spec/40_config.md R140 to R145). -/

namespace Sys2Proof.Machine

/-- R140. The draw DMA_ALLOC_OK is a free value (log 8): it is made only when no channel is allocated. -/
def dallocOp (s : State) : State :=
  if s.dma.ch.alloc = true then s
  else
    let t := afterAllocDraw s
    if allocDraw s = true then
      t.withDma { t.dma with ch := { t.dma.ch with alloc := true, reqsrc := .shifter } }
    else raise (.fatalDmaAlloc t.params.dmaChannel) t

/-- DALLOC (R140). -/
def execDalloc (s : State) : Host.Outcome State Fault Refusal := hostCommand dallocOp s

/-- The transfer record DSETUP writes (R141; spec/10_state.md R31). -/
def tcdProgrammed (p : Params) : Tcd where
  saddr := p.shiftBufBisAddr
  soff := 0
  ssize := .w32
  dsize := .w32
  nbytes := 4
  slast := 0
  daddr := p.rawBufBase
  doff := 4
  biter := 512
  citer := 512
  dlast := -2048
  inthalf := true
  intmajor := true
  majorlink := .none
  dreq := false

/-- Both DMA addresses are multiples of 4 (R141; spec/20_memory.md R75). -/
def dmaAligned (p : Params) : Bool :=
  decide (p.rawBufBase.toNat % 4 = 0) && decide (p.shiftBufBisAddr.toNat % 4 = 0)

/-- R141. -/
def dsetupOp (s : State) : State :=
  if s.dma.ch.alloc = false ∨ s.dma.ch.erq = true then raise (.configInvalid Instr.dsetup.word) s
  else if dmaAligned s.params = false then raise (.configInvalid Instr.dsetup.word) s
  else s.withDma { s.dma with tcd := tcdProgrammed s.params, ch := { s.dma.ch with tcdv := true } }

/-- DSETUP (R141). -/
def execDsetup (s : State) : Host.Outcome State Fault Refusal := hostCommand dsetupOp s

/-- R142. -/
def dstartOp (s : State) : State :=
  if s.dma.ch.tcdv = false then raise (.configInvalid Instr.dstart.word) s
  else s.withDma { s.dma with ch := { s.dma.ch with erq := true } }

/-- DSTART (R142). -/
def execDstart (s : State) : Host.Outcome State Fault Refusal := hostCommand dstartOp s

/-- R143: "pending completion events are dropped"; "The TCD keeps its position". -/
def dstopOp (s : State) : State :=
  s.withDma { s.dma with ch := { s.dma.ch with erq := false }, evq := [] }

/-- DSTOP (R143). -/
def execDstop (s : State) : Host.Outcome State Fault Refusal := hostCommand dstopOp s

/-- R144. -/
def dfreeOp (s : State) : State :=
  if s.dma.ch.erq = true then raise (.configInvalid Instr.dfree.word) s
  else s.withDma { s.dma with ch := { s.dma.ch with alloc := false, reqsrc := .none, tcdv := false } }

/-- DFREE (R144). -/
def execDfree (s : State) : Host.Outcome State Fault Refusal := hostCommand dfreeOp s

/-- CINV (R145). -/
def execCinv (s : State) : Host.Outcome State Fault Refusal := hostCommand cacheInvalidate s

end Sys2Proof.Machine
end

