-- ==== Sys2Proof/Machine/Peripheral.lean ====
section
/-! DEFINITION. The peripheral commands FXRESET to FXDISABLE (spec/40_config.md R131 to R139). Each operation `…Op` is the
command without its result, as INIT and STOP run it; `exec…` is the command on the port (R130). -/

namespace Sys2Proof.Machine

/-- R131: every record of the peripheral at its reset value; "DMA state is not touched". -/
def fxresetOp (s : State) : State :=
  withHandle Instr.fxreset.word (fun s => s.withFx .reset) s

/-- FXRESET (R131). -/
def execFxreset (s : State) : Host.Outcome State Fault Refusal := hostCommand fxresetOp s

/-- SHCFG after SETSHIFT (R132). -/
def shcfgReceive (p : Params) : ShCfg := ⟨.receive, .pin, p.rxPin, .outputDisabled, .none, .none, .timerA⟩

/-- R132. -/
def setshiftOp (s : State) : State :=
  withHandle Instr.setshift.word (fun s =>
    if s.fx.en = true then raise (.configInvalid Instr.setshift.word) s
    else s.withFx { s.fx with shcfg := shcfgReceive s.params }) s

/-- SETSHIFT (R132). -/
def execSetshift (s : State) : Host.Outcome State Fault Refusal := hostCommand setshiftOp s

/-- R133. -/
def settimaOp (val : BitVec 16) (s : State) : State :=
  withHandle (Instr.settima val).word (fun s =>
    if s.fx.en = true then raise (.configInvalid (Instr.settima val).word) s
    else s.withFx { s.fx with tima := ⟨.dual8Baud, .freeRunning, val⟩ }) s

/-- SETTIMA (R133). -/
def execSettima (val : BitVec 16) (s : State) : Host.Outcome State Fault Refusal := hostCommand (settimaOp val) s

/-- R134. -/
def settimbOp (val : BitVec 16) (s : State) : State :=
  withHandle (Instr.settimb val).word (fun s =>
    if s.fx.en = true then raise (.configInvalid (Instr.settimb val).word) s
    else s.withFx { s.fx with timb := ⟨.single16, .onTimAEnable, .timAOutput, val⟩ }) s

/-- SETTIMB (R134). -/
def execSettimb (val : BitVec 16) (s : State) : Host.Outcome State Fault Refusal := hostCommand (settimbOp val) s

/-- R135. -/
def sdmaenOp (s : State) : State :=
  withHandle Instr.sdmaen.word (fun s => s.withFx { s.fx with shstat := { s.fx.shstat with ssde := true } }) s

/-- SDMAEN (R135). -/
def execSdmaen (s : State) : Host.Outcome State Fault Refusal := hostCommand sdmaenOp s

/-- R136: "SHBUF keeps its value". -/
def sclrOp (s : State) : State :=
  withHandle Instr.sclr.word (fun s =>
    s.withFx { s.fx with shstat := { s.fx.shstat with ssf := false, sef := false } }) s

/-- SCLR (R136). -/
def execSclr (s : State) : Host.Outcome State Fault Refusal := hostCommand sclrOp s

/-- The shifter and both timers are configured, as FXENABLE requires (R137). -/
def Peripheral.configured (x : Peripheral) : Bool :=
  decide (x.shcfg.mode = .receive) && decide (x.tima.mode = .dual8Baud) && decide (x.timb.mode = .single16)

/-- R137. -/
def fxenableOp (s : State) : State :=
  withHandle Instr.fxenable.word (fun s =>
    if s.fx.configured = true then s.withFx { s.fx with en := true }
    else raise (.configInvalid Instr.fxenable.word) s) s

/-- FXENABLE (R137). -/
def execFxenable (s : State) : Host.Outcome State Fault Refusal := hostCommand fxenableOp s

/-- R138: "Configuration records are kept". -/
def fxdisableOp (s : State) : State :=
  withHandle Instr.fxdisable.word (fun s =>
    s.withFx { s.fx with en := false, shstat := { s.fx.shstat with ssde := false } }) s

/-- FXDISABLE (R138). -/
def execFxdisable (s : State) : Host.Outcome State Fault Refusal := hostCommand fxdisableOp s

/-- GETBUF (R139): "No state other than RESP[0] changes". -/
def execGetbuf (s : State) : Host.Outcome State Fault Refusal :=
  whenLive s (withHandle Instr.getbuf.word fun s => s.withResp hostTid (.addr s.params.shiftBufBisAddr))

end Sys2Proof.Machine
end

