-- ==== Sys2Proof/Machine/Session.lean ====
section
/-! DEFINITION. The composite commands INIT, START and STOP (spec/40_config.md R146 to R149). A composite runs its
sub-commands' operations in order and stops at the first fault, keeping the writes made before it (R146; R291). The
sub-commands deliver no result of their own: the command's one result is RESP[0] at its completion (log 11). -/

namespace Sys2Proof.Machine

/-- Run operations in order, stopping at the first fault. -/
def runOps : List (State → State) → State → State
  | [], s => s
  | f :: fs, s => andThen (f s) (runOps fs)

/-- INIT's sub-commands, in R146's order. GETBUF's result is the source address that DSETUP takes from the setting. -/
def initSequence (p : Params) : List (State → State) :=
  [fxresetOp, setshiftOp, settimaOp p.timaCmp, settimbOp p.timbCmp, dallocOp, cacheInvalidate, dsetupOp, dstartOp,
    sdmaenOp, sclrOp, fxenableOp]

/-- R146: REINIT_ACTIVE, then the handle, then the sequence (R293). -/
def initOp (s : State) : State :=
  if s.fx.en = true ∨ s.dma.ch.erq = true then raise (.reinitActive Instr.init.word) s
  else if s.handle = false then raise (.fatalNoHandle 0) s
  else runOps (initSequence s.params) s

/-- INIT (R146). -/
def execInit (s : State) : Host.Outcome State Fault Refusal := hostCommand initOp s

/-- START's own writes after INIT: HEAD, TAIL and OVR to 0 (R148). -/
def clearFifo (s : State) : State := s.withFifo { s.fifo with head := 0, tail := 0, ovr := false }

/-- R148. INIT raises with its own word, also inside START (spec/95_test_vectors.md V-CFG-14; log 10). -/
def startOp (s : State) : State := andThen (initOp s) clearFifo

/-- START (R148). -/
def execStart (s : State) : Host.Outcome State Fault Refusal := hostCommand startOp s

/-- R149: FXDISABLE, DSTOP, DFREE (spec/70_reset_and_hazards.md R337). -/
def stopOp (s : State) : State := runOps [fxdisableOp, dstopOp, dfreeOp] s

/-- STOP (R149). -/
def execStop (s : State) : Host.Outcome State Fault Refusal := hostCommand stopOp s

end Sys2Proof.Machine
end

