-- ==== Sys2Proof/Machine/Decoder.lean ====
section
/-! DEFINITION. The decoder (spec/42_decoder.md R210 to R219): shift, mask and OR only (spec/00_scope.md R11). -/

namespace Sys2Proof.Machine

/-- `IN[i]` of half `h`: the snapshot of R214, words in ascending address order (R211). -/
def halfWord (s : State) (h : Half) (i : Nat) : Word := s.raw (halfWords * h.val + i)

/-- Stream bit `B(k)` of a half's words: MSB-first, words in order (R211). -/
def streamBit (words : Nat → Word) (k : Nat) : Bool := (words (k / 32)).getLsbD (31 - k % 32)

/-- `field(p)`, the 24 bits at stream position `p`, in word operations (R212). -/
def sampleField (words : Nat → Word) (p : Nat) : Word :=
  let q := p / 32
  let r := p % 32
  if r ≤ 8 then lsr (words q) (8 - r) &&& 0x00FFFFFF
  else (lsl (words q) (r - 8) ||| lsr (words (q + 1)) (40 - r)) &&& 0x00FFFFFF

/-- The samples of frame `f`, one per channel in wire order (R213, R214, R219). -/
def frameSamples (p : Params) (words : Nat → Word) (f : Nat) : List Word :=
  p.sampleOffsets.map fun o => sext24 (sampleField words (32 * p.frameWords * f + o))

/-- The decoded batch OUT, frame after frame (R214, R219). -/
def decodedBatch (p : Params) (words : Nat → Word) : List Word :=
  (List.range (framesPerHalf p)).flatMap (frameSamples p words)

/-- The words after the output: `any`, one free word each (R214; log 9). -/
def decodeTail (p : Params) (draws : Nat) : List Word :=
  (List.range (halfWords - outWords p)).map fun k => Config.freeWord (draws + k)

/-- `GEN[h] <- GEN[h] + 1; VALID[h] <- 1` (R214). -/
def Tracking.decoded (k : Tracking) (h : Half) : Tracking :=
  { k with gen := k.gen.set h (k.gen[h] + 1), valid := k.valid.set h true }

/-- Decode half `h` in place, in one step (R214; spec/20_memory.md R91). -/
def decodeHalf (h : Half) (s : State) : State :=
  let out := decodedBatch s.params (halfWord s h)
  let mem := s.mem.storeWords s.params.byteOrder (halfBase s.params h) (out ++ decodeTail s.params s.draws)
  ((s.withMem mem).withTrack (s.track.decoded h)).withDraws (s.draws + (halfWords - outWords s.params))

/-- R215: as a command, only while the channel is stopped. -/
def decodeOp (h : Half) (s : State) : State :=
  if s.dma.ch.erq = true then raise (.configInvalid (Instr.decode h).word) s else decodeHalf h s

/-- DECODE h (R210, R214, R215). -/
def execDecode (h : Half) (s : State) : Host.Outcome State Fault Refusal := hostCommand (decodeOp h) s

end Sys2Proof.Machine
end

