-- ==== Sys2Proof/Machine/Steering.lean ====
section
/-! DEFINITION. Completion steering and the producer side of the Sample FIFO: CMPL and PRODUCE
(spec/43_steering_fifo.md R240 to R252). -/

namespace Sys2Proof.Machine

/-- The result of `try_produce` (R251). -/
inductive ProduceResult where
  | accepted
  | dropped
  deriving DecidableEq, Repr

/-- R251: drop the batch and flag the overrun if the FIFO is full, else store it, advance TAIL, note the poll
subscribers and signal one waiter. -/
def Fifo.offer (f : Fifo) (e : Entry) : Fifo × ProduceResult :=
  if f.isFull = true then ({ f with ovr := true }, .dropped)
  else
    ({ f with
        slot := f.slot.set f.tail (some e)
        tail := f.tail + 1
        pollnote := f.pollnote + 1
        sem := if 0 < f.waiters then f.sem + 1 else f.sem }, .accepted)

/-- PRODUCE (h, GEN[h]): the batch that half `h` holds now (R242, R250). The hand-off is then over (log 4). -/
def produceOp (h : Half) (s : State) : State :=
  (s.withFifo (s.fifo.offer ⟨h, s.track.gen[h]⟩).1).withHanding none

/-- PRODUCE (R250, R251). -/
def execProduce (h : Half) (s : State) : Host.Outcome State Fault Refusal := agentStep (produceEnabled h) (produceOp h) s

/-- R240 to R242: pop the event, invalidate, check that the half was not written since, decode it, hand it off. The half
is the discriminator itself (R243). -/
def cmplOp (hc : Half) (s : State) : State :=
  let t := cacheInvalidate (takeEvent s)
  if t.track.wse[hc] = true then raise (.decodeLate hc) t
  else produceOp hc ((decodeHalf hc t).withHanding (some hc))

/-- CMPL (R240). -/
def execCmpl (hc : Half) (s : State) : Host.Outcome State Fault Refusal := agentStep (cmplEnabled hc) (cmplOp hc) s

end Sys2Proof.Machine
end

