-- ==== Sys2Proof/Machine/Dispatch.lean ====
section
/-! DEFINITION. The one dispatch: an arm per row of spec/opcode_table.json. -/

namespace Sys2Proof.Machine

def exec (i : Instr) (s : State) : Host.Outcome State Fault Refusal :=
  match i with
  | .fxreset => Sys2Proof.Machine.execFxreset s
  | .setshift => Sys2Proof.Machine.execSetshift s
  | .settima val => Sys2Proof.Machine.execSettima val s
  | .settimb val => Sys2Proof.Machine.execSettimb val s
  | .sdmaen => Sys2Proof.Machine.execSdmaen s
  | .sclr => Sys2Proof.Machine.execSclr s
  | .fxenable => Sys2Proof.Machine.execFxenable s
  | .getbuf => Sys2Proof.Machine.execGetbuf s
  | .fxdisable => Sys2Proof.Machine.execFxdisable s
  | .dalloc => Sys2Proof.Machine.execDalloc s
  | .dsetup => Sys2Proof.Machine.execDsetup s
  | .dstart => Sys2Proof.Machine.execDstart s
  | .dstop => Sys2Proof.Machine.execDstop s
  | .dfree => Sys2Proof.Machine.execDfree s
  | .cinv => Sys2Proof.Machine.execCinv s
  | .init => Sys2Proof.Machine.execInit s
  | .start => Sys2Proof.Machine.execStart s
  | .stop => Sys2Proof.Machine.execStop s
  | .decode h => Sys2Proof.Machine.execDecode h s
  | .consume tid nb cap => Sys2Proof.Machine.execConsume tid nb cap s
  | .fiforst => Sys2Proof.Machine.execFiforst s
  | .shiftword v => Sys2Proof.Machine.execShiftword v s
  | .dmabeat => Sys2Proof.Machine.execDmabeat s
  | .cmpl hc => Sys2Proof.Machine.execCmpl hc s
  | .produce h => Sys2Proof.Machine.execProduce h s
  | .wake tid => Sys2Proof.Machine.execWake tid s
  | .sigintr tid => Sys2Proof.Machine.execSigintr tid s

end Sys2Proof.Machine
end

