-- ==== Sys2Proof/Machine/Fetch.lean ====
section
/-! DEFINITION. Taking the next turn of the schedule (spec/20_memory.md R83; spec/60_exceptions.md R320; log 1). -/

namespace Sys2Proof.Machine

/-- What the next turn is: an instruction to run, a step already complete, or no meaning. -/
inductive Fetched where
  | instr (i : Instr) (s : State)
  | done (s : State)
  | refuse (r : Refusal)
  deriving DecidableEq, Repr

/-- Take the turn at the head of the schedule. A word on the command port that R107 rejects faults ILLEGAL_COMMAND with
the word as its info; with no turn left nothing happens. -/
def fetch (s : State) : Fetched :=
  match s.sched with
  | [] => .done s
  | .command w :: rest =>
    match decodePort w with
    | .ok i => .instr i (s.withSched rest)
    | .error _ => .done (raise (.illegalCommand w) (s.withSched rest))
  | .event w v :: rest =>
    match decodeEvent w v with
    | .ok i => .instr i (s.withSched rest)
    | .error _ => .refuse (.notAnEvent w)

/-- The turn that presents the bits `w` of an operation: an internal event code as the agent's step, any other word on
the command port. Bits 31:0 are the word, bits 63:32 the payload (R106). -/
def turnOfBits (nbits w : Nat) : Turn :=
  let x := w % 2 ^ nbits
  let word : Word := BitVec.ofNat 32 x
  if isEventCode word then .event word (BitVec.ofNat 32 (x / 2 ^ 32)) else .command word

/-- The half of a PRODUCE turn, which is a step only while the handler hands that half off (log 4). -/
def Turn.handOff : Turn → Option Half
  | .command _ => none
  | .event w v =>
    match decodeEvent w v with
    | .ok (.produce h) => some h
    | _ => none

/-- Put the turn that presents the bits `w` before the turns of the schedule. For a PRODUCE the handler stands where CMPL
runs it: handing off the half that the word names (log 4). -/
def scheduleBits (s : State) (nbits w : Nat) : State :=
  let x := turnOfBits nbits w
  let s := s.withSched (x :: s.sched)
  match x.handOff with
  | some h => s.withHanding (some h)
  | none => s

end Sys2Proof.Machine
end

