-- ==== Sys2Proof/Machine/Step.lean ====
section
/-! DEFINITION. One step of the machine: the next turn of the schedule. -/

namespace Sys2Proof.Machine

/-- A setting that no model launches has no run (spec/00_scope.md R7); a state with FAULT set has no step
(spec/60_exceptions.md R292); otherwise the next turn is taken. -/
def step (s : State) : Host.Outcome State Fault Refusal :=
  match launchRefusal s.params with
  | some r => .refused r
  | none =>
    match s.fault with
    | some r => .fault (.halted r)
    | none =>
      match fetch s with
      | .instr i t => exec i t
      | .done t => .next t
      | .refuse r => .refused r

/-- The state whose next turn presents the bits `w` of one operation. -/
def State.withFetchWord (s : State) (nbits w : Nat) : State := scheduleBits s nbits w

end Sys2Proof.Machine
end

