-- ==== Sys2Proof/Safety.lean ====
section
/-! DEFINITION. What counts as a safe run, in the terms claims use: no fault recorded, the end of a run
(spec/70_reset_and_hazards.md R338), the invariant of the block that every step keeps, and the weakly fair runs
(spec/60_exceptions.md R321). -/

namespace Sys2Proof.Machine

/-- No fault has been recorded. -/
def State.safe (s : State) : Prop := s.fault = none

/-- The turn is a command of the HOST: any word on the port but a reader's CONSUME (spec/00_scope.md R5;
spec/60_exceptions.md R320; log 24). -/
def Turn.isHostCommand : Turn → Bool
  | .command w =>
    match decodePort w with
    | .ok (.consume t _ _) => decide (t = hostTid)
    | _ => true
  | .event _ _ => false

/-- What R338 asks of the state at the end of a run. The handler is outside its hand-off, as after every step (spec/20_memory.md
R89; log 4), so that no agent has a step but further reads. -/
def atRest (s : State) : Prop :=
  s.fault = none ∧ s.fx.en = false ∧ s.dma.ch.erq = false ∧ s.dma.evq = [] ∧ (∀ t : Tid, s.tsOf t = .idle) ∧
    s.handing = none

/-- The end of a run, for a state whose turns to come stand in `sched` (R338): "the HOST has no command left to issue", and
further reads may come. For an endless run, whose turns stand beside its states, it is `Run.endsAt`. -/
def isRunEnd (s : State) : Prop := atRest s ∧ ∀ x ∈ s.sched, x.isHostCommand = false

/-- The transfer record is the one DSETUP writes, at the position that CITER gives (spec/41_capture_dma.md R185):
DADDR = RAW_BUF_BASE + 4·(512 − CITER). -/
def tcdAt (p : Params) (c : Tcd) : Prop :=
  1 ≤ c.citer.toNat ∧ c.citer.toNat ≤ 512 ∧
    c = { tcdProgrammed p with daddr := rawAddr p (512 - c.citer.toNat), citer := c.citer }

/-- The invariant of the block. -/
structure Inv (s : State) : Prop where
  /-- Memory is in canonical form. -/
  mem : s.mem.wf = true
  /-- "It holds at most one element of each value" (spec/10_state.md R32). -/
  evq : s.dma.evq.Nodup
  /-- The invariant of spec/41_capture_dma.md R185. -/
  tcd : s.dma.ch.tcdv = true → tcdAt s.params s.dma.tcd
  /-- A running channel is programmed, a programmed one allocated, an allocated one bound to the shifter (R30). -/
  channel : (s.dma.ch.erq = true → s.dma.ch.tcdv = true) ∧ (s.dma.ch.tcdv = true → s.dma.ch.alloc = true) ∧
    (s.dma.ch.alloc = true ↔ s.dma.ch.reqsrc = .shifter)
  /-- An enabled peripheral is configured (spec/40_config.md R137). -/
  enabled : s.fx.en = true → s.fx.configured = true
  /-- SEF is set only by the word that faults (spec/41_capture_dma.md R181). -/
  sef : s.fx.shstat.sef = true → s.fault ≠ none
  /-- A FIFO that is not empty holds an entry at HEAD, of a generation that the half has had (spec/10_state.md R34). -/
  fifo : s.fifo.isEmpty = false → ∃ e, s.fifo.slot[s.fifo.head] = some e ∧ e.g ≤ s.track.gen[e.h]
  /-- A half that holds a decoded batch has been decoded (R40). -/
  valid : ∀ h : Half, s.track.valid[h] = true → 1 ≤ s.track.gen[h]
  /-- WAITERS counts the blocked threads (R37). -/
  waiters : s.fault = none → s.fifo.waiters = blockedCount s
  /-- No step leaves the handler inside its hand-off: CMPL is one step (spec/20_memory.md R89; spec/43_steering_fifo.md
  R250). -/
  handing : s.handing = none
  /-- A thread blocks only with room for a batch (spec/43_steering_fifo.md R256, R257). -/
  caps : ∀ t : Tid, ∀ cap, s.tsOf t = .blocked cap → batchBytes s.params ≤ cap

/-! ### Runs and weak fairness (spec/20_memory.md R83; spec/60_exceptions.md R321) -/

/-- What taking the turn `x` answers; with none, no agent steps (log 23). -/
def takeTurn (x : Option Turn) (s : State) : Host.Outcome State Fault Refusal := step (s.withSched x.toList)

/-- A run: "a sequence of steps, one agent's step at a time" (R83), each from the state the one before left. The sequence
is endless: after a fault, and while nobody steps, the state stays (log 23). No run exists under a refused setting. -/
structure Run where
  state : Nat → State
  turn : Nat → Option Turn
  launched : launchRefusal (state 0).params = none
  steps : ∀ n, takeTurn (turn n) (state n) = .next (state (n + 1)) ∨
    ((state n).fault ≠ none ∧ state (n + 1) = state n)

/-- The run is at its end from turn `n` on (R338): its state is at rest, and "the HOST has no command left to issue". -/
def Run.endsAt (r : Run) (n : Nat) : Prop :=
  atRest (r.state n) ∧ ∀ m, n ≤ m → ∀ x, r.turn m = some x → x.isHostCommand = false

/-- "The fair steps are DMABEAT, CMPL and WAKE" (R321). WAKE is one step for each thread (R271). -/
inductive FairStep where
  | dmabeat
  | cmpl
  | wake (t : Tid)
  deriving DecidableEq, Repr

/-- The fair step is enabled (spec/41_capture_dma.md R187; spec/43_steering_fifo.md R240, R270). -/
def FairStep.enabled : FairStep → State → Prop
  | .dmabeat, s => s.fault = none ∧ beatEnabled s = true
  | .cmpl, s => s.fault = none ∧ ∃ hc, cmplEnabled hc s = true
  | .wake t, s => s.fault = none ∧ wakeEnabled t s = true

/-- The instruction is the fair step. A CMPL names the event it takes. -/
def FairStep.isStep : FairStep → Instr → State → Prop
  | .dmabeat, i, _ => i = .dmabeat
  | .cmpl, i, s => ∃ hc, i = .cmpl hc ∧ cmplEnabled hc s = true
  | .wake t, i, _ => i = .wake t

/-- Turn `n` of the run is the agent's step `i`. -/
def Run.presents (r : Run) (n : Nat) (i : Instr) : Prop :=
  ∃ w v, r.turn n = some (.event w v) ∧ decodeEvent w v = .ok i

/-- The fair step is taken at turn `n`. -/
def Run.takes (r : Run) (f : FairStep) (n : Nat) : Prop :=
  f.enabled (r.state n) ∧ ∃ i, r.presents n i ∧ f.isStep i (r.state n)

/-- Weak fairness: "every step that stays continuously enabled is eventually taken" (R321). SHIFTWORD, SIGINTR and the
commands are not fair. -/
def Run.weaklyFair (r : Run) : Prop :=
  ∀ (f : FairStep) (n : Nat), (∀ m, n ≤ m → f.enabled (r.state m)) → ∃ m, n ≤ m ∧ r.takes f m

end Sys2Proof.Machine
end

