-- ==== Sys2Proof/Certificates/Slice0/Obligations.lean ====
section
/-! DEFINITION. The statements for the provers, from the numbered rules of spec/. Each docstring names the rule. -/

open Sys2Proof Sys2Proof.Machine

/-! ### Words the statements use -/

namespace Sys2Proof.Claims

/-- RESP[0] holds OK([]), the result of a completed HOST command (spec/40_config.md R130). -/
def done (s : State) : State := s.withResp 0 (.ok [])

/-- The state with the fault `r` recorded and nothing else changed. -/
def faulted (s : State) (r : FaultRecord) : State := { s with fault := some r }

/-- The word of the command is `w`, and without a handle the command faults FATAL_NO_HANDLE with that word and writes
nothing else (R130, step 3). -/
def needsHandle (i : Instr) (w : Word) : Prop :=
  encode i = [w] ∧
  ∀ s : State, s.fault = none → s.params.handlePresent = false → exec i s = .next (faulted s (.fatalNoHandle w))

/-- The host-command words of spec/30_encoding.md R101 and R104: the opcode is in the table and every reserved bit of
its format is 0. -/
def acceptedWord (w : Word) : Prop :=
  (opcode w ∈ [0x01, 0x02, 0x05, 0x06, 0x07, 0x08, 0x09, 0x10, 0x11, 0x12, 0x13, 0x14, 0x18, 0x20, 0x21, 0x22, 0x42] ∧
      bits w 0 24 = 0) ∨
    (opcode w ∈ [0x03, 0x04] ∧ bits w 16 8 = 0) ∨ (opcode w = 0x31 ∧ bits w 1 23 = 0) ∨ opcode w = 0x41

/-- Run instructions one after another while each answers a next state. -/
def execAll : List Instr → State → Host.Outcome State Fault Refusal
  | [], s => .next s
  | i :: is, s =>
    match exec i s with
    | .next t => execAll is t
    | .fault r => .fault r
    | .refused r => .refused r

/-- The peripheral after INIT's FXRESET, SETSHIFT, SETTIMA and SETTIMB (spec/40_config.md R131 to R134). -/
def configuredFx (p : Params) : Peripheral where
  en := false
  shcfg := ⟨.receive, .pin, p.rxPin, .outputDisabled, .none, .none, .timerA⟩
  shstat := ⟨false, false, false⟩
  shbuf := 0
  tima := ⟨.dual8Baud, .freeRunning, p.timaCmp⟩
  timb := ⟨.single16, .onTimAEnable, .timAOutput, p.timbCmp⟩

/-- The transfer record of spec/10_state.md R31, column "value DSETUP writes". -/
def setupTcd (p : Params) : Tcd :=
  ⟨p.shiftBufBisAddr, 0, .w32, .w32, 4, 0, p.rawBufBase, 4, 512, 512, -2048, true, true, .none, false⟩

/-- PRODUCE of each half in turn, each while the handler hands that half off, inside its CMPL (R242, R250; log 4). -/
def handOffs : List Half → State → Host.Outcome State Fault Refusal
  | [], s => .next s
  | h :: hs, s =>
    match exec (.produce h) { s with handing := some h } with
    | .next t => handOffs hs t
    | .fault r => .fault r
    | .refused r => .refused r

/-- What INIT leaves of `u`: the peripheral running, the channel programmed and running (R146). -/
def initDone (u : State) : State :=
  { u with
    fx := { configuredFx u.params with en := true, shstat := ⟨false, false, true⟩ }
    dma := { u.dma with tcd := setupTcd u.params, ch := { u.dma.ch with tcdv := true, erq := true } } }

/-- `u` with the channel allocated and bound to the shifter (R140). -/
def allocated (u : State) : State :=
  { u with dma := { u.dma with ch := { u.dma.ch with alloc := true, reqsrc := .shifter } } }

/-- The word that DECODE leaves for channel `c` of frame `f` of half `h` (spec/42_decoder.md R214). -/
def sampleOf (s : State) (h : Half) (f c : Nat) : Word :=
  sext24 (sampleField (fun i => s.raw (256 * h.val + i))
    (32 * s.params.frameWords * f + s.params.sampleOffsets.getD c 0))

/-- The half `h` of `t` holds the decode of half `h` of `s` (R214, R219). -/
def holdsDecode (s t : State) (h : Half) : Prop :=
  ∀ f c, f < 256 / s.params.frameWords → c < 3 → t.raw (256 * h.val + (3 * f + c)) = sampleOf s h f c

/-- Outside half `h`, every byte of `t` is that of `s`. -/
def sameOutsideHalf (s t : State) (h : Half) : Prop :=
  ∀ x, x < 2 ^ 32 → ¬ (s.params.rawBufBase.toNat + 1024 * h.val ≤ x ∧ x < s.params.rawBufBase.toNat + 1024 * h.val + 1024) →
    t.mem.byteAt x = s.mem.byteAt x

/-- The tracking after a decode of half `h`: GEN[h] up by one, VALID[h] set (R214). -/
def trackDecoded (k : Tracking) (h : Half) : Tracking :=
  { k with gen := k.gen.set h (k.gen[h] + 1), valid := k.valid.set h true }

/-- The premises of a beat: enabled, and the transfer record at the position CITER gives (spec/41_capture_dma.md R185,
R187). -/
def beatReady (s : State) : Prop :=
  s.fault = none ∧ admissible s.params = true ∧ beatEnabled s = true ∧ tcdAt s.params s.dma.tcd

/-- The index of the raw word that the next beat writes: 512 − CITER (R185). -/
def beatIndex (s : State) : Nat := 512 - s.dma.tcd.citer.toNat

/-- The half of the raw word that the next beat writes (R184). -/
def beatHalf (s : State) : Half := if beatIndex s < 256 then 0 else 1

/-- The status flags of spec/10_state.md R44. -/
inductive Flag where
  | en
  | ssf
  | sef
  | ssde
  | erq
  | ovr

/-- The flag's value in a state. -/
def Flag.value : Flag → State → Bool
  | .en, s => s.fx.en
  | .ssf, s => s.fx.shstat.ssf
  | .sef, s => s.fx.shstat.sef
  | .ssde, s => s.fx.shstat.ssde
  | .erq, s => s.dma.ch.erq
  | .ovr, s => s.fifo.ovr

/-- R44, column "set by". INIT and START run FXENABLE, SDMAEN and DSTART; CMPL runs PRODUCE. -/
def setBy (f : Flag) (i : Instr) (s : State) : Prop :=
  match f with
  | .en => i = .fxenable ∨ i = .init ∨ i = .start
  | .ssf => ∃ v, i = .shiftword v
  | .sef => (∃ v, i = .shiftword v) ∧ s.fx.shstat.ssf = true
  | .ssde => i = .sdmaen ∨ i = .init ∨ i = .start
  | .erq => i = .dstart ∨ i = .init ∨ i = .start
  | .ovr => ((∃ h, i = .produce h) ∨ ∃ h, i = .cmpl h) ∧ s.fifo.head ≠ s.fifo.tail

/-- R44, column "cleared by". INIT and START run FXRESET and SCLR; STOP runs FXDISABLE and DSTOP. -/
def clearedBy (f : Flag) (i : Instr) (s : State) : Prop :=
  match f with
  | .en => i = .fxdisable ∨ i = .fxreset ∨ i = .stop
  | .ssf => i = .dmabeat ∨ i = .sclr ∨ i = .fxreset ∨ i = .init ∨ i = .start
  | .sef => i = .sclr ∨ i = .fxreset ∨ i = .init ∨ i = .start
  | .ssde => i = .fxdisable ∨ i = .fxreset ∨ i = .init ∨ i = .start ∨ i = .stop
  | .erq => i = .dstop ∨ i = .stop
  | .ovr => (((∃ t nb cap, i = .consume t nb cap) ∨ ∃ t, i = .wake t) ∧ s.fifo.head = s.fifo.tail) ∨ i = .start ∨
      (i = .fiforst ∧ s.params.resetClearsOverrun = true)

/-- The instructions that store to memory: a beat (R184) and a decode (R214), which CMPL runs too (R242). -/
def stores : Instr → Prop
  | .dmabeat => True
  | .decode _ => True
  | .cmpl _ => True
  | _ => False

end Sys2Proof.Claims

open Sys2Proof.Claims

/-! ### Encoding -/

/-- R111: the worked encodings, in both directions. -/
def Obligations.WorkedEncodings : Prop :=
  encode .fxreset = [0x01000000] ∧ decode [0x01000000] = .ok (.fxreset, []) ∧
  encode (.settima 0x1F03) = [0x03001F03] ∧ decode [0x03001F03] = .ok (.settima 0x1F03, []) ∧
  encode (.decode 1) = [0x31000001] ∧ decode [0x31000001] = .ok (.decode 1, []) ∧
  encode (.consume 5 false 192) = [0x410A00C0] ∧ decode [0x410A00C0] = .ok (.consume 5 false 192, []) ∧
  encode (.consume 5 true 192) = [0x410B00C0] ∧ decode [0x410B00C0] = .ok (.consume 5 true 192, []) ∧
  encode (.cmpl 0) = [0x83000000] ∧ decode [0x83000000] = .ok (.cmpl 0, []) ∧
  encode (.wake 5) = [0x850A0000] ∧ decode [0x850A0000] = .ok (.wake 5, [])

/-- R100 to R104: decoding the words of any instruction, whatever follows them, gives it back. -/
def Obligations.DecodeEncodeAgree : Prop :=
  ∀ (i : Instr) (rest : List Word), decode (encode i ++ rest) = .ok (i, rest)

/-- R100 to R104, R107: what decodes is the words of the instruction it decodes to, so each word has one meaning. -/
def Obligations.EncodeDecodeAgree : Prop :=
  ∀ (ws : List Word) (i : Instr) (rest : List Word), decode ws = .ok (i, rest) → encode i ++ rest = ws

/-- R104, R107: the command port takes exactly the words of the host-command table with their reserved bits 0. -/
def Obligations.PortTakesHostWords : Prop :=
  ∀ w : Word, (∃ i, decodePort w = .ok i) ↔ acceptedWord w

/-! ### The step -/

/-- The next turn's instruction is what the step runs, with the turn taken off the schedule; with no turn left the state
stays (R83, R130; the schedule is the model's own, log 1). -/
def Obligations.StepRunsTurn : Prop :=
  ∀ s : State, launchRefusal s.params = none → s.fault = none →
    (∀ w rest i, s.sched = .command w :: rest → decodePort w = .ok i → step s = exec i { s with sched := rest }) ∧
    (∀ w v rest i, s.sched = .event w v :: rest → decodeEvent w v = .ok i → step s = exec i { s with sched := rest }) ∧
    (s.sched = [] → step s = .next s)

/-- The word of any well-formed instruction, presented on its channel, is run by the step (R104, R130). -/
def Obligations.EncodedInstructionRuns : Prop :=
  ∀ (s : State) (i : Instr) (rest : List Turn), launchRefusal s.params = none → s.fault = none →
    (i.wellFormed .port = true → s.sched = .command i.word :: rest → step s = exec i { s with sched := rest }) ∧
    (i.wellFormed .agent = true → s.sched = .event i.word (i.payload.headD 0) :: rest →
      step s = exec i { s with sched := rest })

/-- R107: a word that the port does not take faults ILLEGAL_COMMAND with the word as its info. Nothing else changes
(R130, R291) but that the turn is taken off the schedule, which is the model's own (log 1). -/
def Obligations.RejectedWordFaults : Prop :=
  ∀ (s : State) (w : Word) (rest : List Turn), launchRefusal s.params = none → s.fault = none →
    s.sched = .command w :: rest → ¬ acceptedWord w →
    step s = .next { s with sched := rest, fault := some (.illegalCommand w) }

/-- R292: from a state with a fault no instruction and no step goes on, and the state is not the end of a run, whether its
turns to come stand in the state or beside it in an endless run. -/
def Obligations.FaultIsTerminal : Prop :=
  ∀ (s : State) (r : FaultRecord), s.fault = some r →
    (∀ i, exec i s = .fault (.halted r)) ∧ (launchRefusal s.params = none → step s = .fault (.halted r)) ∧ ¬ isRunEnd s ∧
      ∀ (run : Run) (n : Nat), run.state n = s → ¬ run.endsAt n

/-- R7, R81: a setting that violates R7 is refused, and so is CACHE_POLICY = WRITE_BACK. -/
def Obligations.BadSettingRefused : Prop :=
  (∀ s : State,
    ¬ (256 % s.params.frameWords = 0 ∧
        (∀ o ∈ s.params.sampleOffsets, o + 24 ≤ 32 * s.params.frameWords) ∧
        s.params.sampleOffsets.length = 3 ∧
        256 / s.params.frameWords * 3 ≤ 256 ∧
        s.params.rawBufBase.toNat % 32 = 0 ∧ s.params.shiftBufBisAddr.toNat % 4 = 0 ∧
        (s.params.rawBufBase.toNat + 2047 < s.params.shiftBufBisAddr.toNat ∨
          s.params.shiftBufBisAddr.toNat + 3 < s.params.rawBufBase.toNat) ∧
        s.params.rawBufBase.toNat + 2047 < 2 ^ 32) →
      step s = .refused .inadmissibleSetting) ∧
  (∀ s : State, s.params.cachePolicy = .writeBack → ∃ r, step s = .refused r)

/-! ### Reset -/

/-- R45: the reset values, under every setting. RAW is `any`: each byte is the free value of its address (log 7). -/
def Obligations.ResetValues : Prop :=
  ∀ p : Params,
    let s := State.resetWith p
    s.params = p ∧ s.fx.en = false ∧
    s.fx.shcfg = ⟨.disabled, .pin, 0, .outputDisabled, .none, .none, .timerA⟩ ∧
    s.fx.shstat = ⟨false, false, false⟩ ∧ s.fx.shbuf = 0 ∧
    s.fx.tima = ⟨.disabled, .freeRunning, 0⟩ ∧ s.fx.timb = ⟨.disabled, .onTimAEnable, .timAOutput, 0⟩ ∧
    s.dma.ch = ⟨false, .none, false, false⟩ ∧
    s.dma.tcd = ⟨0, 0, .w32, .w32, 0, 0, 0, 0, 0, 0, 0, false, false, .none, false⟩ ∧ s.dma.evq = [] ∧
    (∀ a, s.mem.byteAt a = Config.byteAtReset a) ∧
    (∀ k : Fin 2, s.fifo.slot[k] = none) ∧ s.fifo.head = 0 ∧ s.fifo.tail = 0 ∧ s.fifo.ovr = false ∧
    s.fifo.waiters = 0 ∧ s.fifo.sem = 0 ∧ s.fifo.pollnote = 0 ∧
    (∀ h : Half, s.track.gen[h] = 0 ∧ s.track.valid[h] = false ∧ s.track.wse[h] = false) ∧
    (∀ t : Tid, s.tsOf t = .idle ∧ s.respOf t = none) ∧ s.fault = none

/-- R332: at reset every HOST command and every CONSUME has a step, no SHIFTWORD, DMABEAT, CMPL or WAKE is enabled, nor a
PRODUCE outside CMPL (R250), no thread is blocked for a SIGINTR, and a CONSUME with room for a batch finds the FIFO empty
with OVR = 0 and returns EAGAIN or blocks. -/
def Obligations.ResetEnablesCommandsOnly : Prop :=
  ∀ p : Params,
    let s := State.resetWith p
    (∀ i : Instr, i.channel = .port → ∃ t, exec i s = .next t) ∧
    shiftEnabled s = false ∧ beatEnabled s = false ∧ (∀ h, cmplEnabled h s = false ∧ produceEnabled h s = false) ∧
    (∀ t, wakeEnabled t s = false ∧ sigintrEnabled t s = false) ∧ s.fifo.isEmpty = true ∧ s.fifo.ovr = false ∧
    (∀ t cap, batchBytes p ≤ cap.toNat →
      exec (.consume t true cap) s = .next (s.withResp t (.err .eagain)) ∧
      exec (.consume t false cap) s =
        .next ({ s with fifo := { s.fifo with waiters := 1 } }.withTs t (.blocked cap.toNat)))

/-! ### Peripheral commands -/

/-- R131. -/
def Obligations.FxresetRestoresRecords : Prop :=
  needsHandle .fxreset 0x01000000 ∧
  ∀ s : State, s.fault = none → s.params.handlePresent = true →
    exec .fxreset s = .next (done { s with fx :=
      { en := false
        shcfg := ⟨.disabled, .pin, 0, .outputDisabled, .none, .none, .timerA⟩
        shstat := ⟨false, false, false⟩
        shbuf := 0
        tima := ⟨.disabled, .freeRunning, 0⟩
        timb := ⟨.disabled, .onTimAEnable, .timAOutput, 0⟩ } })

/-- R132. -/
def Obligations.SetshiftConfiguresShifter : Prop :=
  needsHandle .setshift 0x02000000 ∧
  ∀ s : State, s.fault = none → s.params.handlePresent = true →
    (s.fx.en = true → exec .setshift s = .next (faulted s (.configInvalid 0x02000000))) ∧
    (s.fx.en = false → exec .setshift s = .next (done { s with fx :=
      { s.fx with shcfg := ⟨.receive, .pin, s.params.rxPin, .outputDisabled, .none, .none, .timerA⟩ } }))

/-- R133: every VAL is accepted; CMP[15:8] + 1 is the half-period. -/
def Obligations.SettimaConfiguresTimerA : Prop :=
  (∀ val, needsHandle (.settima val) (mkWord 0x03 val.toNat)) ∧
  (∀ (s : State) (val : BitVec 16), s.fault = none → s.params.handlePresent = true →
    (s.fx.en = true → exec (.settima val) s = .next (faulted s (.configInvalid (mkWord 0x03 val.toNat)))) ∧
    (s.fx.en = false → exec (.settima val) s = .next (done { s with fx :=
      { s.fx with tima := ⟨.dual8Baud, .freeRunning, val⟩ } }))) ∧
  (halfPeriod 0x1F03 = 32 ∧ extraDivide 0x1F03 = 3 ∧
    ∀ val : BitVec 16, halfPeriod val = (val.extractLsb' 8 8).toNat + 1 ∧ halfPeriod val ≤ 256)

/-- R134: every VAL is accepted. -/
def Obligations.SettimbConfiguresTimerB : Prop :=
  (∀ val, needsHandle (.settimb val) (mkWord 0x04 val.toNat)) ∧
  ∀ (s : State) (val : BitVec 16), s.fault = none → s.params.handlePresent = true →
    (s.fx.en = true → exec (.settimb val) s = .next (faulted s (.configInvalid (mkWord 0x04 val.toNat)))) ∧
    (s.fx.en = false → exec (.settimb val) s = .next (done { s with fx :=
      { s.fx with timb := ⟨.single16, .onTimAEnable, .timAOutput, val⟩ } }))

/-- R135. -/
def Obligations.SdmaenEnablesRequests : Prop :=
  needsHandle .sdmaen 0x05000000 ∧
  ∀ s : State, s.fault = none → s.params.handlePresent = true →
    exec .sdmaen s = .next (done { s with fx := { s.fx with shstat := { s.fx.shstat with ssde := true } } })

/-- R136: SHBUF keeps its value. -/
def Obligations.SclrClearsStatus : Prop :=
  needsHandle .sclr 0x06000000 ∧
  ∀ s : State, s.fault = none → s.params.handlePresent = true →
    exec .sclr s = .next (done { s with fx :=
      { s.fx with shstat := { s.fx.shstat with ssf := false, sef := false } } })

/-- R137. -/
def Obligations.FxenableNeedsConfiguration : Prop :=
  needsHandle .fxenable 0x07000000 ∧
  ∀ s : State, s.fault = none → s.params.handlePresent = true →
    (s.fx.shcfg.mode = .receive ∧ s.fx.tima.mode = .dual8Baud ∧ s.fx.timb.mode = .single16 →
      exec .fxenable s = .next (done { s with fx := { s.fx with en := true } })) ∧
    (¬ (s.fx.shcfg.mode = .receive ∧ s.fx.tima.mode = .dual8Baud ∧ s.fx.timb.mode = .single16) →
      exec .fxenable s = .next (faulted s (.configInvalid 0x07000000)))

/-- R138: SSF, SHBUF and the configuration records keep their values. -/
def Obligations.FxdisableStopsPeripheral : Prop :=
  needsHandle .fxdisable 0x09000000 ∧
  ∀ s : State, s.fault = none → s.params.handlePresent = true →
    exec .fxdisable s = .next (done { s with fx :=
      { s.fx with en := false, shstat := { s.fx.shstat with ssde := false } } })

/-- R139: no state other than RESP[0] changes. -/
def Obligations.GetbufReturnsAddress : Prop :=
  needsHandle .getbuf 0x08000000 ∧
  ∀ s : State, s.fault = none → s.params.handlePresent = true →
    exec .getbuf s = .next (s.withResp 0 (.addr s.params.shiftBufBisAddr))

/-! ### DMA commands -/

/-- R140: with a channel allocated nothing changes and no draw is made; else the draw decides. -/
def Obligations.DallocFollowsDraw : Prop :=
  encode .dalloc = [0x10000000] ∧
  ∀ s : State, s.fault = none →
    (s.dma.ch.alloc = true → exec .dalloc s = .next (done s)) ∧
    (s.dma.ch.alloc = false → ∀ ok, allocDraw s = ok →
      exec .dalloc s = .next (if ok = true then done (allocated (afterAllocDraw s))
        else faulted (afterAllocDraw s) (.fatalDmaAlloc s.params.dmaChannel)))

/-- R141, R31. -/
def Obligations.DsetupProgramsTransfer : Prop :=
  encode .dsetup = [0x11000000] ∧
  ∀ s : State, s.fault = none →
    (s.dma.ch.alloc = false ∨ s.dma.ch.erq = true ∨ s.params.rawBufBase.toNat % 4 ≠ 0 ∨
        s.params.shiftBufBisAddr.toNat % 4 ≠ 0 →
      exec .dsetup s = .next (faulted s (.configInvalid 0x11000000))) ∧
    (s.dma.ch.alloc = true → s.dma.ch.erq = false → s.params.rawBufBase.toNat % 4 = 0 →
        s.params.shiftBufBisAddr.toNat % 4 = 0 →
      exec .dsetup s = .next (done { s with dma :=
        { s.dma with tcd := setupTcd s.params, ch := { s.dma.ch with tcdv := true } } }))

/-- R142. -/
def Obligations.DstartNeedsTransfer : Prop :=
  encode .dstart = [0x12000000] ∧
  ∀ s : State, s.fault = none →
    (s.dma.ch.tcdv = false → exec .dstart s = .next (faulted s (.configInvalid 0x12000000))) ∧
    (s.dma.ch.tcdv = true →
      exec .dstart s = .next (done { s with dma := { s.dma with ch := { s.dma.ch with erq := true } } }))

/-- R143: pending events are dropped and the TCD keeps its position. -/
def Obligations.DstopDropsEvents : Prop :=
  encode .dstop = [0x13000000] ∧
  ∀ s : State, s.fault = none →
    exec .dstop s = .next (done { s with dma := { s.dma with ch := { s.dma.ch with erq := false }, evq := [] } })

/-- R144. -/
def Obligations.DfreeNeedsStoppedChannel : Prop :=
  encode .dfree = [0x14000000] ∧
  ∀ s : State, s.fault = none →
    (s.dma.ch.erq = true → exec .dfree s = .next (faulted s (.configInvalid 0x14000000))) ∧
    (s.dma.ch.erq = false → exec .dfree s = .next (done { s with dma :=
      { s.dma with ch := { s.dma.ch with alloc := false, reqsrc := .none, tcdv := false } } }))

/-- R145, R82: no state changes but the result. -/
def Obligations.CinvChangesNoValue : Prop :=
  encode .cinv = [0x18000000] ∧
  ∀ s : State, s.fault = none → exec .cinv s = .next (done s)

/-! ### Composite commands -/

/-- R146: REINIT_ACTIVE, then the handle, then the sequence: with a channel granted the block runs; with the allocation
refused the writes of FXRESET to SETTIMB stay and FATAL_DMA_ALLOC is recorded. The draw is a free value (log 8). That
RESP[0] is then as before, since the sub-commands deliver no result of their own, is the model's choice (log 11). -/
def Obligations.InitBringsUpBlock : Prop :=
  encode .init = [0x20000000] ∧
  ∀ s : State, s.fault = none →
    (s.fx.en = true ∨ s.dma.ch.erq = true → exec .init s = .next (faulted s (.reinitActive 0x20000000))) ∧
    (s.fx.en = false → s.dma.ch.erq = false → s.params.handlePresent = false →
      exec .init s = .next (faulted s (.fatalNoHandle 0))) ∧
    (s.fx.en = false → s.dma.ch.erq = false → s.params.handlePresent = true → s.params.rawBufBase.toNat % 4 = 0 →
        s.params.shiftBufBisAddr.toNat % 4 = 0 →
      (s.dma.ch.alloc = true → exec .init s = .next (done (initDone s))) ∧
      (s.dma.ch.alloc = false → allocDraw s = true →
        exec .init s = .next (done (initDone (allocated (afterAllocDraw s))))) ∧
      (s.dma.ch.alloc = false → allocDraw s = false →
        exec .init s = .next (faulted { afterAllocDraw s with fx := configuredFx s.params }
          (.fatalDmaAlloc s.params.dmaChannel))))

/-- R334: the primitive commands issued one by one in INIT's order leave the state INIT leaves. -/
def Obligations.PrimitiveBringUpEqualsInit : Prop :=
  ∀ s : State, s.fault = none → s.fx.en = false → s.dma.ch.erq = false → s.params.handlePresent = true →
    admissible s.params = true → (s.dma.ch.alloc = true ∨ allocDraw s = true) →
    execAll [.fxreset, .setshift, .settima s.params.timaCmp, .settimb s.params.timbCmp, .dalloc, .cinv, .getbuf, .dsetup,
      .dstart, .sdmaen, .sclr, .fxenable] s = exec .init s

/-- R148, R336: START is INIT with HEAD, TAIL and OVR cleared; the slots, WAITERS, SEM and the threads are not touched.
With INIT's faults it stops as INIT does. -/
def Obligations.StartClearsFifo : Prop :=
  encode .start = [0x21000000] ∧
  ∀ s : State, s.fault = none →
    (s.fx.en = true ∨ s.dma.ch.erq = true ∨ s.params.handlePresent = false ∨
        (s.dma.ch.alloc = false ∧ allocDraw s = false) →
      exec .start s = exec .init s) ∧
    (s.fx.en = false → s.dma.ch.erq = false → s.params.handlePresent = true → admissible s.params = true →
      (s.dma.ch.alloc = true → exec .start s = .next (done { initDone s with fifo :=
        { s.fifo with head := 0, tail := 0, ovr := false } })) ∧
      (s.dma.ch.alloc = false → allocDraw s = true →
        exec .start s = .next (done { initDone (allocated (afterAllocDraw s)) with fifo :=
          { s.fifo with head := 0, tail := 0, ovr := false } })))

/-- R149: FXDISABLE, DSTOP, DFREE; without a handle, FATAL_NO_HANDLE and nothing else. -/
def Obligations.StopTearsDown : Prop :=
  encode .stop = [0x22000000] ∧
  ∀ s : State, s.fault = none →
    (s.params.handlePresent = false → ∃ w, exec .stop s = .next (faulted s (.fatalNoHandle w))) ∧
    (s.params.handlePresent = true → exec .stop s = .next (done { s with
      fx := { s.fx with en := false, shstat := { s.fx.shstat with ssde := false } }
      dma := { s.dma with ch := ⟨false, .none, false, false⟩, evq := [] } }))

/-! ### The decoder -/

/-- R10 and the bitrev32 of R9: the two primitives, bit by bit. -/
def Obligations.PrimitivesBitByBit : Prop :=
  (∀ (w : Word) (i : Nat), i < 32 → (bitrev32 w).getLsbD i = w.getLsbD (31 - i)) ∧
  (∀ (v : Word) (i : Nat), v.toNat < 2 ^ 24 → i < 32 →
    (sext24 v).getLsbD i = if i < 24 then v.getLsbD i else v.getLsbD 23)

/-- R212: the field in word operations is the 24 stream bits from `p` on, the first the most significant. -/
def Obligations.FieldIsStreamBits : Prop :=
  ∀ (words : Nat → Word) (p : Nat),
    (∀ i, i < 24 → (sampleField words p).getLsbD (23 - i) = (words ((p + i) / 32)).getLsbD (31 - (p + i) % 32)) ∧
    (sampleField words p).toNat < 2 ^ 24

/-- R213: the samples of a frame in the reference geometry, as slices of its first three words. -/
def Obligations.ReferenceFrameSlices : Prop :=
  ∀ (p : Params) (words : Nat → Word) (f : Nat), p.frameWords = 16 → p.sampleOffsets = [0, 24, 48] →
    frameSamples p words f =
      [sext24 (((words (16 * f)).extractLsb' 8 24).setWidth 32),
       sext24 (((words (16 * f)).extractLsb' 0 8 ++ (words (16 * f + 1)).extractLsb' 16 16).setWidth 32),
       sext24 (((words (16 * f + 1)).extractLsb' 0 16 ++ (words (16 * f + 2)).extractLsb' 24 8).setWidth 32)]

/-- R214, R215: DECODE as a command. The words after the output are not stated: they are `any`. -/
def Obligations.DecodeWritesBatch : Prop :=
  ∀ (s : State) (h : Half), s.fault = none →
    (s.dma.ch.erq = true → exec (.decode h) s = .next (faulted s (.configInvalid (mkWord 0x31 h.val)))) ∧
    (s.dma.ch.erq = false → admissible s.params = true →
      ∃ t, exec (.decode h) s = .next t ∧ holdsDecode s t h ∧ sameOutsideHalf s t h ∧
        t.track = trackDecoded s.track h ∧ t.params = s.params ∧ t.fx = s.fx ∧ t.dma = s.dma ∧ t.fifo = s.fifo ∧
        t.readers = (done s).readers ∧ t.fault = none ∧ t.sched = s.sched)

/-- R216 (c): the decoded batch depends on no bit outside the sample fields. -/
def Obligations.OtherBitsDoNotMatter : Prop :=
  ∀ (s s' t t' : State) (h : Half), s.params = s'.params → admissible s.params = true →
    (∀ f c i, f < 256 / s.params.frameWords → c < 3 → i < 24 →
      let k := 32 * s.params.frameWords * f + s.params.sampleOffsets.getD c 0 + i
      (s.raw (256 * h.val + k / 32)).getLsbD (31 - k % 32) = (s'.raw (256 * h.val + k / 32)).getLsbD (31 - k % 32)) →
    s.dma.ch.erq = false → s'.dma.ch.erq = false →
    exec (.decode h) s = .next t → exec (.decode h) s' = .next t' →
    ∀ j, j < 256 / s.params.frameWords * 3 → t.raw (256 * h.val + j) = t'.raw (256 * h.val + j)

/-! ### Capture -/

/-- R181: the word arrives, or overruns the unread one and faults with SEF and SHBUF written. -/
def Obligations.ShiftwordDeliversWord : Prop :=
  ∀ (s : State) (v : Word), s.fault = none → s.fx.en = true → s.fx.shcfg.mode = .receive →
    (s.fx.shstat.ssf = false → exec (.shiftword v) s = .next { s with fx :=
      { s.fx with shbuf := bitrev32 v, shstat := { s.fx.shstat with ssf := true } } }) ∧
    (s.fx.shstat.ssf = true → exec (.shiftword v) s = .next { s with
      fx := { s.fx with shbuf := bitrev32 v, shstat := { s.fx.shstat with sef := true } }
      fault := some (.shifterOverrun v) })

/-- R183 to R185: the beat moves the bit-swapped word to RAW[512 − CITER], clears SSF, marks the half written, and moves
on, wrapping after RAW[511]; nothing else of the buffer, the FIFO or the threads changes. -/
def Obligations.DmabeatMovesWord : Prop :=
  ∀ s : State, beatReady s →
    ∃ t, exec .dmabeat s = .next t ∧
      t.raw (beatIndex s) = bitrev32 s.fx.shbuf ∧
      (∀ j, j < 512 → j ≠ beatIndex s → t.raw j = s.raw j) ∧
      t.fx = { s.fx with shstat := { s.fx.shstat with ssf := false } } ∧
      t.dma.ch = s.dma.ch ∧
      t.dma.tcd = { s.dma.tcd with
        daddr := if s.dma.tcd.citer = 1 then s.params.rawBufBase else s.dma.tcd.daddr + 4
        citer := if s.dma.tcd.citer = 1 then 512 else s.dma.tcd.citer - 1 } ∧
      t.track.gen = s.track.gen ∧ t.track.valid = s.track.valid.set (beatHalf s) false ∧
      t.params = s.params ∧ t.fifo = s.fifo ∧ t.readers = s.readers ∧ t.sched = s.sched

/-- R186: the halfway event after RAW[255] (CITER 257 before the beat), the major event after RAW[511] (CITER 1), none
otherwise; a second event of a pending kind is COMPLETION_OVERRUN. -/
def Obligations.DmabeatRaisesEvents : Prop :=
  ∀ s : State, beatReady s →
    ∃ t, exec .dmabeat s = .next t ∧
      (∀ hc : Half, s.dma.tcd.citer = (if hc = 0 then 257 else 1) →
        t.track.wse = s.track.wse.set hc false ∧
        (hc ∈ s.dma.evq → t.dma.evq = s.dma.evq ∧ t.fault = some (.completionOverrun hc)) ∧
        (hc ∉ s.dma.evq → t.dma.evq = s.dma.evq ++ [hc] ∧ t.fault = none)) ∧
      (s.dma.tcd.citer ≠ 257 → s.dma.tcd.citer ≠ 1 →
        t.track.wse = s.track.wse.set (beatHalf s) true ∧ t.dma.evq = s.dma.evq ∧ t.fault = none)

/-- R188, R191: from the start of a major loop, SHIFTWORD and DMABEAT in turn write the words in their order, one raw word
each, and raise the halfway and the major event after words 256 and 512. -/
def Obligations.CaptureWritesWordsInOrder : Prop :=
  ∀ (s : State) (ws : List Word), beatReady { s with fx := { s.fx with shstat := { s.fx.shstat with ssf := true } } } →
    s.fx.shstat.ssf = false → s.fx.en = true → s.fx.shcfg.mode = .receive → s.dma.tcd.citer = 512 → s.dma.evq = [] →
    ws.length ≤ 512 →
    ∃ t, execAll (ws.flatMap fun v => [.shiftword v, .dmabeat]) s = .next t ∧ t.fault = none ∧
      (∀ k, k < ws.length → t.raw k = ws.getD k 0) ∧ (∀ k, ws.length ≤ k → k < 512 → t.raw k = s.raw k) ∧
      t.dma.evq = (if 256 ≤ ws.length then [0] else []) ++ (if 512 ≤ ws.length then [1] else [])

/-- A turn offered to an agent whose step is not enabled (R180, R187, R240, R250, R270, R274) leaves the state as it is: the
model's choice (log 2), as are the match of CMPL's operand with the pending event (log 3) and the field that says that a
CMPL is handing a half off (log 4). -/
def Obligations.DisabledTurnChangesNothing : Prop :=
  ∀ s : State, s.fault = none →
    (¬ (s.fx.en = true ∧ s.fx.shcfg.mode = .receive) → ∀ v, exec (.shiftword v) s = .next s) ∧
    (¬ (s.dma.ch.alloc = true ∧ s.dma.ch.tcdv = true ∧ s.dma.ch.erq = true ∧ s.dma.ch.reqsrc = .shifter ∧
        s.fx.shstat.ssf = true ∧ s.fx.shstat.ssde = true) → exec .dmabeat s = .next s) ∧
    (∀ hc, s.dma.evq.head? ≠ some hc → exec (.cmpl hc) s = .next s) ∧
    (∀ h, s.handing ≠ some h → exec (.produce h) s = .next s) ∧
    (∀ t, (s.tsOf t = .idle ∨ s.fifo.sem = 0) → exec (.wake t) s = .next s) ∧
    (∀ t, s.tsOf t = .idle → exec (.sigintr t) s = .next s)

/-! ### Steering and the FIFO -/

/-- R241, R242, R243: CMPL pops the event, and decodes and hands off the half it names, or faults DECODE_LATE if a beat
has written that half since. -/
def Obligations.CmplDecodesAndHandsOff : Prop :=
  ∀ (s : State) (hc : Half) (rest : List Half), s.fault = none → s.dma.evq = hc :: rest →
    (s.track.wse[hc] = true → exec (.cmpl hc) s = .next { s with
      dma := { s.dma with evq := rest }
      fault := some (.decodeLate hc) }) ∧
    (s.track.wse[hc] = false → admissible s.params = true →
      ∃ t, exec (.cmpl hc) s = .next t ∧ t.dma = { s.dma with evq := rest } ∧ holdsDecode s t hc ∧
        sameOutsideHalf s t hc ∧ t.track = trackDecoded s.track hc ∧
        t.fifo = (if s.fifo.head = s.fifo.tail then
          { s.fifo with
            slot := s.fifo.slot.set s.fifo.tail (some ⟨hc, s.track.gen[hc] + 1⟩)
            tail := s.fifo.tail + 1
            pollnote := s.fifo.pollnote + 1
            sem := if 0 < s.fifo.waiters then s.fifo.sem + 1 else s.fifo.sem }
          else { s.fifo with ovr := true }) ∧
        t.params = s.params ∧ t.fx = s.fx ∧ t.readers = s.readers ∧ t.fault = none ∧ t.handing = none ∧
        t.sched = s.sched)

/-- R251: `nt` = (TAIL + 1) mod 2; full if it is HEAD. A PRODUCE runs inside CMPL, while the handler hands `h` off (R250),
and the generation is GEN[h] (R242). The field that says so, and its clearing at the end, are the model's own (log 4). -/
def Obligations.ProduceStoresOrDrops : Prop :=
  ∀ (s : State) (h : Half), s.fault = none → s.handing = some h →
    (s.fifo.tail + 1 = s.fifo.head →
      exec (.produce h) s = .next { s with handing := none, fifo := { s.fifo with ovr := true } }) ∧
    (s.fifo.tail + 1 ≠ s.fifo.head → exec (.produce h) s = .next { s with
      handing := none
      fifo := { s.fifo with
        slot := s.fifo.slot.set s.fifo.tail (some ⟨h, s.track.gen[h]⟩)
        tail := s.fifo.tail + 1
        pollnote := s.fifo.pollnote + 1
        sem := if 0 < s.fifo.waiters then s.fifo.sem + 1 else s.fifo.sem } })

/-- R252 and the capacity property of the source (spec/95_test_vectors.md V-SRC-2, property 2): of batches produced with
no read between them, the first is kept and every later one is dropped with the overrun flag set. Each PRODUCE runs while
the handler hands its half off, with generation GEN[h] (R242, R250; log 4). -/
def Obligations.FifoKeepsFirstBatch : Prop :=
  ∀ (s : State) (h : Half) (hs : List Half), s.fault = none → s.fifo.head = s.fifo.tail →
    ∃ t u, handOffs [h] s = .next t ∧ handOffs hs t = .next u ∧
      t.fifo.slot[s.fifo.tail] = some ⟨h, s.track.gen[h]⟩ ∧ t.fifo.ovr = s.fifo.ovr ∧
      u = { t with fifo := { t.fifo with ovr := if hs = [] then s.fifo.ovr else true } }

/-! ### The read port -/

/-- R255: a CONSUME by a thread that is not IDLE is CONFIG_INVALID, with the word. -/
def Obligations.ConsumeByBlockedThreadFaults : Prop :=
  ∀ (s : State) (t : Tid) (nb : Bool) (cap : BitVec 16), s.fault = none → s.tsOf t ≠ .idle →
    exec (.consume t nb cap) s = .next (faulted s (.configInvalid (Instr.consume t nb cap).word))

/-- R256: a read smaller than one batch returns no bytes and changes nothing else. -/
def Obligations.SmallReadReturnsNothing : Prop :=
  ∀ (s : State) (t : Tid) (nb : Bool) (cap : BitVec 16), s.fault = none → s.tsOf t = .idle →
    cap.toNat < batchBytes s.params → exec (.consume t nb cap) s = .next (s.withResp t (.ok []))

/-- R257: the empty FIFO: overrun, then would-block, then block, in that order. -/
def Obligations.ReadOfEmptyFifo : Prop :=
  ∀ (s : State) (t : Tid) (nb : Bool) (cap : BitVec 16), s.fault = none → s.tsOf t = .idle →
    batchBytes s.params ≤ cap.toNat → s.fifo.head = s.fifo.tail →
    (s.fifo.ovr = true →
      exec (.consume t nb cap) s = .next ({ s with fifo := { s.fifo with ovr := false } }.withResp t (.err .eio))) ∧
    (s.fifo.ovr = false → nb = true → exec (.consume t nb cap) s = .next (s.withResp t (.err .eagain))) ∧
    (s.fifo.ovr = false → nb = false → exec (.consume t nb cap) s =
      .next ({ s with fifo := { s.fifo with waiters := s.fifo.waiters + 1 } }.withTs t (.blocked cap.toNat)))

/-- R258, R261, R262: a read that finds an entry delivers its batch, read from the half it refers to, and advances HEAD,
leaving OVR; a stale entry faults STALE_BATCH with no byte delivered and RESP not written. -/
def Obligations.ReadDeliversBatch : Prop :=
  ∀ (s : State) (t : Tid) (nb : Bool) (cap : BitVec 16) (e : Entry), s.fault = none → s.tsOf t = .idle →
    batchBytes s.params ≤ cap.toNat → s.fifo.head ≠ s.fifo.tail → s.fifo.slot[s.fifo.head] = some e →
    (e.g = s.track.gen[e.h] → s.track.valid[e.h] = true →
      exec (.consume t nb cap) s =
        .next ({ s with fifo := { s.fifo with head := s.fifo.head + 1 } }.withResp t
          (.ok ((List.range (batchBytes s.params)).map fun i =>
            s.mem.byteAt (s.params.rawBufBase + BitVec.ofNat 32 (1024 * e.h.val) + BitVec.ofNat 32 i).toNat)))) ∧
    (e.g ≠ s.track.gen[e.h] ∨ s.track.valid[e.h] = false →
      exec (.consume t nb cap) s = .next (faulted s (.staleBatch e.h e.g)))

/-- R260: byte 4j + k of a batch is bits 8k+7 to 8k of its word j. -/
def Obligations.BatchIsLittleEndian : Prop :=
  ∀ (s : State) (e : Entry) (j k : Nat), s.params.byteOrder = .little → admissible s.params = true →
    j < 256 / s.params.frameWords * 3 → k < 4 →
    (batchOf s e)[4 * j + k]? = some ((s.raw (256 * e.h.val + j)).extractLsb' (8 * k) 8)

/-- R263: whatever the step, a result OK(bytes) that it delivers holds no byte or one whole batch. -/
def Obligations.ReadNeverPartial : Prop :=
  ∀ (i : Instr) (s u : State) (t : Tid) (bytes : List Byte), exec i s = .next u → u.respOf t ≠ s.respOf t →
    u.respOf t = some (.ok bytes) → bytes = [] ∨ bytes.length = batchBytes s.params

/-- R270: WAKE takes one unit of the signal and leaves the waiters; then the batch, or STALE_BATCH, or EIO, or the wait
again. -/
def Obligations.WakeEndsOrResumesWait : Prop :=
  ∀ (s : State) (t : Tid) (cap : Nat), s.fault = none → s.tsOf t = .blocked cap → 0 < s.fifo.sem →
    0 < s.fifo.waiters →
    let f : Fifo := { s.fifo with sem := s.fifo.sem - 1, waiters := s.fifo.waiters - 1 }
    (s.fifo.head = s.fifo.tail → s.fifo.ovr = false →
      exec (.wake t) s = .next { s with fifo := { s.fifo with sem := s.fifo.sem - 1 } }) ∧
    (s.fifo.head = s.fifo.tail → s.fifo.ovr = true →
      exec (.wake t) s = .next (({ s with fifo := { f with ovr := false } }.withResp t (.err .eio)).withTs t .idle)) ∧
    (∀ e, s.fifo.head ≠ s.fifo.tail → s.fifo.slot[s.fifo.head] = some e → batchBytes s.params ≤ cap →
      (e.g = s.track.gen[e.h] ∧ s.track.valid[e.h] = true →
        exec (.wake t) s = .next (({ s with fifo := { f with head := s.fifo.head + 1 } }.withResp t
          (.ok (batchOf s e))).withTs t .idle)) ∧
      (¬ (e.g = s.track.gen[e.h] ∧ s.track.valid[e.h] = true) →
        exec (.wake t) s = .next { s with fifo := f, fault := some (.staleBatch e.h e.g) }))

/-- R274: SEM is unchanged. WAITERS counts the blocked thread (R37), so it is not 0. -/
def Obligations.SigintrInterruptsWait : Prop :=
  ∀ (s : State) (t : Tid) (cap : Nat), s.fault = none → s.tsOf t = .blocked cap → 0 < s.fifo.waiters →
    exec (.sigintr t) s =
      .next (({ s with fifo := { s.fifo with waiters := s.fifo.waiters - 1 } }.withResp t (.err .eintr)).withTs t .idle)

/-- R278: HEAD becomes TAIL; OVR is cleared only if RESET_CLEARS_OVERRUN. -/
def Obligations.FiforstEmptiesFifo : Prop :=
  encode .fiforst = [0x42000000] ∧
  ∀ s : State, s.fault = none →
    exec .fiforst s = .next (done { s with fifo := { s.fifo with
      head := s.fifo.tail
      ovr := s.fifo.ovr && !s.params.resetClearsOverrun } })

/-- R279: a non-blocking read right after FIFORST would block, unless an overrun is pending and FIFORST keeps it; then it
reports the overrun. -/
def Obligations.ReadAfterFiforst : Prop :=
  ∀ (s : State) (t : Tid) (cap : BitVec 16), s.fault = none → s.tsOf t = .idle → batchBytes s.params ≤ cap.toNat →
    ∃ u, execAll [.fiforst, .consume t true cap] s = .next u ∧
      u.respOf t = some (.err (if s.fifo.ovr = true ∧ s.params.resetClearsOverrun = false then .eio else .eagain))

/-! ### The whole machine -/

/-- The invariant of the block holds at reset, under every setting. -/
def Obligations.InvAtReset : Prop := ∀ p : Params, Inv (State.resetWith p)

/-- Every step keeps the invariant of the block, from every state that has it. -/
def Obligations.StepKeepsInv : Prop := ∀ s t : State, Inv s → step s = .next t → Inv t

/-- The setting and the turns to come are written by no instruction (R6; log 1). -/
def Obligations.SettingIsConstant : Prop :=
  ∀ (i : Instr) (s t : State), exec i s = .next t → t.params = s.params ∧ t.sched = s.sched

/-- R44: no step sets or clears a status flag except as the table lists. -/
def Obligations.FlagsChangeAsListed : Prop :=
  ∀ (f : Flag) (i : Instr) (s t : State), exec i s = .next t →
    (f.value s = false → f.value t = true → setBy f i s) ∧ (f.value s = true → f.value t = false → clearedBy f i s)

/-- The frame of memory for the instructions that store nothing: every byte is unchanged (R33, R76,
R184, R214). -/
def Obligations.OthersStoreNothing : Prop :=
  ∀ (i : Instr) (s t : State), ¬ stores i → exec i s = .next t → ∀ x, t.mem.byteAt x = s.mem.byteAt x

/-- The frame of memory for those that store: a beat stores 4 bytes at DADDR (R184), DECODE and CMPL the bytes of their
half (R214, R242); every other byte is unchanged. -/
def Obligations.StoresStayInPlace : Prop :=
  ∀ s t : State,
    (exec .dmabeat s = .next t → ∀ x, x < 2 ^ 32 → (∀ k, k < 4 → x ≠ (s.dma.tcd.daddr + BitVec.ofNat 32 k).toNat) →
      t.mem.byteAt x = s.mem.byteAt x) ∧
    (∀ h : Half, admissible s.params = true → exec (.decode h) s = .next t ∨ exec (.cmpl h) s = .next t →
      sameOutsideHalf s t h)

/-- R321, R271: under weak fairness a blocked reader with a signal posted is followed by a WAKE, of it or of another
blocked reader, unless a SIGINTR ends its wait or a fault stops the machine first. The endless run is the model's own
(log 23). -/
def Obligations.SignalledReaderWakes : Prop :=
  ∀ (r : Run) (t : Tid) (n : Nat), r.weaklyFair → (FairStep.wake t).enabled (r.state n) →
    ∃ m, n ≤ m ∧ ((∃ u, r.takes (.wake u) m) ∨ r.presents m (.sigintr t) ∨ (r.state m).fault ≠ none)
end

