-- ==== Sys2Proof/Laws/Encoding.lean ====
section
/-! SUPPORT. The fields of a word built from its opcode and operands (spec/30_encoding.md R100 to R102). -/

namespace Sys2Proof

theorem mkWord_toNat {opc n : Nat} (ho : opc < 256) (hn : n < 2 ^ 24) : (mkWord opc n).toNat = opc * 2 ^ 24 + n := by
  rw [mkWord, BitVec.toNat_ofNat, Nat.mod_eq_of_lt (by omega)]

theorem opcode_mkWord {opc n : Nat} (ho : opc < 256) (hn : n < 2 ^ 24) : opcode (mkWord opc n) = opc := by
  rw [opcode, bits, mkWord_toNat ho hn]
  omega

/-- A field below bit 24 is the field of the operands. -/
theorem bits_mkWord {opc n lo len : Nat} (ho : opc < 256) (hn : n < 2 ^ 24) (h : lo + len ≤ 24) :
    bits (mkWord opc n) lo len = n / 2 ^ lo % 2 ^ len := by
  rw [bits, mkWord_toNat ho hn]
  have e : opc * 2 ^ 24 = 2 ^ lo * (2 ^ len * (opc * 2 ^ (24 - lo - len))) := by
    have : (2 : Nat) ^ 24 = 2 ^ lo * (2 ^ len * 2 ^ (24 - lo - len)) := by
      rw [← Nat.pow_add, ← Nat.pow_add]
      congr 1
      omega
    rw [this]
    ac_rfl
  rw [e, Nat.mul_add_div (by positivity), Nat.mul_add_mod]

theorem isEventCode_mkWord {opc n : Nat} (ho : opc < 256) (hn : n < 2 ^ 24) :
    isEventCode (mkWord opc n) = (decide (0x80 ≤ opc) && decide (opc ≤ 0x86)) := by
  rw [isEventCode, opcode_mkWord ho hn]

/-- The operands of a CONSUME fit bits 23:0. -/
theorem consume_operands_lt (tid : Tid) (nb : Bool) (cap : BitVec 16) :
    tid.val * 2 ^ 17 + nb.toNat * 2 ^ 16 + cap.toNat < 2 ^ 24 := by
  have h1 := tid.isLt
  have h2 := cap.isLt
  have h3 := Bool.toNat_le nb
  omega

/-! Reading back the word that each format builds. -/

theorem formatN_mkWord {opc : Nat} {i : Instr} (ho : opc < 256) : formatN (mkWord opc 0) i = .ok i := by
  simp [formatN, bits_mkWord ho]

theorem formatH_mkWord {opc : Nat} {mk : Half → Instr} {h : Half} (ho : opc < 256) :
    formatH (mkWord opc h.val) mk = .ok (mk h) := by
  have := h.isLt
  rw [formatH, bits_mkWord ho (by omega) (by omega), bits_mkWord ho (by omega) (by omega), if_pos (by omega)]
  congr 2
  apply Fin.ext
  simp only [Fin.ofNat]
  omega

theorem formatC_mkWord {opc : Nat} {mk : BitVec 16 → Instr} {val : BitVec 16} (ho : opc < 256) :
    formatC (mkWord opc val.toNat) mk = .ok (mk val) := by
  have := val.isLt
  rw [formatC, bits_mkWord ho (by omega) (by omega), bits_mkWord ho (by omega) (by omega), if_pos (by omega)]
  congr 2
  apply BitVec.eq_of_toNat_eq
  rw [BitVec.toNat_ofNat]
  omega

theorem formatT_mkWord {opc : Nat} {mk : Tid → Instr} {tid : Tid} (ho : opc < 256) :
    formatT (mkWord opc (tid.val * 2 ^ 17)) mk = .ok (mk tid) := by
  have := tid.isLt
  rw [formatT, bits_mkWord ho (by omega) (by omega), bits_mkWord ho (by omega) (by omega), if_pos (by omega)]
  congr 2
  apply Fin.ext
  simp only [Fin.ofNat]
  omega

theorem formatQ_mkWord {opc : Nat} {mk : Tid → Bool → BitVec 16 → Instr} {tid : Tid} {nb : Bool} {cap : BitVec 16}
    (ho : opc < 256) :
    formatQ (mkWord opc (tid.val * 2 ^ 17 + nb.toNat * 2 ^ 16 + cap.toNat)) mk = .ok (mk tid nb cap) := by
  have h1 := tid.isLt
  have h2 := cap.isLt
  have h3 := Bool.toNat_le nb
  have h4 := consume_operands_lt tid nb cap
  rw [formatQ, bits_mkWord ho h4 (by omega), bits_mkWord ho h4 (by omega), bits_mkWord ho h4 (by omega)]
  congr 2
  · apply Fin.ext
    simp only [Fin.ofNat]
    omega
  · cases nb <;> simp only [Bool.toNat_true, Bool.toNat_false, decide_eq_true_eq, decide_eq_false_iff_not] at * <;> omega
  · apply BitVec.eq_of_toNat_eq
    rw [BitVec.toNat_ofNat]
    omega

end Sys2Proof
end

