-- ==== Sys2Proof/Laws/State.lean ====
section
/-! SUPPORT. What each update leaves in each field of the state: one lemma per field per update, all by `rfl`. -/

namespace Sys2Proof.Machine

section
variable (s : State) (x : Peripheral)

@[simp] theorem State.withFx_params : (s.withFx x).params = s.params := rfl
@[simp] theorem State.withFx_fx : (s.withFx x).fx = x := rfl
@[simp] theorem State.withFx_dma : (s.withFx x).dma = s.dma := rfl
@[simp] theorem State.withFx_mem : (s.withFx x).mem = s.mem := rfl
@[simp] theorem State.withFx_fifo : (s.withFx x).fifo = s.fifo := rfl
@[simp] theorem State.withFx_track : (s.withFx x).track = s.track := rfl
@[simp] theorem State.withFx_readers : (s.withFx x).readers = s.readers := rfl
@[simp] theorem State.withFx_fault : (s.withFx x).fault = s.fault := rfl
@[simp] theorem State.withFx_draws : (s.withFx x).draws = s.draws := rfl
@[simp] theorem State.withFx_allocAnswers : (s.withFx x).allocAnswers = s.allocAnswers := rfl
@[simp] theorem State.withFx_handing : (s.withFx x).handing = s.handing := rfl
@[simp] theorem State.withFx_sched : (s.withFx x).sched = s.sched := rfl

end

section
variable (s : State) (d : Dma)

@[simp] theorem State.withDma_params : (s.withDma d).params = s.params := rfl
@[simp] theorem State.withDma_fx : (s.withDma d).fx = s.fx := rfl
@[simp] theorem State.withDma_dma : (s.withDma d).dma = d := rfl
@[simp] theorem State.withDma_mem : (s.withDma d).mem = s.mem := rfl
@[simp] theorem State.withDma_fifo : (s.withDma d).fifo = s.fifo := rfl
@[simp] theorem State.withDma_track : (s.withDma d).track = s.track := rfl
@[simp] theorem State.withDma_readers : (s.withDma d).readers = s.readers := rfl
@[simp] theorem State.withDma_fault : (s.withDma d).fault = s.fault := rfl
@[simp] theorem State.withDma_draws : (s.withDma d).draws = s.draws := rfl
@[simp] theorem State.withDma_allocAnswers : (s.withDma d).allocAnswers = s.allocAnswers := rfl
@[simp] theorem State.withDma_handing : (s.withDma d).handing = s.handing := rfl
@[simp] theorem State.withDma_sched : (s.withDma d).sched = s.sched := rfl

end

section
variable (s : State) (m : Memory)

@[simp] theorem State.withMem_params : (s.withMem m).params = s.params := rfl
@[simp] theorem State.withMem_fx : (s.withMem m).fx = s.fx := rfl
@[simp] theorem State.withMem_dma : (s.withMem m).dma = s.dma := rfl
@[simp] theorem State.withMem_mem : (s.withMem m).mem = m := rfl
@[simp] theorem State.withMem_fifo : (s.withMem m).fifo = s.fifo := rfl
@[simp] theorem State.withMem_track : (s.withMem m).track = s.track := rfl
@[simp] theorem State.withMem_readers : (s.withMem m).readers = s.readers := rfl
@[simp] theorem State.withMem_fault : (s.withMem m).fault = s.fault := rfl
@[simp] theorem State.withMem_draws : (s.withMem m).draws = s.draws := rfl
@[simp] theorem State.withMem_allocAnswers : (s.withMem m).allocAnswers = s.allocAnswers := rfl
@[simp] theorem State.withMem_handing : (s.withMem m).handing = s.handing := rfl
@[simp] theorem State.withMem_sched : (s.withMem m).sched = s.sched := rfl

end

section
variable (s : State) (f : Fifo)

@[simp] theorem State.withFifo_params : (s.withFifo f).params = s.params := rfl
@[simp] theorem State.withFifo_fx : (s.withFifo f).fx = s.fx := rfl
@[simp] theorem State.withFifo_dma : (s.withFifo f).dma = s.dma := rfl
@[simp] theorem State.withFifo_mem : (s.withFifo f).mem = s.mem := rfl
@[simp] theorem State.withFifo_fifo : (s.withFifo f).fifo = f := rfl
@[simp] theorem State.withFifo_track : (s.withFifo f).track = s.track := rfl
@[simp] theorem State.withFifo_readers : (s.withFifo f).readers = s.readers := rfl
@[simp] theorem State.withFifo_fault : (s.withFifo f).fault = s.fault := rfl
@[simp] theorem State.withFifo_draws : (s.withFifo f).draws = s.draws := rfl
@[simp] theorem State.withFifo_allocAnswers : (s.withFifo f).allocAnswers = s.allocAnswers := rfl
@[simp] theorem State.withFifo_handing : (s.withFifo f).handing = s.handing := rfl
@[simp] theorem State.withFifo_sched : (s.withFifo f).sched = s.sched := rfl

end

section
variable (s : State) (k : Tracking)

@[simp] theorem State.withTrack_params : (s.withTrack k).params = s.params := rfl
@[simp] theorem State.withTrack_fx : (s.withTrack k).fx = s.fx := rfl
@[simp] theorem State.withTrack_dma : (s.withTrack k).dma = s.dma := rfl
@[simp] theorem State.withTrack_mem : (s.withTrack k).mem = s.mem := rfl
@[simp] theorem State.withTrack_fifo : (s.withTrack k).fifo = s.fifo := rfl
@[simp] theorem State.withTrack_track : (s.withTrack k).track = k := rfl
@[simp] theorem State.withTrack_readers : (s.withTrack k).readers = s.readers := rfl
@[simp] theorem State.withTrack_fault : (s.withTrack k).fault = s.fault := rfl
@[simp] theorem State.withTrack_draws : (s.withTrack k).draws = s.draws := rfl
@[simp] theorem State.withTrack_allocAnswers : (s.withTrack k).allocAnswers = s.allocAnswers := rfl
@[simp] theorem State.withTrack_handing : (s.withTrack k).handing = s.handing := rfl
@[simp] theorem State.withTrack_sched : (s.withTrack k).sched = s.sched := rfl

end

section
variable (s : State) (n : Nat)

@[simp] theorem State.withDraws_params : (s.withDraws n).params = s.params := rfl
@[simp] theorem State.withDraws_fx : (s.withDraws n).fx = s.fx := rfl
@[simp] theorem State.withDraws_dma : (s.withDraws n).dma = s.dma := rfl
@[simp] theorem State.withDraws_mem : (s.withDraws n).mem = s.mem := rfl
@[simp] theorem State.withDraws_fifo : (s.withDraws n).fifo = s.fifo := rfl
@[simp] theorem State.withDraws_track : (s.withDraws n).track = s.track := rfl
@[simp] theorem State.withDraws_readers : (s.withDraws n).readers = s.readers := rfl
@[simp] theorem State.withDraws_fault : (s.withDraws n).fault = s.fault := rfl
@[simp] theorem State.withDraws_draws : (s.withDraws n).draws = n := rfl
@[simp] theorem State.withDraws_allocAnswers : (s.withDraws n).allocAnswers = s.allocAnswers := rfl
@[simp] theorem State.withDraws_handing : (s.withDraws n).handing = s.handing := rfl
@[simp] theorem State.withDraws_sched : (s.withDraws n).sched = s.sched := rfl

end

section
variable (s : State) (l : List Bool)

@[simp] theorem State.withAnswers_params : (s.withAnswers l).params = s.params := rfl
@[simp] theorem State.withAnswers_fx : (s.withAnswers l).fx = s.fx := rfl
@[simp] theorem State.withAnswers_dma : (s.withAnswers l).dma = s.dma := rfl
@[simp] theorem State.withAnswers_mem : (s.withAnswers l).mem = s.mem := rfl
@[simp] theorem State.withAnswers_fifo : (s.withAnswers l).fifo = s.fifo := rfl
@[simp] theorem State.withAnswers_track : (s.withAnswers l).track = s.track := rfl
@[simp] theorem State.withAnswers_readers : (s.withAnswers l).readers = s.readers := rfl
@[simp] theorem State.withAnswers_fault : (s.withAnswers l).fault = s.fault := rfl
@[simp] theorem State.withAnswers_draws : (s.withAnswers l).draws = s.draws := rfl
@[simp] theorem State.withAnswers_allocAnswers : (s.withAnswers l).allocAnswers = l := rfl
@[simp] theorem State.withAnswers_handing : (s.withAnswers l).handing = s.handing := rfl
@[simp] theorem State.withAnswers_sched : (s.withAnswers l).sched = s.sched := rfl

end

section
variable (s : State) (x : Option Half)

@[simp] theorem State.withHanding_params : (s.withHanding x).params = s.params := rfl
@[simp] theorem State.withHanding_fx : (s.withHanding x).fx = s.fx := rfl
@[simp] theorem State.withHanding_dma : (s.withHanding x).dma = s.dma := rfl
@[simp] theorem State.withHanding_mem : (s.withHanding x).mem = s.mem := rfl
@[simp] theorem State.withHanding_fifo : (s.withHanding x).fifo = s.fifo := rfl
@[simp] theorem State.withHanding_track : (s.withHanding x).track = s.track := rfl
@[simp] theorem State.withHanding_readers : (s.withHanding x).readers = s.readers := rfl
@[simp] theorem State.withHanding_fault : (s.withHanding x).fault = s.fault := rfl
@[simp] theorem State.withHanding_draws : (s.withHanding x).draws = s.draws := rfl
@[simp] theorem State.withHanding_allocAnswers : (s.withHanding x).allocAnswers = s.allocAnswers := rfl
@[simp] theorem State.withHanding_handing : (s.withHanding x).handing = x := rfl
@[simp] theorem State.withHanding_sched : (s.withHanding x).sched = s.sched := rfl

end

section
variable (s : State) (l : List Turn)

@[simp] theorem State.withSched_params : (s.withSched l).params = s.params := rfl
@[simp] theorem State.withSched_fx : (s.withSched l).fx = s.fx := rfl
@[simp] theorem State.withSched_dma : (s.withSched l).dma = s.dma := rfl
@[simp] theorem State.withSched_mem : (s.withSched l).mem = s.mem := rfl
@[simp] theorem State.withSched_fifo : (s.withSched l).fifo = s.fifo := rfl
@[simp] theorem State.withSched_track : (s.withSched l).track = s.track := rfl
@[simp] theorem State.withSched_readers : (s.withSched l).readers = s.readers := rfl
@[simp] theorem State.withSched_fault : (s.withSched l).fault = s.fault := rfl
@[simp] theorem State.withSched_draws : (s.withSched l).draws = s.draws := rfl
@[simp] theorem State.withSched_allocAnswers : (s.withSched l).allocAnswers = s.allocAnswers := rfl
@[simp] theorem State.withSched_handing : (s.withSched l).handing = s.handing := rfl
@[simp] theorem State.withSched_sched : (s.withSched l).sched = l := rfl

end

section
variable (s : State) (t : Tid) (r : Result)

@[simp] theorem State.withResp_params : (s.withResp t r).params = s.params := rfl
@[simp] theorem State.withResp_fx : (s.withResp t r).fx = s.fx := rfl
@[simp] theorem State.withResp_dma : (s.withResp t r).dma = s.dma := rfl
@[simp] theorem State.withResp_mem : (s.withResp t r).mem = s.mem := rfl
@[simp] theorem State.withResp_fifo : (s.withResp t r).fifo = s.fifo := rfl
@[simp] theorem State.withResp_track : (s.withResp t r).track = s.track := rfl
@[simp] theorem State.withResp_readers : (s.withResp t r).readers = { s.readers with resp := s.readers.resp.set t (some r) } := rfl
@[simp] theorem State.withResp_fault : (s.withResp t r).fault = s.fault := rfl
@[simp] theorem State.withResp_draws : (s.withResp t r).draws = s.draws := rfl
@[simp] theorem State.withResp_allocAnswers : (s.withResp t r).allocAnswers = s.allocAnswers := rfl
@[simp] theorem State.withResp_handing : (s.withResp t r).handing = s.handing := rfl
@[simp] theorem State.withResp_sched : (s.withResp t r).sched = s.sched := rfl

end

section
variable (s : State) (t : Tid) (x : ThreadState)

@[simp] theorem State.withTs_params : (s.withTs t x).params = s.params := rfl
@[simp] theorem State.withTs_fx : (s.withTs t x).fx = s.fx := rfl
@[simp] theorem State.withTs_dma : (s.withTs t x).dma = s.dma := rfl
@[simp] theorem State.withTs_mem : (s.withTs t x).mem = s.mem := rfl
@[simp] theorem State.withTs_fifo : (s.withTs t x).fifo = s.fifo := rfl
@[simp] theorem State.withTs_track : (s.withTs t x).track = s.track := rfl
@[simp] theorem State.withTs_readers : (s.withTs t x).readers = { s.readers with ts := s.readers.ts.set t x } := rfl
@[simp] theorem State.withTs_fault : (s.withTs t x).fault = s.fault := rfl
@[simp] theorem State.withTs_draws : (s.withTs t x).draws = s.draws := rfl
@[simp] theorem State.withTs_allocAnswers : (s.withTs t x).allocAnswers = s.allocAnswers := rfl
@[simp] theorem State.withTs_handing : (s.withTs t x).handing = s.handing := rfl
@[simp] theorem State.withTs_sched : (s.withTs t x).sched = s.sched := rfl

end

section
variable (s : State) (r : FaultRecord)

@[simp] theorem raise_params : (raise r s).params = s.params := rfl
@[simp] theorem raise_fx : (raise r s).fx = s.fx := rfl
@[simp] theorem raise_dma : (raise r s).dma = s.dma := rfl
@[simp] theorem raise_mem : (raise r s).mem = s.mem := rfl
@[simp] theorem raise_fifo : (raise r s).fifo = s.fifo := rfl
@[simp] theorem raise_track : (raise r s).track = s.track := rfl
@[simp] theorem raise_readers : (raise r s).readers = s.readers := rfl
@[simp] theorem raise_fault : (raise r s).fault = s.fault.or (some r) := rfl
@[simp] theorem raise_draws : (raise r s).draws = s.draws := rfl
@[simp] theorem raise_allocAnswers : (raise r s).allocAnswers = s.allocAnswers := rfl
@[simp] theorem raise_handing : (raise r s).handing = s.handing := rfl
@[simp] theorem raise_sched : (raise r s).sched = s.sched := rfl

end

/-! ### Thread states and results -/

section
variable (s : State) (t u : Tid)

theorem State.tsOf_withTs (x : ThreadState) : (s.withTs t x).tsOf u = if t = u then x else s.tsOf u := by
  simp [State.tsOf, State.withTs, Vector.getElem_set, Fin.ext_iff]

theorem State.respOf_withResp (r : Result) : (s.withResp t r).respOf u = if t = u then some r else s.respOf u := by
  simp [State.respOf, State.withResp, Vector.getElem_set, Fin.ext_iff]

@[simp] theorem State.tsOf_withTs_self (x : ThreadState) : (s.withTs t x).tsOf t = x := by simp [State.tsOf_withTs]

@[simp] theorem State.respOf_withResp_self (r : Result) : (s.withResp t r).respOf t = some r := by
  simp [State.respOf_withResp]

@[simp] theorem State.tsOf_withResp (r : Result) : (s.withResp t r).tsOf u = s.tsOf u := rfl
@[simp] theorem State.respOf_withTs (x : ThreadState) : (s.withTs t x).respOf u = s.respOf u := rfl
@[simp] theorem State.tsOf_withFifo (f : Fifo) : (s.withFifo f).tsOf u = s.tsOf u := rfl
@[simp] theorem State.respOf_withFifo (f : Fifo) : (s.withFifo f).respOf u = s.respOf u := rfl
@[simp] theorem tsOf_raise (r : FaultRecord) : (raise r s).tsOf u = s.tsOf u := rfl
@[simp] theorem respOf_raise (r : FaultRecord) : (raise r s).respOf u = s.respOf u := rfl

end

end Sys2Proof.Machine
end

