-- ==== Sys2Proof/Laws/Memory.lean ====
section
/-! SUPPORT. The laws of memory: what a store leaves at each address, and that every operation keeps the canonical
form (spec/00_scope.md R9; spec/20_memory.md R70, R73). -/

namespace Sys2Proof.Machine

/-! ### Reading after a store -/

theorem Memory.lookup_append (m n : Memory) (a : Nat) :
    Memory.lookup (m ++ n) a = (Memory.lookup m a).or (Memory.lookup n a) := by
  induction m with
  | nil => simp [Memory.lookup]
  | cons c m ih =>
    obtain ⟨k, b⟩ := c
    by_cases h : k = a <;> simp [Memory.lookup, h, ih]

theorem Memory.lookup_filter (m : Memory) (p : Nat → Bool) (a : Nat) :
    Memory.lookup (m.filter fun c => p c.1) a = if p a = true then Memory.lookup m a else none := by
  induction m with
  | nil => simp [Memory.lookup]
  | cons c m ih =>
    obtain ⟨k, b⟩ := c
    by_cases hk : k = a
    · subst hk
      cases hp : p k <;> simp_all [Memory.lookup]
    · cases hp : p k <;> simp_all [Memory.lookup]

theorem Memory.lookup_cells (bs : List Byte) (a x : Nat) :
    Memory.lookup (Memory.cells a bs) x = if a ≤ x then bs[x - a]? else none := by
  induction bs generalizing a with
  | nil => simp [Memory.cells, Memory.lookup]
  | cons b bs ih =>
    rw [Memory.cells, Memory.lookup, ih]
    rcases Nat.lt_trichotomy a x with h | h | h
    · have h1 : x - a = (x - (a + 1)) + 1 := by omega
      rw [if_neg (by omega), if_pos (by omega), if_pos (by omega), h1, List.getElem?_cons_succ]
    · subst h; simp
    · rw [if_neg (by omega), if_neg (by omega), if_neg (by omega)]

/-- What `put` leaves at an address: the byte stored there, or what was listed before. -/
theorem Memory.lookup_put (m : Memory) (a : Nat) (bs : List Byte) (x : Nat) :
    (m.put a bs).lookup x = if a ≤ x ∧ x < a + bs.length then bs[x - a]? else m.lookup x := by
  unfold Memory.put
  rw [Memory.lookup_append, Memory.lookup_append, Memory.lookup_filter m (fun k => decide (k < a)),
    Memory.lookup_filter m (fun k => decide (a + bs.length ≤ k)), Memory.lookup_cells]
  simp only [decide_eq_true_eq]
  by_cases h1 : x < a
  · rw [if_pos h1, if_neg (by omega), if_neg (by omega), if_neg (by omega)]
    simp
  · by_cases h2 : x < a + bs.length
    · rw [if_neg h1, if_pos (by omega), if_neg (by omega), if_pos (by omega)]
      simp
    · rw [if_neg h1, if_pos (by omega), if_pos (by omega), if_neg (by omega), List.getElem?_eq_none (by omega)]
      simp

/-- The position of address `x` in a store from `a` on, counted modulo 2^32. -/
def Memory.offset (a : Addr) (x : Nat) : Nat := (x + (2 ^ 32 - a.toNat)) % 2 ^ 32

/-- What a store leaves at an address of the space: the byte stored there, or the byte from before. -/
theorem Memory.byteAt_store (m : Memory) (a : Addr) (bs : List Byte) (x : Nat) (hx : x < 2 ^ 32)
    (hlen : bs.length ≤ 2 ^ 32) :
    (m.store a bs).byteAt x = (bs[Memory.offset a x]?).getD (m.byteAt x) := by
  have ha : a.toNat < 2 ^ 32 := a.isLt
  simp only [Memory.store, Memory.byteAt, Memory.offset]
  by_cases h : a.toNat ≤ x
  · have e : (x + (2 ^ 32 - a.toNat)) % 2 ^ 32 = x - a.toNat := by omega
    rw [e]
    split
    · rw [Memory.lookup_put]
      by_cases h2 : x < a.toNat + bs.length
      · rw [if_pos ⟨h, h2⟩, List.getElem?_eq_getElem (by omega)]; simp
      · rw [if_neg (by omega), List.getElem?_eq_none (by omega)]; simp
    · rw [Memory.lookup_put, if_neg (by simp; omega), Memory.lookup_put, List.length_take, if_pos (by omega),
        List.getElem?_take, if_pos (by omega), List.getElem?_eq_getElem (by omega)]
      simp
  · have e : (x + (2 ^ 32 - a.toNat)) % 2 ^ 32 = x + (2 ^ 32 - a.toNat) := by omega
    rw [e]
    split
    · rw [Memory.lookup_put, if_neg (by omega), List.getElem?_eq_none (by omega)]; simp
    · rw [Memory.lookup_put, List.length_drop, List.getElem?_drop]
      by_cases h2 : x + (2 ^ 32 - a.toNat) < bs.length
      · rw [if_pos (by omega), List.getElem?_eq_getElem (by omega), List.getElem?_eq_getElem (by omega)]
        simp [Nat.add_comm]
      · rw [if_neg (by omega), Memory.lookup_put, if_neg (by rw [List.length_take]; omega),
          List.getElem?_eq_none (l := bs) (by omega)]
        simp

/-- A store that stays below the top of the space, in plain addresses. -/
theorem Memory.byteAt_store_flat (m : Memory) (a : Addr) (bs : List Byte) (x : Nat)
    (hfit : a.toNat + bs.length ≤ 2 ^ 32) :
    (m.store a bs).byteAt x = if a.toNat ≤ x ∧ x < a.toNat + bs.length then (bs[x - a.toNat]?).getD 0 else m.byteAt x := by
  simp only [Memory.store, Memory.byteAt]
  rw [if_pos (by omega), Memory.lookup_put]
  split
  · rw [List.getElem?_eq_getElem (by omega)]; simp
  · rfl

/-! ### The canonical form -/

theorem Memory.risingFrom_mono {m : Memory} {lo lo' : Nat} (h : lo' ≤ lo) (hm : Memory.risingFrom lo m = true) :
    Memory.risingFrom lo' m = true := by
  cases m with
  | nil => rfl
  | cons c m =>
    simp only [Memory.risingFrom, Bool.and_eq_true, decide_eq_true_eq] at hm ⊢
    exact ⟨by omega, hm.2⟩

theorem Memory.risingFrom_filter {m : Memory} {lo : Nat} (p : Nat → Bool) (hm : Memory.risingFrom lo m = true) :
    Memory.risingFrom lo (m.filter fun c => p c.1) = true := by
  induction m generalizing lo with
  | nil => rfl
  | cons c m ih =>
    simp only [Memory.risingFrom, Bool.and_eq_true, decide_eq_true_eq] at hm
    cases hp : p c.1
    · rw [List.filter_cons_of_neg (by simp [hp])]
      exact Memory.risingFrom_mono (by omega) (ih hm.2)
    · rw [List.filter_cons_of_pos (by simp [hp])]
      simp [Memory.risingFrom, hm.1, ih hm.2]

theorem Memory.risingFrom_append {m n : Memory} {lo hi : Nat} (hm : Memory.risingFrom lo m = true)
    (hlt : ∀ c ∈ m, c.1 < hi) (hn : Memory.risingFrom hi n = true) (hle : lo ≤ hi) :
    Memory.risingFrom lo (m ++ n) = true := by
  induction m generalizing lo with
  | nil => exact Memory.risingFrom_mono hle hn
  | cons c m ih =>
    simp only [Memory.risingFrom, List.cons_append, Bool.and_eq_true, decide_eq_true_eq] at hm ⊢
    exact ⟨hm.1, ih hm.2 (fun d hd => hlt d (List.mem_cons_of_mem _ hd)) (hlt c List.mem_cons_self)⟩

theorem Memory.risingFrom_cells (a : Nat) (bs : List Byte) : Memory.risingFrom a (Memory.cells a bs) = true := by
  induction bs generalizing a with
  | nil => rfl
  | cons b bs ih => simp [Memory.cells, Memory.risingFrom, ih]

theorem Memory.cells_bounds {a : Nat} {bs : List Byte} {c : Host.Cell} (hc : c ∈ Memory.cells a bs) :
    a ≤ c.1 ∧ c.1 < a + bs.length := by
  induction bs generalizing a with
  | nil => simp [Memory.cells] at hc
  | cons b bs ih =>
    rcases List.mem_cons.mp hc with rfl | hc
    · simp
    · have := ih hc
      simp; omega

theorem Memory.risingFrom_filter_ge {m : Memory} {lo : Nat} (hi : Nat) (hm : Memory.risingFrom lo m = true) :
    Memory.risingFrom hi (m.filter fun c => decide (hi ≤ c.1)) = true := by
  induction m generalizing lo hi with
  | nil => rfl
  | cons c m ih =>
    simp only [Memory.risingFrom, Bool.and_eq_true, decide_eq_true_eq] at hm
    by_cases h : hi ≤ c.1
    · have e : (m.filter fun d => decide (hi ≤ d.1)) = m.filter fun d => decide (c.1 + 1 ≤ d.1) := by
        apply List.filter_congr
        intro d hd
        have : ∀ {l : Memory} {k : Nat}, Memory.risingFrom k l = true → ∀ d ∈ l, k ≤ d.1 := by
          intro l
          induction l with
          | nil => simp
          | cons x l ihl =>
            intro k hk d hd
            simp only [Memory.risingFrom, Bool.and_eq_true, decide_eq_true_eq] at hk
            rcases List.mem_cons.mp hd with rfl | hd
            · exact hk.1
            · have := ihl hk.2 d hd; omega
        have := this hm.2 d hd
        simp; omega
      rw [List.filter_cons_of_pos (by simp [h]), e]
      simp only [Memory.risingFrom, Bool.and_eq_true, decide_eq_true_eq]
      exact ⟨h, ih (c.1 + 1) hm.2⟩
    · rw [List.filter_cons_of_neg (by simp [h])]
      exact ih hi hm.2

theorem Memory.wf_nil : Memory.wf [] = true := rfl

/-- `put` inside the space keeps the canonical form. -/
theorem Memory.wf_put {m : Memory} {a : Nat} {bs : List Byte} (hm : m.wf = true) (h : a + bs.length ≤ 2 ^ 32) :
    (m.put a bs).wf = true := by
  simp only [Memory.wf, Bool.and_eq_true, List.all_eq_true, decide_eq_true_eq] at hm ⊢
  obtain ⟨hr, hb⟩ := hm
  constructor
  · unfold Memory.put
    rw [List.append_assoc]
    refine Memory.risingFrom_append (hi := a) (Memory.risingFrom_filter (fun k => decide (k < a)) hr) ?_ ?_ (Nat.zero_le a)
    · intro c hc; simpa using (List.mem_filter.mp hc).2
    · exact Memory.risingFrom_append (Memory.risingFrom_cells a bs) (fun c hc => (Memory.cells_bounds hc).2)
        (Memory.risingFrom_filter_ge _ hr) (by omega)
  · intro c hc
    simp only [Memory.put, List.mem_append, List.mem_filter] at hc
    rcases hc with (hc | hc) | hc
    · exact hb c hc.1
    · have := Memory.cells_bounds hc; omega
    · exact hb c hc.1

/-- A store keeps the canonical form. -/
theorem Memory.wf_store {m : Memory} {a : Addr} {bs : List Byte} (hm : m.wf = true) (h : bs.length ≤ 2 ^ 32) :
    (m.store a bs).wf = true := by
  have ha : a.toNat < 2 ^ 32 := a.isLt
  simp only [Memory.store]
  split
  · exact Memory.wf_put hm (by omega)
  · exact Memory.wf_put (Memory.wf_put hm (by rw [List.length_take]; omega)) (by rw [List.length_drop]; omega)

/-! ### Words -/

@[simp] theorem bytesOfWord_length (o : ByteOrder) (v : Word) : (bytesOfWord o v).length = 4 := by
  cases o <;> rfl

theorem flatMap_bytesOfWord_length (o : ByteOrder) (ws : List Word) : (ws.flatMap (bytesOfWord o)).length = 4 * ws.length := by
  induction ws with
  | nil => rfl
  | cons w ws ih => simp [List.flatMap_cons, ih]; omega

/-- Byte `k` of word `j` of a run of words. -/
theorem getElem?_flatMap_bytesOfWord (o : ByteOrder) (ws : List Word) (j k : Nat) (hk : k < 4) :
    (ws.flatMap (bytesOfWord o))[4 * j + k]? = (ws[j]?).bind fun w => (bytesOfWord o w)[k]? := by
  induction ws generalizing j with
  | nil => simp
  | cons w ws ih =>
    rw [List.flatMap_cons]
    cases j with
    | zero => rw [List.getElem?_append_left (by simp; omega)]; simp
    | succ j =>
      rw [List.getElem?_append_right (by simp; omega)]
      have e : 4 * (j + 1) + k - (bytesOfWord o w).length = 4 * j + k := by simp; omega
      rw [e, ih]; simp

/-- A word is assembled from its own bytes. -/
theorem wordOfBytes_bytesOfWord (o : ByteOrder) (v : Word) (b0 b1 b2 b3 : Byte) (h : bytesOfWord o v = [b0, b1, b2, b3]) :
    wordOfBytes o b0 b1 b2 b3 = v := by
  cases o <;> simp only [bytesOfWord, List.reverse_cons, List.reverse_nil, List.nil_append, List.cons_append, List.cons.injEq, and_true] at h <;>
    obtain ⟨rfl, rfl, rfl, rfl⟩ := h <;> simp only [wordOfBytes] <;> ext i hi <;>
    simp only [BitVec.getElem_append, BitVec.getElem_extractLsb'] <;>
    (repeat' split) <;> (rw [BitVec.getLsbD_eq_getElem (by omega)]; congr 1; omega)

theorem Memory.wf_storeWord {m : Memory} {a : Addr} {o : ByteOrder} {v : Word} (hm : m.wf = true) :
    (m.storeWord o a v).wf = true := Memory.wf_store hm (by simp)

theorem Memory.wf_storeWords {m : Memory} {a : Addr} {o : ByteOrder} {ws : List Word} (hm : m.wf = true)
    (h : ws.length ≤ 2 ^ 30) : (m.storeWords o a ws).wf = true :=
  Memory.wf_store hm (by rw [flatMap_bytesOfWord_length]; omega)

end Sys2Proof.Machine
end

