-- ==== Sys2Proof/Laws/Ops.lean ====
section
/-! SUPPORT. What each shared operation can do, said once: the lemmas that later proofs cite instead of unfolding. -/

namespace Sys2Proof.Machine

variable {s t : State}

/-! ### The shape of a step -/

@[simp] theorem whenLive_live {f : State → State} (h : s.fault = none) : whenLive s f = .next (f s) := by
  simp [whenLive, h]

theorem whenLive_halted {f : State → State} {r : FaultRecord} (h : s.fault = some r) :
    whenLive s f = .fault (.halted r) := by simp [whenLive, h]

theorem whenLive_next {f : State → State} (h : whenLive s f = .next t) : s.fault = none ∧ t = f s := by
  unfold whenLive at h
  split at h
  · exact ⟨‹_›, (Host.Outcome.next.inj h).symm⟩
  · cases h

@[simp] theorem andThen_live {f : State → State} (h : s.fault = none) : andThen s f = f s := by simp [andThen, h]

theorem andThen_halted {f : State → State} (h : s.fault ≠ none) : andThen s f = s := by
  unfold andThen
  split
  · exact absurd ‹_› h
  · rfl

/-- `andThen` either goes on or keeps the faulted state. -/
theorem andThen_cases (s : State) (f : State → State) :
    (s.fault = none ∧ andThen s f = f s) ∨ (s.fault ≠ none ∧ andThen s f = s) := by
  by_cases h : s.fault = none
  · exact .inl ⟨h, andThen_live h⟩
  · exact .inr ⟨h, andThen_halted h⟩

/-- A command that answers a next state ran from a state without fault; it completed with RESP[0] = OK([]), or it
recorded a fault (R130). -/
theorem hostCommand_next {op : State → State} (h : hostCommand op s = .next t) :
    s.fault = none ∧ (((op s).fault = none ∧ t = respondOk (op s)) ∨ ((op s).fault ≠ none ∧ t = op s)) := by
  obtain ⟨hs, rfl⟩ := whenLive_next h
  rcases andThen_cases (op s) respondOk with ⟨h1, h2⟩ | ⟨h1, h2⟩
  · exact ⟨hs, .inl ⟨h1, h2⟩⟩
  · exact ⟨hs, .inr ⟨h1, h2⟩⟩

/-- A command whose operation records no fault completes. -/
theorem hostCommand_completes {op : State → State} (hs : s.fault = none) (h : (op s).fault = none) :
    hostCommand op s = .next (respondOk (op s)) := by simp [hostCommand, hs, h]

/-- A command whose operation records a fault answers that state. -/
theorem hostCommand_faults {op : State → State} (hs : s.fault = none) (h : (op s).fault ≠ none) :
    hostCommand op s = .next (op s) := by simp [hostCommand, hs, andThen_halted h]

/-- An agent's turn takes its step if enabled and leaves the state if not. -/
theorem agentStep_next {en : State → Bool} {op : State → State} (h : agentStep en op s = .next t) :
    s.fault = none ∧ ((en s = true ∧ t = op s) ∨ (en s = false ∧ t = s)) := by
  obtain ⟨hs, rfl⟩ := whenLive_next h
  cases he : en s <;> simp [hs]

theorem agentStep_enabled {en : State → Bool} {op : State → State} (hs : s.fault = none) (he : en s = true) :
    agentStep en op s = .next (op s) := by simp [agentStep, hs, he]

theorem agentStep_disabled {en : State → Bool} {op : State → State} (hs : s.fault = none) (he : en s = false) :
    agentStep en op s = .next s := by simp [agentStep, hs, he]

/-- `respondOk` writes RESP[0] alone. -/
theorem respondOk_eq (s : State) : respondOk s = s.withResp hostTid (.ok []) := rfl

@[simp] theorem raise_fault_live {r : FaultRecord} (h : s.fault = none) : (raise r s).fault = some r := by simp [h]

theorem raise_fault_ne_none (r : FaultRecord) (s : State) : (raise r s).fault ≠ none := by
  simp only [raise_fault]
  cases s.fault <;> simp

@[simp] theorem withHandle_present {w : Word} {op : State → State} (h : s.params.handlePresent = true) :
    withHandle w op s = op s := by simp [withHandle, State.handle, h]

theorem withHandle_absent {w : Word} {op : State → State} (h : s.params.handlePresent = false) :
    withHandle w op s = raise (.fatalNoHandle w) s := by simp [withHandle, State.handle, h]

/-- A peripheral command runs, or records FATAL_NO_HANDLE and writes nothing else (R130). -/
theorem withHandle_cases (w : Word) (op : State → State) (s : State) :
    (s.params.handlePresent = true ∧ withHandle w op s = op s) ∨
      (s.params.handlePresent = false ∧ withHandle w op s = raise (.fatalNoHandle w) s) := by
  cases h : s.params.handlePresent
  · exact .inr ⟨rfl, withHandle_absent h⟩
  · exact .inl ⟨rfl, withHandle_present h⟩

theorem runOps_nil (s : State) : runOps [] s = s := rfl

theorem runOps_cons_live {f : State → State} {fs : List (State → State)} (h : (f s).fault = none) :
    runOps (f :: fs) s = runOps fs (f s) := by simp [runOps, h]

theorem runOps_cons_halted {f : State → State} {fs : List (State → State)} (h : (f s).fault ≠ none) :
    runOps (f :: fs) s = f s := by simp [runOps, andThen_halted h]

/-- A property that every operation of a sequence keeps is kept by the sequence. -/
theorem runOps_keeps {P : State → Prop} {fs : List (State → State)} (h : ∀ f ∈ fs, ∀ u, P u → P (f u)) (hs : P s) :
    P (runOps fs s) := by
  induction fs generalizing s with
  | nil => exact hs
  | cons f fs ih =>
    have hf : P (f s) := h f List.mem_cons_self s hs
    rcases andThen_cases (f s) (runOps fs) with ⟨_, e⟩ | ⟨_, e⟩
    · rw [runOps, e]; exact ih (fun g hg => h g (List.mem_cons_of_mem _ hg)) hf
    · rw [runOps, e]; exact hf

/-! ### Error values -/

theorem skip_ne (v x : Int) : skip v x ≠ v := by
  unfold skip
  split <;> omega

/-- Skipping the greater value after the lesser gives neither. -/
theorem skip_skip_ne (a b x : Int) :
    skip (max a b) (skip (min a b) x) ≠ a ∧ skip (max a b) (skip (min a b) x) ≠ b := by
  simp only [skip]
  omega

/-- The three error values are distinct, whatever they are (spec/60_exceptions.md R295). -/
theorem errno_injective {d e : ErrCode} (h : errno d = errno e) : d = e := by
  have h1 : errno .eagain ≠ errno .eio := skip_ne _ _
  have h2 : errno .eintr ≠ errno .eio ∧ errno .eintr ≠ errno .eagain := skip_skip_ne _ _ _
  cases d <;> cases e <;> first | rfl | omega

/-- Two error results that the caller sees as one value are the same result (spec/43_steering_fifo.md R259). -/
theorem returnValue_err_injective {d e : ErrCode} (h : (Result.err d).returnValue = (Result.err e).returnValue) : d = e :=
  errno_injective h

/-! ### The DMA's operations -/

/-- A bus read returns the bit-swapped word and clears SSF, or reads plain memory and changes nothing. -/
theorem busRead_cases (s : State) (a : Addr) :
    (a = s.params.shiftBufBisAddr ∧ busRead s a =
        (bitrev32 s.fx.shbuf, s.withFx { s.fx with shstat := { s.fx.shstat with ssf := false } })) ∨
      (a ≠ s.params.shiftBufBisAddr ∧ busRead s a = (s.mem.loadWord s.params.byteOrder a, s)) := by
  by_cases h : a = s.params.shiftBufBisAddr
  · exact .inl ⟨h, by simp [busRead, h, State.shbufbis]⟩
  · exact .inr ⟨h, by simp [busRead, h]⟩

/-- Raising an event clears WSE; the event becomes pending last in EVQ, or COMPLETION_OVERRUN is recorded (R186). -/
theorem raiseEvent_cases (hc : Half) (s : State) :
    (hc ∉ s.dma.evq ∧ raiseEvent hc s =
        (s.withTrack { s.track with wse := s.track.wse.set hc false }).withDma { s.dma with evq := s.dma.evq ++ [hc] }) ∨
      (hc ∈ s.dma.evq ∧ raiseEvent hc s =
        raise (.completionOverrun hc) (s.withTrack { s.track with wse := s.track.wse.set hc false })) := by
  by_cases h : hc ∈ s.dma.evq
  · exact .inr ⟨h, by simp [raiseEvent, h]⟩
  · exact .inl ⟨h, by simp [raiseEvent, h]⟩

/-- The events of a beat: the halfway event, the major event, or none; never both when BITER is above 1 (R186). -/
theorem beatEvents_cases (c : BitVec 16) (s : State) (hs : s.fault = none) (hb : s.dma.tcd.biter / 2 ≠ 0) :
    (c = s.dma.tcd.biter / 2 ∧ s.dma.tcd.inthalf = true ∧ beatEvents c s = raiseEvent 0 s) ∨
      (c = 0 ∧ s.dma.tcd.intmajor = true ∧ beatEvents c s = raiseEvent 1 s) ∨ beatEvents c s = s := by
  unfold beatEvents
  by_cases h1 : c = s.dma.tcd.biter / 2 ∧ s.dma.tcd.inthalf = true
  · refine .inl ⟨h1.1, h1.2, ?_⟩
    rw [if_pos h1]
    rcases andThen_cases (raiseEvent 0 s) (fun s => if c = 0 ∧ s.dma.tcd.intmajor = true then raiseEvent 1 s else s)
      with ⟨_, e⟩ | ⟨_, e⟩ <;> rw [e]
    rw [if_neg (fun h => hb (h1.1 ▸ h.1))]
  · rw [if_neg h1, andThen_live hs]
    by_cases h2 : c = 0 ∧ s.dma.tcd.intmajor = true
    · exact .inr (.inl ⟨h2.1, h2.2, by rw [if_pos h2]⟩)
    · exact .inr (.inr (by rw [if_neg h2]))

/-! ### The FIFO's operations -/

/-- Of two positions, the one after `t` is `h` exactly if `h` is not `t`. -/
theorem next_eq_iff_ne : ∀ h t : Fin 2, decide (t + 1 = h) = !decide (h = t) := by decide

/-- Of two positions that differ, each is the one after the other. -/
theorem next_eq_of_ne : ∀ h t : Fin 2, decide (h = t) = false → decide (h + 1 = t) = true := by decide

/-- On two slots the FIFO is either empty or full (R252). -/
theorem Fifo.isFull_eq (f : Fifo) : f.isFull = !f.isEmpty := next_eq_iff_ne f.head f.tail

/-- Advancing HEAD of a FIFO that is not empty empties it (R252). -/
theorem Fifo.isEmpty_advance (f : Fifo) (h : f.isEmpty = false) :
    ({ f with head := f.head + 1 } : Fifo).isEmpty = true := next_eq_of_ne f.head f.tail h

/-- `offer` stores the entry in an empty FIFO and drops it, flagging the overrun, otherwise (R251, R252). -/
theorem Fifo.offer_cases (f : Fifo) (e : Entry) :
    (f.isEmpty = true ∧ f.offer e = ({ f with
        slot := f.slot.set f.tail (some e)
        tail := f.tail + 1
        pollnote := f.pollnote + 1
        sem := if 0 < f.waiters then f.sem + 1 else f.sem }, .accepted)) ∨
      (f.isEmpty = false ∧ f.offer e = ({ f with ovr := true }, .dropped)) := by
  have hf := Fifo.isFull_eq f
  cases he : f.isEmpty
  · exact .inr ⟨rfl, by simp [Fifo.offer, hf, he]⟩
  · exact .inl ⟨rfl, by simp [Fifo.offer, hf, he]⟩

/-- What COPY can do (R258, R262, R263): deliver nothing, stop on a stale entry, or deliver the one batch. -/
theorem copyBatches_cases (tid : Tid) (cap : Nat) (s : State) :
    ((s.fifo.isEmpty = true ∨ cap < batchBytes s.params ∨ s.fifo.slot[s.fifo.head] = none) ∧
        copyBatches tid cap s = (s.withResp tid (.ok [])).withTs tid .idle) ∨
      (∃ e, s.fifo.isEmpty = false ∧ batchBytes s.params ≤ cap ∧ s.fifo.slot[s.fifo.head] = some e ∧
        ((isStale s.track e = true ∧ copyBatches tid cap s = raise (.staleBatch e.h e.g) s) ∨
          (isStale s.track e = false ∧ copyBatches tid cap s =
            ((s.withFifo { s.fifo with head := s.fifo.head + 1 }).withResp tid (.ok (batchOf s e))).withTs tid .idle))) := by
  unfold copyBatches
  by_cases h : s.fifo.isEmpty = false ∧ batchBytes s.params ≤ cap - ([] : List Byte).length
  · cases hs : s.fifo.slot[s.fifo.head] with
    | none =>
      refine .inl ⟨.inr (.inr rfl), ?_⟩
      rw [fifoSlots, copyLoop, if_pos h, hs]
    | some e =>
      refine .inr ⟨e, h.1, by simpa using h.2, rfl, ?_⟩
      cases hst : isStale s.track e
      · refine .inr ⟨rfl, ?_⟩
        have he := Fifo.isEmpty_advance s.fifo h.1
        rw [fifoSlots, copyLoop, if_pos h, hs]
        simp only [hst, Bool.false_eq_true, if_false]
        rw [copyLoop, if_neg (by simp [he])]
        simp
      · refine .inl ⟨rfl, ?_⟩
        rw [fifoSlots, copyLoop, if_pos h, hs]
        simp [hst]
  · refine .inl ⟨?_, ?_⟩
    · by_cases he : s.fifo.isEmpty = true
      · exact .inl he
      · exact .inr (.inl (by
          have := fun hb => h ⟨by simpa using he, hb⟩
          simpa using this))
    · rw [fifoSlots, copyLoop, if_neg h]

/-! ### The decoder -/

@[simp] theorem frameSamples_length (p : Params) (words : Nat → Word) (f : Nat) :
    (frameSamples p words f).length = p.sampleOffsets.length := by simp [frameSamples]

theorem decodedBatch_length (p : Params) (words : Nat → Word) :
    (decodedBatch p words).length = framesPerHalf p * p.sampleOffsets.length := by
  simp [decodedBatch, List.length_flatMap]

/-- In an admissible setting a decode writes exactly the 256 words of the half. -/
theorem decoded_words_length (p : Params) (words : Nat → Word) (n : Nat) (h : admissible p = true) :
    (decodedBatch p words ++ decodeTail p n).length = halfWords := by
  simp only [admissible, Bool.and_eq_true, decide_eq_true_eq] at h
  have h3 : p.sampleOffsets.length = channels := h.1.1.1.1.1.2
  have h4 : outWords p ≤ halfWords := h.1.1.1.1.2
  rw [List.length_append, decodedBatch_length, h3]
  simp only [decodeTail, List.length_map, List.length_range, outWords] at h4 ⊢
  omega

end Sys2Proof.Machine
end

