-- ==== Sys2Proof/Laws/PerInstr.lean ====
section
/-! SUPPORT. Statements about every instruction, one lemma per constructor. -/

/-- The word of an instruction has an internal event code exactly if the instruction is an internal event, so that the
command port takes the words of host commands and no others (spec/30_encoding.md R104, R107). -/
def Sys2Proof.Laws.EventCode.Statement (i : Sys2Proof.Instr) : Prop :=
  Sys2Proof.isEventCode i.word = decide (i.channel = .agent)

namespace Sys2Proof.Laws.EventCode

theorem fxreset : Statement .fxreset := by
  rw [Statement, Instr.word, isEventCode_mkWord (by omega) (by omega)]
  rfl

theorem setshift : Statement .setshift := by
  rw [Statement, Instr.word, isEventCode_mkWord (by omega) (by omega)]
  rfl

theorem settima (val : BitVec 16) : Statement (.settima val) := by
  have := val.isLt
  rw [Statement, Instr.word, isEventCode_mkWord (by omega) (by omega)]
  rfl

theorem settimb (val : BitVec 16) : Statement (.settimb val) := by
  have := val.isLt
  rw [Statement, Instr.word, isEventCode_mkWord (by omega) (by omega)]
  rfl

theorem sdmaen : Statement .sdmaen := by
  rw [Statement, Instr.word, isEventCode_mkWord (by omega) (by omega)]
  rfl

theorem sclr : Statement .sclr := by
  rw [Statement, Instr.word, isEventCode_mkWord (by omega) (by omega)]
  rfl

theorem fxenable : Statement .fxenable := by
  rw [Statement, Instr.word, isEventCode_mkWord (by omega) (by omega)]
  rfl

theorem getbuf : Statement .getbuf := by
  rw [Statement, Instr.word, isEventCode_mkWord (by omega) (by omega)]
  rfl

theorem fxdisable : Statement .fxdisable := by
  rw [Statement, Instr.word, isEventCode_mkWord (by omega) (by omega)]
  rfl

theorem dalloc : Statement .dalloc := by
  rw [Statement, Instr.word, isEventCode_mkWord (by omega) (by omega)]
  rfl

theorem dsetup : Statement .dsetup := by
  rw [Statement, Instr.word, isEventCode_mkWord (by omega) (by omega)]
  rfl

theorem dstart : Statement .dstart := by
  rw [Statement, Instr.word, isEventCode_mkWord (by omega) (by omega)]
  rfl

theorem dstop : Statement .dstop := by
  rw [Statement, Instr.word, isEventCode_mkWord (by omega) (by omega)]
  rfl

theorem dfree : Statement .dfree := by
  rw [Statement, Instr.word, isEventCode_mkWord (by omega) (by omega)]
  rfl

theorem cinv : Statement .cinv := by
  rw [Statement, Instr.word, isEventCode_mkWord (by omega) (by omega)]
  rfl

theorem init : Statement .init := by
  rw [Statement, Instr.word, isEventCode_mkWord (by omega) (by omega)]
  rfl

theorem start : Statement .start := by
  rw [Statement, Instr.word, isEventCode_mkWord (by omega) (by omega)]
  rfl

theorem stop : Statement .stop := by
  rw [Statement, Instr.word, isEventCode_mkWord (by omega) (by omega)]
  rfl

theorem decode (h : Half) : Statement (.decode h) := by
  have := h.isLt
  rw [Statement, Instr.word, isEventCode_mkWord (by omega) (by omega)]
  rfl

theorem consume (tid : Tid) (nb : Bool) (cap : BitVec 16) : Statement (.consume tid nb cap) := by
  rw [Statement, Instr.word, isEventCode_mkWord (by omega) (consume_operands_lt tid nb cap)]
  rfl

theorem fiforst : Statement .fiforst := by
  rw [Statement, Instr.word, isEventCode_mkWord (by omega) (by omega)]
  rfl

theorem shiftword (v : Word) : Statement (.shiftword v) := by
  rw [Statement, Instr.word, isEventCode_mkWord (by omega) (by omega)]
  rfl

theorem dmabeat : Statement .dmabeat := by
  rw [Statement, Instr.word, isEventCode_mkWord (by omega) (by omega)]
  rfl

theorem cmpl (hc : Half) : Statement (.cmpl hc) := by
  have := hc.isLt
  rw [Statement, Instr.word, isEventCode_mkWord (by omega) (by omega)]
  rfl

theorem produce (h : Half) : Statement (.produce h) := by
  have := h.isLt
  rw [Statement, Instr.word, isEventCode_mkWord (by omega) (by omega)]
  rfl

theorem wake (tid : Tid) : Statement (.wake tid) := by
  have := tid.isLt
  rw [Statement, Instr.word, isEventCode_mkWord (by omega) (by omega)]
  rfl

theorem sigintr (tid : Tid) : Statement (.sigintr tid) := by
  have := tid.isLt
  rw [Statement, Instr.word, isEventCode_mkWord (by omega) (by omega)]
  rfl

end Sys2Proof.Laws.EventCode
end

