-- ==== Sys2Proof/Laws/Step.lean ====
section
/-! SUPPORT. What one step of the machine can do, said once. -/

namespace Sys2Proof.Machine

/-- A launched setting is admissible, coherent, and has the frame period (spec/00_scope.md R7; R81; U5). -/
theorem launchRefusal_none {p : Params} (h : launchRefusal p = none) :
    admissible p = true ∧ p.cachePolicy = .coherent ∧ p.timbPeriodBits = fsPeriodBits p := by
  unfold launchRefusal at h
  split at h
  · cases h
  · split at h
    · cases h
    · split at h
      · cases h
      · refine ⟨by simpa using ‹¬admissible p = false›, ?_, by simpa using ‹¬p.timbPeriodBits ≠ fsPeriodBits p›⟩
        cases hc : p.cachePolicy
        · rfl
        · exact absurd hc ‹_›

/-- What the next turn can be: none, a word the port rejects, an instruction, or a word that names no event. -/
theorem fetch_cases (s : State) :
    (s.sched = [] ∧ fetch s = .done s) ∨
      (∃ w rest r, s.sched = .command w :: rest ∧ decodePort w = .error r ∧
        fetch s = .done (raise (.illegalCommand w) (s.withSched rest))) ∨
      (∃ w rest i, s.sched = .command w :: rest ∧ decodePort w = .ok i ∧ fetch s = .instr i (s.withSched rest)) ∨
      (∃ w v rest i, s.sched = .event w v :: rest ∧ decodeEvent w v = .ok i ∧ fetch s = .instr i (s.withSched rest)) ∨
      (∃ w v rest r, s.sched = .event w v :: rest ∧ decodeEvent w v = .error r ∧ fetch s = .refuse (.notAnEvent w)) := by
  rcases hs : s.sched with _ | ⟨⟨w⟩ | ⟨w, v⟩, rest⟩
  · exact .inl ⟨rfl, by simp [fetch, hs]⟩
  · cases hd : decodePort w with
    | error r => exact .inr (.inl ⟨w, rest, r, rfl, hd, by simp [fetch, hs, hd]⟩)
    | ok i => exact .inr (.inr (.inl ⟨w, rest, i, rfl, hd, by simp [fetch, hs, hd]⟩))
  · cases hd : decodeEvent w v with
    | error r => exact .inr (.inr (.inr (.inr ⟨w, v, rest, r, rfl, hd, by simp [fetch, hs, hd]⟩)))
    | ok i => exact .inr (.inr (.inr (.inl ⟨w, v, rest, i, rfl, hd, by simp [fetch, hs, hd]⟩)))

/-- In a state that may step, the step is what the next turn is. -/
theorem step_live {s : State} (hp : launchRefusal s.params = none) (hf : s.fault = none) :
    step s = match fetch s with
      | .instr i t => exec i t
      | .done t => .next t
      | .refuse r => .refused r := by
  cases hx : fetch s <;> simp [step, hp, hf, hx]

/-- While no agent steps, the state stays (log 23). -/
theorem takeTurn_none {s : State} (hp : launchRefusal s.params = none) (hf : s.fault = none) :
    takeTurn none s = .next (s.withSched []) := by
  rw [takeTurn, step_live (s := s.withSched none.toList) hp hf]
  rfl

/-- At rest no agent's step is enabled, so that every turn of an agent leaves the state (spec/70_reset_and_hazards.md
R338). -/
theorem exec_atRest {s : State} (h : atRest s) {i : Instr} (hi : i.channel = .agent) : exec i s = .next s := by
  obtain ⟨hf, he, hq, hv, ht, hh⟩ := h
  cases i with
  | shiftword v => exact agentStep_disabled hf (by simp [shiftEnabled, he])
  | dmabeat => exact agentStep_disabled hf (by simp [beatEnabled, hq])
  | cmpl hc => exact agentStep_disabled hf (by simp [cmplEnabled, hv])
  | produce h => exact agentStep_disabled hf (by simp [produceEnabled, hh])
  | wake t => exact agentStep_disabled hf (by simp [wakeEnabled, ht t, ThreadState.isBlocked])
  | sigintr t => exact agentStep_disabled hf (by simp [sigintrEnabled, ht t, ThreadState.isBlocked])
  | _ => cases hi

/-- A step that answers a next state is an idle turn, an illegal word recorded, or the instruction that the next turn
presents. -/
theorem step_cases {s t : State} (h : step s = .next t) :
    launchRefusal s.params = none ∧ s.fault = none ∧
      ((s.sched = [] ∧ t = s) ∨
        (∃ w rest, s.sched = .command w :: rest ∧ t = raise (.illegalCommand w) (s.withSched rest)) ∨
        (∃ x rest i, s.sched = x :: rest ∧ exec i (s.withSched rest) = .next t)) := by
  have hp : launchRefusal s.params = none := by
    unfold step at h
    split at h
    · cases h
    · assumption
  have hf : s.fault = none := by
    rw [step, hp] at h
    cases hs : s.fault with
    | none => rfl
    | some r => rw [hs] at h; cases h
  refine ⟨hp, hf, ?_⟩
  rw [step_live hp hf] at h
  rcases fetch_cases s with ⟨hs, e⟩ | ⟨w, rest, r, hs, _, e⟩ | ⟨w, rest, i, hs, _, e⟩ | ⟨w, v, rest, i, hs, _, e⟩ |
    ⟨w, v, rest, r, hs, _, e⟩ <;> rw [e] at h
  · exact .inl ⟨hs, (Host.Outcome.next.inj h).symm⟩
  · exact .inr (.inl ⟨w, rest, hs, (Host.Outcome.next.inj h).symm⟩)
  · exact .inr (.inr ⟨_, rest, i, hs, h⟩)
  · exact .inr (.inr ⟨_, rest, i, hs, h⟩)
  · cases h

end Sys2Proof.Machine
end

