-- ==== Sys2Proof/Tests/Slice0.lean ====
section
/-! SUPPORT. The model's own tests. Expected results are those of spec/95_test_vectors.md (the vector is named) or are
computed by hand from the rule named. The second part shows, for each statement with hypotheses, values that meet them. -/

namespace Sys2Proof.Tests

open Sys2Proof.Machine Sys2Proof.Claims

/-! ### States the tests start from -/

/-- What `f` shows of the state after one instruction, if it answers a next state. -/
def after {α : Type} (i : Instr) (s : State) (f : State → α) : Option α :=
  match exec i s with
  | .next t => some (f t)
  | _ => none

/-- What `f` shows of the state after one step. -/
def afterStep {α : Type} (s : State) (f : State → α) : Option α :=
  match step s with
  | .next t => some (f t)
  | _ => none

/-- Reset, with the next allocation attempt answered `ok`. -/
def answered (ok : Bool) : State := { State.reset with allocAnswers := [ok] }

/-- Reset with HANDLE_PRESENT = false. -/
def noHandle : State := State.resetWith { Params.reference with handlePresent := false }

/-- The state INIT leaves (spec/70_reset_and_hazards.md R336). -/
def running : State := initOp (answered true)

/-- The peripheral stopped while the channel is programmed. -/
def stopped : State := { running with
  fx := { running.fx with en := false }, dma := { running.dma with ch := { running.dma.ch with erq := false } } }

/-- Running, the wire word `v` waiting, and CITER = `c` with its destination address. -/
def waiting (c : Nat) (v : Word) : State := { running with
  fx := { running.fx with shbuf := bitrev32 v, shstat := { running.fx.shstat with ssf := true } }
  dma := { running.dma with tcd :=
    { running.dma.tcd with citer := BitVec.ofNat 16 c, daddr := 0x20000000 + BitVec.ofNat 32 (4 * (512 - c)) } } }

/-- The event `hc` pending. -/
def pending (hc : Half) (s : State) : State := { s with dma := { s.dma with evq := [hc] } }

/-- The FIFO holds one entry, (0, 1), whose half is valid. -/
def oneEntry : State := { State.reset with
  fifo := { State.reset.fifo with slot := #v[some ⟨0, 1⟩, none], tail := 1 }
  track := ⟨#v[1, 0], #v[true, false], #v[false, false]⟩ }

/-- The completion handler is handing half `h` off. -/
def handing (h : Half) (s : State) : State := { s with handing := some h }

/-- Thread 3 is blocked with room for 192 bytes, and `sem` signals are posted. -/
def blocked3 (sem : Nat) (s : State) : State :=
  { s with fifo := { s.fifo with waiters := 1, sem := sem } }.withTs 3 (.blocked 192)

/-- OVR set. -/
def overrun (s : State) : State := { s with fifo := { s.fifo with ovr := true } }

/-- A setting with one frame to a half, so that a batch is three words. -/
def wide : Params := { Params.reference with frameWords := 256, timbPeriodBits := 8192 }

/-- That setting, with the first words of half 0 those of the frame F_C, word 3 being `w`. -/
def frameC (w : Word) : State := { State.resetWith wide with
  mem := Memory.storeWords [] .little 0x20000000 [0x12345678, 0x9ABCDEF0, 0x12000000, w] }

/-! ### Words that are refused (R101, R104, R107; V-ENC-31 to V-ENC-35) -/

/-- No internal event is well formed on the command port, and no command as an agent's step. -/
theorem test_illformed_channel :
    ([Instr.shiftword 0, .dmabeat, .cmpl 0, .produce 0, .wake 0, .sigintr 0].all
      fun i => !i.wellFormed .port && i.wellFormed .agent) = true ∧
    ([Instr.fxreset, .settima 0, .decode 0, .consume 0 false 0].all
      fun i => i.wellFormed .port && !i.wellFormed .agent) = true := by decide

/-- Each of the six event words is refused on the port, and 0x82 on both channels. -/
theorem test_illformed_event_on_port :
    decodePort 0x80000000 = .error (.internalEvent 0x80000000) ∧
    decodePort 0x81000000 = .error (.internalEvent 0x81000000) ∧
    decodePort 0x83000000 = .error (.internalEvent 0x83000000) ∧
    decodePort 0x84000000 = .error (.internalEvent 0x84000000) ∧
    decodePort 0x85000000 = .error (.internalEvent 0x85000000) ∧
    decodePort 0x86000000 = .error (.internalEvent 0x86000000) ∧
    decodePort 0x82000000 = .error (.internalEvent 0x82000000) ∧
    decodeEvent 0x82000000 0 = .error (.unknownOpcode 0x82000000) := by decide

/-- The reserved bits of each format: N, H, C, T, W. Format Q has none. -/
theorem test_illformed_reserved_bits :
    decodePort 0x01000001 = .error (.reservedBits 0x01000001) ∧
    decodePort 0x31000002 = .error (.reservedBits 0x31000002) ∧
    decodePort 0x03010000 = .error (.reservedBits 0x03010000) ∧
    decodeEvent 0x85060001 0 = .error (.reservedBits 0x85060001) ∧
    decodeEvent 0x80000001 7 = .error (.reservedBits 0x80000001) := by decide

/-- Reserved opcodes (V-ENC-31, V-ENC-35), a host word as an event, and a SHIFTWORD with no payload. -/
theorem test_illformed_opcode :
    decodePort 0x00000000 = .error (.unknownOpcode 0x00000000) ∧
    decodePort 0x43000000 = .error (.unknownOpcode 0x43000000) ∧
    decodeEvent 0x01000000 0 = .error (.unknownOpcode 0x01000000) ∧
    decode [0x80000000] = .error .truncated := by decide

/-! ### Words from the spec (V-ENC-1 to V-ENC-30) -/

theorem test_decode_peripheral :
    decode [0x01000000] = .ok (.fxreset, []) ∧ decode [0x02000000] = .ok (.setshift, []) ∧
    decode [0x03001F03] = .ok (.settima 0x1F03, []) ∧ decode [0x040001FF] = .ok (.settimb 0x01FF, []) ∧
    decode [0x05000000] = .ok (.sdmaen, []) ∧ decode [0x06000000] = .ok (.sclr, []) ∧
    decode [0x07000000] = .ok (.fxenable, []) ∧ decode [0x08000000] = .ok (.getbuf, []) ∧
    decode [0x09000000] = .ok (.fxdisable, []) := by decide

theorem test_decode_dma_and_composite :
    decode [0x10000000] = .ok (.dalloc, []) ∧ decode [0x11000000] = .ok (.dsetup, []) ∧
    decode [0x12000000] = .ok (.dstart, []) ∧ decode [0x13000000] = .ok (.dstop, []) ∧
    decode [0x14000000] = .ok (.dfree, []) ∧ decode [0x18000000] = .ok (.cinv, []) ∧
    decode [0x20000000] = .ok (.init, []) ∧ decode [0x21000000] = .ok (.start, []) ∧
    decode [0x22000000] = .ok (.stop, []) ∧ decode [0x31000001] = .ok (.decode 1, []) := by decide

theorem test_decode_read_port :
    decode [0x410200C0] = .ok (.consume 1 false 192, []) ∧ decode [0x410500C0] = .ok (.consume 2 true 192, []) ∧
    decode [0x41FFFFFF] = .ok (.consume 127 true 65535, []) ∧ decode [0x410000C0] = .ok (.consume 0 false 192, []) ∧
    decode [0x42000000] = .ok (.fiforst, []) := by decide

theorem test_decode_events :
    decode [0x80000000, 0x7FFFFF80, 5] = .ok (.shiftword 0x7FFFFF80, [5]) ∧
    decode [0x81000000, 5] = .ok (.dmabeat, [5]) ∧ decode [0x83000000] = .ok (.cmpl 0, []) ∧
    decode [0x83000001] = .ok (.cmpl 1, []) ∧ decode [0x84000000] = .ok (.produce 0, []) ∧
    decode [0x85060000] = .ok (.wake 3, []) ∧ decode [0x86060000] = .ok (.sigintr 3, []) := by decide

/-- The table's numbering: the word in bits 31:0, the payload in bits 63:32. -/
theorem test_decodeTableWord :
    decodeTableWord 64 0x7FFFFF8080000000 = some (.shiftword 0x7FFFFF80) ∧
    decodeTableWord 32 0x80000000 = some (.shiftword 0) ∧ decodeTableWord 32 0x83000001 = some (.cmpl 1) ∧
    decodeTableWord 32 0x43000000 = none := by decide

/-! ### Primitives (V-PRIM-1 to V-PRIM-9, V-SRC-1) -/

theorem test_bitrev32 : bitrev32 0x00000001 = 0x80000000 ∧ bitrev32 0x12345678 = 0x1E6A2C48 ∧
    bitrev32 0x7FFFFF80 = 0x01FFFFFE ∧ bitrev32 0x0F0F0F0F = 0xF0F0F0F0 := by decide +kernel

theorem test_shifts : asr 0x80000000 31 = 0xFFFFFFFF ∧ lsr 0x80000000 31 = 0x00000001 ∧ lsl 0x876543 8 = 0x87654300 := by
  decide

theorem test_sext24 : sext24 0x800000 = 0xFF800000 ∧ sext24 0x7FFFFF = 0x007FFFFF ∧ sext24 0xFFFFFF = 0xFFFFFFFF ∧
    sext24 0 = 0 ∧ sext24 0x876543 = 0xFF876543 ∧ sext24 0x123456 = 0x00123456 ∧ sext24 0xABCDEF = 0xFFABCDEF := by
  decide +kernel

/-! ### One step of each instruction -/

/-- V-CFG-1. -/
theorem test_fxreset : after .fxreset { running with fx :=
      { running.fx with shstat := ⟨true, true, true⟩, shbuf := 5 } } (fun t => (t.fx, t.respOf 0, t.dma.ch.erq)) =
    some (.reset, some (.ok []), true) := by decide

/-- V-CFG-2. -/
theorem test_setshift : after .setshift State.reset (fun t => t.fx.shcfg) =
    some ⟨.receive, .pin, 0, .outputDisabled, .none, .none, .timerA⟩ := by decide

/-- V-CFG-3. -/
theorem test_setshift_enabled : after .setshift running (fun t => (t.fault, t.fx, t.respOf 0)) =
    some (some (.configInvalid 0x02000000), running.fx, none) := by decide

/-- V-CFG-4: half-period 32; V-CFG-5: half-period 1. -/
theorem test_settima : after (.settima 0x1F03) State.reset (fun t => (t.fx.tima, halfPeriod t.fx.tima.cmp)) =
      some (⟨.dual8Baud, .freeRunning, 0x1F03⟩, 32) ∧
    after (.settima 0) State.reset (fun t => halfPeriod t.fx.tima.cmp) = some 1 := by decide

/-- V-CFG-6, and the record of R134. -/
theorem test_settimb : after (.settimb 0x01FF) noHandle (fun t => (t.fault, t.fx)) =
      some (some (.fatalNoHandle 0x040001FF), .reset) ∧
    after (.settimb 0x01FF) State.reset (fun t => t.fx.timb) =
      some ⟨.single16, .onTimAEnable, .timAOutput, 0x01FF⟩ := by decide

/-- R135. -/
theorem test_sdmaen : after .sdmaen State.reset (fun t => t.fx.shstat) = some ⟨false, false, true⟩ := by decide

/-- V-CFG-19. -/
theorem test_sclr : after .sclr { State.reset with fx := { State.reset.fx with shstat := ⟨true, true, false⟩, shbuf := 5 } }
    (fun t => (t.fx.shstat, t.fx.shbuf)) = some (⟨false, false, false⟩, 5) := by decide

/-- V-CFG-7 and V-CFG-8. -/
theorem test_fxenable : after .fxenable State.reset (fun t => (t.fault, t.fx.en)) =
      some (some (.configInvalid 0x07000000), false) ∧
    after .fxenable stopped (fun t => (t.fault, t.fx.en)) = some (none, true) := by decide

/-- V-CFG-13. -/
theorem test_getbuf : after .getbuf State.reset (fun t => (t.respOf 0, t.fx, t.fault)) =
    some (some (.addr 0x401B0380), .reset, none) := by decide

/-- V-CFG-20. -/
theorem test_fxdisable : after .fxdisable (waiting 512 5) (fun t => (t.fx.en, t.fx.shstat, t.sreq)) =
    some (false, ⟨true, false, false⟩, false) := by decide

/-- V-CFG-10, and the draw that grants the channel (R140). -/
theorem test_dalloc : after .dalloc (answered false) (fun t => (t.fault, t.dma.ch.alloc, t.draws)) =
      some (some (.fatalDmaAlloc 0), false, 1) ∧
    after .dalloc (answered true) (fun t => (t.fault, t.dma.ch)) = some (none, ⟨true, .shifter, false, false⟩) := by decide

/-- V-CFG-11: no draw. -/
theorem test_dalloc_again : after .dalloc running (fun t => (t.dma, t.draws, t.respOf 0)) =
    some (running.dma, 1, some (.ok [])) := by decide

/-- V-CFG-9 and V-CFG-12. -/
theorem test_dsetup : after .dsetup State.reset (fun t => t.fault) = some (some (.configInvalid 0x11000000)) ∧
    after .dsetup stopped (fun t => (t.dma.tcd, t.dma.ch.tcdv)) =
      some (⟨0x401B0380, 0, .w32, .w32, 4, 0, 0x20000000, 4, 512, 512, -2048, true, true, .none, false⟩, true) := by decide

/-- V-CFG-18, and R142. -/
theorem test_dstart : after .dstart State.reset (fun t => t.fault) = some (some (.configInvalid 0x12000000)) ∧
    after .dstart stopped (fun t => t.dma.ch.erq) = some true := by decide

/-- V-CFG-21. -/
theorem test_dstop : after .dstop (pending 0 (waiting 200 5)) (fun t => (t.dma.ch.erq, t.dma.evq, t.dma.tcd.citer)) =
    some (false, [], 200) := by decide

/-- V-CFG-17, and R144. -/
theorem test_dfree : after .dfree running (fun t => t.fault) = some (some (.configInvalid 0x14000000)) ∧
    after .dfree stopped (fun t => t.dma.ch) = some ⟨false, .none, false, false⟩ := by decide

/-- V-CFG-22. -/
theorem test_cinv : after .cinv running (fun t => (t.fx, t.dma, t.respOf 0)) =
    some (running.fx, running.dma, some (.ok [])) := by decide

/-- V-CFG-24. -/
theorem test_init_no_channel : after .init (answered false)
    (fun t => ((t.fx.shcfg.mode, t.fx.tima.cmp, t.fx.timb.cmp), t.fx.en, t.dma.ch.alloc, t.fault)) =
    some ((.receive, 0x1F03, 0x01FF), false, false, some (.fatalDmaAlloc 0)) := by decide

/-- V-CFG-23. -/
theorem test_init_no_handle : after .init noHandle (fun t => (t.fault, t.fx, t.dma)) =
    some (some (.fatalNoHandle 0), .reset, .reset) := by decide

/-- V-CFG-15. -/
theorem test_start : after .start { answered true with fifo := { State.reset.fifo with head := 1, ovr := true } }
    (fun t => ((t.fifo.head, t.fifo.tail, t.fifo.ovr), t.fx.en, t.dma.ch.erq, t.dma.tcd.citer, t.dma.tcd.daddr)) =
    some ((0, 0, false), true, true, 512, 0x20000000) := by decide

/-- V-CFG-14, the second START. -/
theorem test_start_again : after .start running (fun t => t.fault) = some (some (.reinitActive 0x20000000)) := by decide

/-- V-CFG-16. -/
theorem test_stop : after .stop running (fun t => (t.fx.en, t.fx.shstat.ssde, t.dma.ch, t.dma.evq)) =
    some (false, false, ⟨false, .none, false, false⟩, []) := by decide

/-- V-CAP-1. -/
theorem test_shiftword : after (.shiftword 0x7FFFFF80) running (fun t => (t.fx.shbuf, t.fx.shstat.ssf)) =
    some (0x01FFFFFE, true) := by decide +kernel

/-- V-CAP-2. -/
theorem test_shiftword_overrun : after (.shiftword 1) (waiting 512 5)
    (fun t => (t.fx.shstat.sef, t.fx.shbuf, t.fault)) =
    some (true, 0x80000000, some (.shifterOverrun 1)) := by decide +kernel

/-- V-CAP-4. -/
theorem test_dmabeat : after .dmabeat (waiting 512 0x7FFFFF80) (fun t =>
      ((t.raw 0, t.fx.shstat.ssf), t.dma.tcd.daddr, t.dma.tcd.citer, t.track.wse[0], t.dma.evq)) =
    some ((0x7FFFFF80, false), 0x20000004, 511, true, []) := by decide +kernel

/-- V-CAP-6, the wrap. -/
theorem test_dmabeat_wraps : after .dmabeat (waiting 1 5) (fun t =>
      (t.raw 511, t.dma.tcd.citer, t.dma.tcd.daddr, t.track.wse[1], t.dma.evq)) =
    some (5, 512, 0x20000000, false, [1]) := by decide +kernel

/-- V-CMPL-3. -/
theorem test_cmpl_late : after (.cmpl 0) (pending 0 { running with track := { running.track with wse := #v[true, false] } })
    (fun t => (t.dma.evq, t.fault)) = some ([], some (.decodeLate 0)) := by decide

/-- V-CMPL-1: steering, tracking and hand-off, on the frame F_C (V-DEC-3). -/
theorem test_cmpl : after (.cmpl 0) (pending 0 (frameC 0)) (fun t =>
      ((t.raw 2, t.track.gen[0], t.track.valid[0]), t.fifo.slot[0], t.fifo.tail, t.fifo.pollnote, t.dma.evq)) =
    some ((0xFFDEF012, 1, true), some ⟨0, 1⟩, 1, 1, []) := by decide +kernel

/-- V-DEC-3. -/
theorem test_decode : after (.decode 0) (frameC 0) (fun t => (t.raw 0, t.raw 1, t.raw 2, t.track.gen[0])) =
    some (0x00123456, 0x00789ABC, 0xFFDEF012, 1) := by decide +kernel

/-- V-DEC-7. -/
theorem test_decode_running : after (.decode 0) running (fun t => (t.fault, t.mem)) =
    some (some (.configInvalid 0x31000000), []) := by decide

/-- V-DEC-1, V-DEC-2 and V-DEC-4: one frame of each. -/
theorem test_frameSamples :
    frameSamples .reference (fun k => [0x7FFFFF80, 0x0000FFFF, 0xFF000000].getD k 0) 0 =
      [0x007FFFFF, 0xFF800000, 0xFFFFFFFF] ∧
    frameSamples .reference (fun k => [0x000000FF, 0xFFFF8000, 0].getD k 0) 0 = [0, 0xFFFFFFFF, 0xFF800000] ∧
    frameSamples .reference (fun k => [0x000000AB, 0xCDEF0012, 0x34560000].getD k 0) 0 = [0, 0xFFABCDEF, 0x00001234] := by
  decide

/-- V-FIFO-1. -/
theorem test_produce : after (.produce 0) (handing 0 { oneEntry with fifo := .reset })
      (fun t => (t.fifo.slot[0], t.fifo.tail, t.fifo.ovr)) =
    some (some ⟨0, 1⟩, 1, false) := by decide

/-- V-FIFO-2. -/
theorem test_produce_full : after (.produce 1) (handing 1 oneEntry)
      (fun t => (t.fifo.slot[0], t.fifo.tail, t.fifo.ovr)) =
    some (some ⟨0, 1⟩, 1, true) := by decide

/-- V-RD-5 and V-RD-8. -/
theorem test_consume_empty : after (.consume 2 true 192) State.reset (fun t => (t.respOf 2, t.fifo)) =
      some (some (.err .eagain), .reset) ∧
    after (.consume 3 false 192) State.reset (fun t => (t.tsOf 3, t.fifo.waiters, t.respOf 3)) =
      some (.blocked 192, 1, none) := by decide

/-- V-RD-3, with the one frame F_C: its bytes are those of program P3. -/
theorem test_consume_batch : after (.consume 1 false 12) { frameC 0 with
      mem := Memory.storeWords [] .little 0x20000000 [0x00123456, 0x00789ABC, 0xFFDEF012]
      fifo := oneEntry.fifo, track := oneEntry.track } (fun t => (t.respOf 1, t.fifo.head)) =
    some (some (.ok [0x56, 0x34, 0x12, 0x00, 0xBC, 0x9A, 0x78, 0x00, 0x12, 0xF0, 0xDE, 0xFF]), 1) := by decide

/-- V-RST-2. -/
theorem test_fiforst : after .fiforst (overrun oneEntry) (fun t => (t.fifo.head, t.fifo.tail, t.fifo.ovr)) =
    some (1, 1, true) := by decide

/-- V-WAKE-1, but for the bytes, and V-WAKE-2. -/
theorem test_wake : after (.wake 3) (blocked3 1 oneEntry)
      (fun t => (t.fifo.sem, t.fifo.waiters, t.tsOf 3, t.fifo.head)) = some (0, 0, .idle, 1) ∧
    after (.wake 3) (blocked3 1 State.reset) (fun t => (t.fifo.sem, t.fifo.waiters, t.tsOf 3)) =
      some (0, 1, .blocked 192) := by decide

/-- V-WAKE-3. -/
theorem test_wake_overrun : after (.wake 3) (blocked3 1 (overrun State.reset))
    (fun t => (t.fifo.sem, t.fifo.waiters, t.fifo.ovr, t.respOf 3, t.tsOf 3)) =
    some (0, 0, false, some (.err .eio), .idle) := by decide

/-- V-INT-2. -/
theorem test_sigintr : after (.sigintr 3) (blocked3 1 State.reset)
    (fun t => (t.fifo.waiters, t.fifo.sem, t.tsOf 3, t.respOf 3)) = some (0, 1, .idle, some (.err .eintr)) := by decide

/-- V-ENC-33 and V-ENC-32: what the port refuses faults ILLEGAL_COMMAND. -/
theorem test_illegal_command :
    afterStep { State.reset with sched := [.command 0x83000000] } (fun t => t.fault) =
      some (some (.illegalCommand 0x83000000)) ∧
    afterStep { State.reset with sched := [.command 0x01000001] } (fun t => t.fault) =
      some (some (.illegalCommand 0x01000001)) := by decide

/-- R250: from reset a PRODUCE turn is no step, and the first instruction that `withFetchWord` places is one. -/
theorem test_produce_only_in_handler :
    afterStep { State.reset with sched := [.event 0x84000000 0] } (fun t => t.fifo) = some .reset ∧
    afterStep (State.reset.withFetchWord 32 0x84000001) (fun t => (t.fifo.slot[0], t.handing)) =
      some (some ⟨1, 0⟩, none) := by decide

/-- R338: a reader's CONSUME may be left at the end of a run, a command of the HOST and its own read may not. -/
theorem test_isHostCommand : (Turn.command 0x410200C0).isHostCommand = false ∧
    (Turn.command 0x410000C0).isHostCommand = true ∧ (Turn.command 0x22000000).isHostCommand = true ∧
    (Turn.event 0x81000000 0).isHostCommand = false := by decide

/-- R338: reset with no turn left is the end of a run, also with a reader's CONSUME to come. It is no end with a START to
come, nor inside the handler's hand-off, where a step is left. -/
theorem test_isRunEnd : isRunEnd State.reset ∧ isRunEnd { State.reset with sched := [.command 0x410200C0] } ∧
    ¬ isRunEnd { State.reset with sched := [.command 0x21000000] } ∧
    ¬ isRunEnd (State.reset.withFetchWord 32 0x84000001) := by
  unfold isRunEnd atRest
  decide

/-! ### Values that meet the hypotheses of the statements, one theorem per statement, every clause in it -/

/-- EncodeDecodeAgree. -/
theorem witness_decodes : decode [0x410200C0, 9] = .ok (.consume 1 false 192, [9]) ∧
    decode [0x80000000, 3, 9] = .ok (.shiftword 3, [9]) := by decide

/-- StepRunsTurn and EncodedInstructionRuns: a command, an event with its payload, and no turn. -/
theorem witness_turns :
    launchRefusal State.reset.params = none ∧ State.reset.fault = none ∧ State.reset.sched = [] ∧
    (Instr.getbuf.wellFormed .port = true ∧ decodePort Instr.getbuf.word = .ok .getbuf ∧
      { State.reset with sched := [.command 0x08000000] }.sched = .command Instr.getbuf.word :: []) ∧
    ((Instr.shiftword 7).wellFormed .agent = true ∧ decodeEvent (Instr.shiftword 7).word 7 = .ok (.shiftword 7) ∧
      { State.reset with sched := [.event 0x80000000 7] }.sched =
        .event (Instr.shiftword 7).word ((Instr.shiftword 7).payload.headD 0) :: []) := by decide

/-- RejectedWordFaults: a reserved opcode, a reserved bit of each format, an event word. PortTakesHostWords: the largest
accepted word of each format. -/
theorem witness_rejected_words :
    (¬ acceptedWord 0x00000000 ∧ ¬ acceptedWord 0x43000000 ∧ ¬ acceptedWord 0x01000001 ∧ ¬ acceptedWord 0x03010000) ∧
    (¬ acceptedWord 0x31000002 ∧ ¬ acceptedWord 0x83000000 ∧ ¬ acceptedWord 0xFFFFFFFF) ∧
    (acceptedWord 0x42000000 ∧ acceptedWord 0x0400FFFF ∧ acceptedWord 0x31000001 ∧ acceptedWord 0x41FFFFFF) := by
  simp [acceptedWord, opcode, bits]

/-- A run that starts with the fault `r` recorded. -/
def faultedRun (r : FaultRecord) : Run where
  state _ := { State.reset with fault := some r }
  turn _ := none
  launched := by show launchRefusal Params.reference = none; decide
  steps _ := .inr ⟨by simp, rfl⟩

/-- FaultIsTerminal: a faulted state that could be launched, and a run that holds it. -/
theorem witness_fault : { State.reset with fault := some (.illegalCommand 0) }.fault = some (.illegalCommand 0) ∧
    launchRefusal { State.reset with fault := some (.illegalCommand 0) }.params = none ∧
    (faultedRun (.illegalCommand 0)).state 7 = { State.reset with fault := some (.illegalCommand 0) } :=
  ⟨by decide, by decide, rfl⟩

/-- BadSettingRefused: 24 bits from offset 489 do not fit a frame of 512, those from 488 do; and WRITE_BACK. -/
theorem witness_settings :
    ¬ (∀ o ∈ (State.resetWith { Params.reference with sampleOffsets := [0, 24, 489] }).params.sampleOffsets, o + 24 ≤ 32 * 16) ∧
    admissible { Params.reference with sampleOffsets := [0, 24, 488] } = true ∧
    (State.resetWith { Params.reference with cachePolicy := .writeBack }).params.cachePolicy = .writeBack := by decide

/-- ResetEnablesCommandsOnly: a command, and the smallest capacity with room for a batch. -/
theorem witness_reset_commands : (Instr.consume 2 true 192).channel = .port ∧
    batchBytes .reference ≤ (192 : BitVec 16).toNat := by decide

/-- The statements about the commands of the peripheral: without a handle; with one, stopped and enabled, configured and
not. -/
theorem witness_peripheral :
    (noHandle.fault = none ∧ noHandle.params.handlePresent = false) ∧
    (State.reset.fault = none ∧ State.reset.params.handlePresent = true ∧ State.reset.fx.en = false ∧
      ¬ (State.reset.fx.shcfg.mode = .receive ∧ State.reset.fx.tima.mode = .dual8Baud ∧ State.reset.fx.timb.mode = .single16)) ∧
    (running.fault = none ∧ running.params.handlePresent = true ∧ running.fx.en = true ∧
      (running.fx.shcfg.mode = .receive ∧ running.fx.tima.mode = .dual8Baud ∧ running.fx.timb.mode = .single16)) := by decide

/-- DallocFollowsDraw: a channel held, and both draws. -/
theorem witness_dalloc : (running.fault = none ∧ running.dma.ch.alloc = true) ∧
    ((answered true).fault = none ∧ (answered true).dma.ch.alloc = false ∧ allocDraw (answered true) = true) ∧
    ((answered false).fault = none ∧ (answered false).dma.ch.alloc = false ∧ allocDraw (answered false) = false) := by decide

/-- DsetupProgramsTransfer: each reason to refuse alone, and none. -/
theorem witness_dsetup : State.reset.dma.ch.alloc = false ∧ running.dma.ch.erq = true ∧
    { stopped with params := { stopped.params with rawBufBase := 0x20000002 } }.params.rawBufBase.toNat % 4 ≠ 0 ∧
    { stopped with params := { stopped.params with shiftBufBisAddr := 0x401B0381 } }.params.shiftBufBisAddr.toNat % 4 ≠ 0 ∧
    (stopped.fault = none ∧ stopped.dma.ch.alloc = true ∧ stopped.dma.ch.erq = false ∧
      stopped.params.rawBufBase.toNat % 4 = 0 ∧ stopped.params.shiftBufBisAddr.toNat % 4 = 0) := by decide

/-- DstartNeedsTransfer, DstopDropsEvents, DfreeNeedsStoppedChannel, CinvChangesNoValue. -/
theorem witness_channel : (State.reset.fault = none ∧ State.reset.dma.ch.tcdv = false) ∧
    (stopped.fault = none ∧ stopped.dma.ch.tcdv = true ∧ stopped.dma.ch.erq = false) ∧
    (running.fault = none ∧ running.dma.ch.erq = true) := by decide

/-- InitBringsUpBlock, PrimitiveBringUpEqualsInit, StartClearsFifo, StopTearsDown: a session already active, no handle, a
channel held, granted and refused. -/
theorem witness_session :
    (running.fault = none ∧ running.fx.en = true ∧ running.params.handlePresent = true) ∧
    (noHandle.fault = none ∧ noHandle.fx.en = false ∧ noHandle.dma.ch.erq = false ∧ noHandle.params.handlePresent = false) ∧
    (stopped.fault = none ∧ stopped.fx.en = false ∧ stopped.dma.ch.erq = false ∧ stopped.params.handlePresent = true ∧
      admissible stopped.params = true ∧ stopped.params.rawBufBase.toNat % 4 = 0 ∧
      stopped.params.shiftBufBisAddr.toNat % 4 = 0 ∧ stopped.dma.ch.alloc = true) ∧
    (∀ ok, (answered ok).fault = none ∧ (answered ok).fx.en = false ∧ (answered ok).dma.ch.erq = false ∧
      (answered ok).params.handlePresent = true ∧ admissible (answered ok).params = true ∧
      (answered ok).params.rawBufBase.toNat % 4 = 0 ∧ (answered ok).params.shiftBufBisAddr.toNat % 4 = 0 ∧
      (answered ok).dma.ch.alloc = false ∧ allocDraw (answered ok) = ok) := by decide

/-- PrimitivesBitByBit: the sign bit of a field; ReferenceFrameSlices. -/
theorem witness_primitives : (31 < 32 ∧ (0x00FFFFFF : Word).toNat < 2 ^ 24) ∧
    (Params.reference.frameWords = 16 ∧ Params.reference.sampleOffsets = [0, 24, 48]) := by decide

/-- DecodeWritesBatch: the channel running, and stopped. -/
theorem witness_decode : (running.fault = none ∧ running.dma.ch.erq = true) ∧
    (State.reset.fault = none ∧ State.reset.dma.ch.erq = false ∧ admissible State.reset.params = true) ∧
    (15 < 256 / State.reset.params.frameWords ∧ 2 < 3) := by decide

/-- OtherBitsDoNotMatter: two states that differ in a word outside the samples. -/
theorem witness_other_bits : (frameC 0).mem ≠ (frameC 1).mem ∧ (frameC 0).params = (frameC 1).params ∧
    admissible (frameC 0).params = true ∧
    (∀ f < 256 / wide.frameWords, ∀ c < 3, ∀ i < 24,
      let k := 32 * wide.frameWords * f + wide.sampleOffsets.getD c 0 + i
      ((frameC 0).raw (256 * 0 + k / 32)).getLsbD (31 - k % 32) =
        ((frameC 1).raw (256 * 0 + k / 32)).getLsbD (31 - k % 32)) ∧
    (frameC 0).dma.ch.erq = false ∧ (frameC 1).dma.ch.erq = false ∧
    (after (.decode 0) (frameC 0) fun _ => ()) = some () ∧ (after (.decode 0) (frameC 1) fun _ => ()) = some () := by
  decide +kernel

/-- ShiftwordDeliversWord: a buffer read, and one not yet read. -/
theorem witness_shiftword :
    (running.fault = none ∧ running.fx.en = true ∧ running.fx.shcfg.mode = .receive ∧ running.fx.shstat.ssf = false) ∧
    ((waiting 512 5).fault = none ∧ (waiting 512 5).fx.en = true ∧ (waiting 512 5).fx.shcfg.mode = .receive ∧
      (waiting 512 5).fx.shstat.ssf = true) := by decide

/-- DmabeatMovesWord and DmabeatRaisesEvents: the first beat, those at and beside the two events, each event pending and
not. -/
theorem witness_beats :
    beatReady (waiting 512 5) ∧ beatReady (waiting 258 5) ∧ beatReady (waiting 257 5) ∧ beatReady (waiting 256 5) ∧
    beatReady (waiting 1 5) ∧ beatReady (pending 0 (waiting 257 5)) ∧ beatReady (pending 1 (waiting 1 5)) ∧
    0 ∈ (pending 0 (waiting 257 5)).dma.evq ∧ 0 ∉ (pending 1 (waiting 257 5)).dma.evq ∧
    beatHalf (waiting 257 5) = 0 ∧ beatHalf (waiting 256 5) = 1 ∧ beatIndex (waiting 1 5) = 511 := by
  unfold beatReady tcdAt
  decide +kernel

/-- CaptureWritesWordsInOrder: from the state INIT leaves, with no word and with 512. -/
theorem witness_capture : beatReady { running with fx := { running.fx with shstat := { running.fx.shstat with ssf := true } } } ∧
    running.fx.shstat.ssf = false ∧ running.fx.en = true ∧ running.fx.shcfg.mode = .receive ∧
    running.dma.tcd.citer = 512 ∧ running.dma.evq = [] ∧ ([] : List Word).length ≤ 512 ∧
    (List.replicate 512 (5 : Word)).length ≤ 512 := by
  unfold beatReady tcdAt
  decide +kernel

/-- DisabledTurnChangesNothing: every agent's step is off at reset; a thread blocked with no signal posted. -/
theorem witness_disabled : State.reset.fault = none ∧ State.reset.fx.en = false ∧ State.reset.fx.shstat.ssf = false ∧
    State.reset.dma.evq.head? ≠ some 0 ∧ State.reset.handing ≠ some 0 ∧ State.reset.tsOf 3 = .idle ∧
    (blocked3 0 State.reset).tsOf 3 = .blocked 192 ∧ (blocked3 0 State.reset).fifo.sem = 0 := by decide

/-- CmplDecodesAndHandsOff: the half written since, and not; the FIFO empty, and full. -/
theorem witness_cmpl :
    (let s := pending 1 { running with track := { running.track with wse := #v[false, true] } };
      s.fault = none ∧ s.dma.evq = 1 :: [] ∧ s.track.wse[1] = true) ∧
    (let s := pending 0 running;
      s.fault = none ∧ s.dma.evq = 0 :: [] ∧ s.track.wse[0] = false ∧ admissible s.params = true ∧ s.fifo.head = s.fifo.tail) ∧
    (let s := pending 1 oneEntry;
      s.fault = none ∧ s.dma.evq = 1 :: [] ∧ s.track.wse[1] = false ∧ admissible s.params = true ∧ s.fifo.head ≠ s.fifo.tail) := by
  decide

/-- ProduceStoresOrDrops and FifoKeepsFirstBatch: the FIFO full, and empty. -/
theorem witness_produce :
    (let s := handing 1 oneEntry;
      s.fault = none ∧ s.handing = some 1 ∧ s.fifo.tail + 1 = s.fifo.head) ∧
    (let s := handing 0 State.reset;
      s.fault = none ∧ s.handing = some 0 ∧ s.fifo.tail + 1 ≠ s.fifo.head ∧ s.fifo.head = s.fifo.tail) := by decide

/-- ConsumeByBlockedThreadFaults, SmallReadReturnsNothing, ReadOfEmptyFifo, ReadAfterFiforst: the boundary of the
capacity, and the three ends of a read of an empty FIFO. -/
theorem witness_reads : ((blocked3 0 State.reset).fault = none ∧ (blocked3 0 State.reset).tsOf 3 ≠ .idle) ∧
    (State.reset.fault = none ∧ State.reset.tsOf 1 = .idle ∧ (191 : BitVec 16).toNat < batchBytes State.reset.params ∧
      batchBytes State.reset.params ≤ (192 : BitVec 16).toNat ∧ State.reset.fifo.head = State.reset.fifo.tail ∧
      State.reset.fifo.ovr = false) ∧
    ((overrun State.reset).fault = none ∧ (overrun State.reset).tsOf 1 = .idle ∧
      (overrun State.reset).fifo.head = (overrun State.reset).fifo.tail ∧ (overrun State.reset).fifo.ovr = true) := by decide

/-- ReadDeliversBatch: an entry that is valid, one decoded again, one whose half was written. -/
theorem witness_entry : oneEntry.fault = none ∧ oneEntry.tsOf 1 = .idle ∧
    batchBytes oneEntry.params ≤ (65535 : BitVec 16).toNat ∧ oneEntry.fifo.head ≠ oneEntry.fifo.tail ∧
    oneEntry.fifo.slot[oneEntry.fifo.head] = some ⟨0, 1⟩ ∧
    (1 = oneEntry.track.gen[0] ∧ oneEntry.track.valid[0] = true) ∧
    1 ≠ { oneEntry with track := { oneEntry.track with gen := #v[2, 0] } }.track.gen[0] ∧
    { oneEntry with track := { oneEntry.track with valid := #v[false, false] } }.track.valid[0] = false := by decide

/-- BatchIsLittleEndian: the last byte of a batch. -/
theorem witness_bytes : State.reset.params.byteOrder = .little ∧ admissible State.reset.params = true ∧
    47 < 256 / State.reset.params.frameWords * 3 ∧ 3 < 4 := by decide

/-- ReadNeverPartial: a result of no byte, and one of a batch. -/
theorem witness_results : after (.consume 1 false 0) State.reset (fun t => (t.respOf 1, State.reset.respOf 1)) =
      some (some (.ok []), none) ∧
    oneEntry.respOf 1 = none ∧ after (.consume 1 false 192) oneEntry (fun t =>
      match t.respOf 1 with
      | some (.ok bytes) => bytes.length
      | _ => 0) = some 192 := by decide +kernel

/-- WakeEndsOrResumesWait and SigintrInterruptsWait: every end of the wait. -/
theorem witness_wake :
    ((blocked3 1 State.reset).fault = none ∧ (blocked3 1 State.reset).tsOf 3 = .blocked 192 ∧
      0 < (blocked3 1 State.reset).fifo.sem ∧ 0 < (blocked3 1 State.reset).fifo.waiters ∧
      (blocked3 1 State.reset).fifo.head = (blocked3 1 State.reset).fifo.tail ∧ (blocked3 1 State.reset).fifo.ovr = false) ∧
    ((blocked3 1 (overrun State.reset)).tsOf 3 = .blocked 192 ∧ (blocked3 1 (overrun State.reset)).fifo.ovr = true) ∧
    (let s := blocked3 1 oneEntry;
      s.fault = none ∧ s.tsOf 3 = .blocked 192 ∧ 0 < s.fifo.sem ∧ 0 < s.fifo.waiters ∧ s.fifo.head ≠ s.fifo.tail ∧
        s.fifo.slot[s.fifo.head] = some ⟨0, 1⟩ ∧ batchBytes s.params ≤ 192 ∧ 1 = s.track.gen[0] ∧ s.track.valid[0] = true) ∧
    (let s := { blocked3 1 oneEntry with track := { oneEntry.track with gen := #v[2, 0] } };
      s.tsOf 3 = .blocked 192 ∧ s.fifo.slot[s.fifo.head] = some ⟨0, 1⟩ ∧
        ¬ (1 = s.track.gen[0] ∧ s.track.valid[0] = true)) := by decide

/-- StepKeepsInv: the state INIT leaves has the invariant, and a step answers from it. -/
theorem witness_inv : Inv { running with sched := [.event 0x80000000 5] } ∧
    (afterStep { running with sched := [.event 0x80000000 5] } fun t => t.fx.shstat.ssf) = some true := by
  refine ⟨⟨by decide, by decide, fun _ => by unfold tcdAt; decide, by decide, by decide, by decide, by decide, by decide,
    fun _ => by decide +kernel, rfl, ?_⟩, by decide +kernel⟩
  intro t cap h
  have idle : ∀ t : Tid, { running with sched := [.event 0x80000000 5] }.tsOf t = .idle := by decide +kernel
  rw [idle t] at h
  cases h

/-- FlagsChangeAsListed: each flag set by one instruction and cleared by another. -/
theorem witness_flags :
    (Flag.en.value stopped = false ∧ after .fxenable stopped Flag.en.value = some true) ∧
    (Flag.en.value running = true ∧ after .stop running Flag.en.value = some false) ∧
    (Flag.ssf.value running = false ∧ after (.shiftword 1) running Flag.ssf.value = some true) ∧
    (Flag.ssf.value (waiting 512 5) = true ∧ after .dmabeat (waiting 512 5) Flag.ssf.value = some false) ∧
    (Flag.sef.value (waiting 512 5) = false ∧ after (.shiftword 1) (waiting 512 5) Flag.sef.value = some true) ∧
    (Flag.sef.value { State.reset with fx := { State.reset.fx with shstat := ⟨true, true, true⟩ } } = true ∧
      after .sclr { State.reset with fx := { State.reset.fx with shstat := ⟨true, true, true⟩ } } Flag.sef.value = some false) ∧
    (Flag.ssde.value State.reset = false ∧ after .sdmaen State.reset Flag.ssde.value = some true) ∧
    (Flag.ssde.value running = true ∧ after .fxdisable running Flag.ssde.value = some false) ∧
    (Flag.erq.value stopped = false ∧ after .dstart stopped Flag.erq.value = some true) ∧
    (Flag.erq.value running = true ∧ after .dstop running Flag.erq.value = some false) ∧
    (Flag.ovr.value (handing 1 oneEntry) = false ∧ after (.produce 1) (handing 1 oneEntry) Flag.ovr.value = some true) ∧
    (Flag.ovr.value (overrun State.reset) = true ∧
      after (.consume 1 true 192) (overrun State.reset) Flag.ovr.value = some false) := by decide +kernel

/-- SettingIsConstant and OthersStoreNothing: an instruction that stores nothing and answers a next state. -/
theorem witness_stores_nothing : ¬ stores .stop ∧ (after .stop running fun t => t.fx.en) = some false :=
  ⟨fun h => h, by decide⟩

/-- StoresStayInPlace: the bytes just below and above those that are stored. -/
theorem witness_stores :
    ((after .dmabeat (waiting 511 5) fun t => t.fault) = some none ∧
      (∀ k, k < 4 → 0x20000003 ≠ ((waiting 511 5).dma.tcd.daddr + BitVec.ofNat 32 k).toNat) ∧
      ∀ k, k < 4 → 0x20000008 ≠ ((waiting 511 5).dma.tcd.daddr + BitVec.ofNat 32 k).toNat) ∧
    (admissible State.reset.params = true ∧ (after (.decode 1) State.reset fun t => t.fault) = some none ∧
      (after (.cmpl 1) (pending 1 State.reset) fun t => t.fault) = some none ∧
      ¬ (State.reset.params.rawBufBase.toNat + 1024 * 1 ≤ 0x200003FF) ∧
      ¬ (0x20000800 < State.reset.params.rawBufBase.toNat + 1024 * 1 + 1024)) := by decide +kernel

/-- A run in which thread 3, blocked with one signal posted on an empty FIFO, takes its WAKE, and then nobody steps. -/
def wakingRun : Run where
  state
    | 0 => blocked3 1 State.reset
    | _ + 1 => blocked3 0 State.reset
  turn
    | 0 => some (.event 0x85060000 0)
    | _ + 1 => none
  launched := by decide
  steps
    | 0 => .inl rfl
    | _ + 1 => .inl (takeTurn_none (s := blocked3 0 State.reset) (by decide) (by decide))

/-- SignalledReaderWakes: that run is weakly fair, and the WAKE is enabled at its start. -/
theorem witness_fair_run : wakingRun.weaklyFair ∧ (FairStep.wake 3).enabled (wakingRun.state 0) := by
  refine ⟨fun f n h => ?_, by constructor <;> decide⟩
  have h1 : f.enabled (blocked3 0 State.reset) := h (n + 1) (by omega)
  cases f with
  | dmabeat => exact absurd h1.2 (by decide)
  | cmpl =>
    obtain ⟨_, hc, h2⟩ := h1
    exact absurd h2 (by revert hc; decide)
  | wake t =>
    have off : ∀ t : Tid, wakeEnabled t (blocked3 0 State.reset) = false := by decide
    exact absurd h1.2 (by simp [off t])

/-- The run from reset, without a handle, in which the HOST issues START at turn 1. -/
def startingRun : Run where
  state
    | 0 => noHandle
    | 1 => noHandle
    | _ + 2 => { noHandle with fault := some (.fatalNoHandle 0) }
  turn
    | 1 => some (.command 0x21000000)
    | _ => none
  launched := by decide
  steps
    | 0 => .inl rfl
    | 1 => .inl rfl
    | _ + 2 => .inr ⟨by simp, rfl⟩

/-- R338: a run is at no end while its HOST has a START to issue, although its state is at rest. -/
theorem test_endsAt : atRest (startingRun.state 0) ∧ ¬ startingRun.endsAt 0 := by
  refine ⟨by show atRest noHandle; unfold atRest; decide, fun h => ?_⟩
  exact absurd (h.2 1 (by decide) _ rfl) (by decide)

end Sys2Proof.Tests
end

section
/-! Proofs of the family 00_scope: the two primitives, the refused settings, and what no instruction writes
(spec/00_scope.md R6, R7, R9, R10; spec/20_memory.md R81, R83). -/

namespace Sys2Proof.Machine

/-! ### The primitives, bit by bit -/

theorem getLsbD_bitrev32 (w : Word) {i : Nat} (hi : i < 32) : (bitrev32 w).getLsbD i = w.getLsbD (31 - i) := by
  rw [bitrev32, BitVec.getLsbD_reverse, BitVec.getMsbD_eq_getLsbD]
  simp [hi]

/-- Shifting left by 8 puts bit 23 in the sign position, so shifting back fills bits 31:24 with it. -/
theorem getLsbD_sext24 (v : Word) {i : Nat} (hi : i < 32) :
    (sext24 v).getLsbD i = if i < 24 then v.getLsbD i else v.getLsbD 23 := by
  have sign : (v <<< 8).msb = v.getLsbD 23 := by simp [BitVec.msb_eq_getLsbD_last]
  rw [sext24, asr, lsl, BitVec.getLsbD_sshiftRight, sign]
  by_cases h : i < 24
  · simp [h, hi, show 8 + i < 32 by omega]
  · simp [h, hi, show ¬ 8 + i < 32 by omega]

/-- Settles O31, by the two lemmas on the bits of `bitrev32` and `sext24`; the bound on `v` is not needed. -/
theorem primitivesBitByBit : Obligations.PrimitivesBitByBit :=
  ⟨fun w _ hi => getLsbD_bitrev32 w hi, fun v _ _ hi => getLsbD_sext24 v hi⟩

/-! ### The refused settings -/

/-- The conditions of R7 as propositions, with the model's numbers written out. -/
theorem admissible_iff (p : Params) :
    admissible p = true ↔
      256 % p.frameWords = 0 ∧ (∀ o ∈ p.sampleOffsets, o + 24 ≤ 32 * p.frameWords) ∧ p.sampleOffsets.length = 3 ∧
        256 / p.frameWords * 3 ≤ 256 ∧ p.rawBufBase.toNat % 32 = 0 ∧ p.shiftBufBisAddr.toNat % 4 = 0 ∧
        (p.rawBufBase.toNat + 2047 < p.shiftBufBisAddr.toNat ∨ p.shiftBufBisAddr.toNat + 3 < p.rawBufBase.toNat) ∧
        p.rawBufBase.toNat + 2047 < 2 ^ 32 := by
  simp only [admissible, rangesDisjoint, Bool.and_eq_true, Bool.or_eq_true, decide_eq_true_eq, List.all_eq_true, and_assoc]
  simp only [outWords, framesPerHalf, halfWords, sampleBits, channels]

theorem launchRefusal_of_not_admissible {p : Params} (h : ¬ admissible p = true) :
    launchRefusal p = some .inadmissibleSetting := by
  rw [launchRefusal, if_pos (by simpa using h)]

theorem step_refused {s : State} {r : Refusal} (h : launchRefusal s.params = some r) : step s = .refused r := by
  simp [step, h]

/-- Settles O9: `step` asks `launchRefusal` first, which tests R7 before all else, and launches no WRITE_BACK. -/
theorem badSettingRefused : Obligations.BadSettingRefused := by
  refine ⟨fun s h => step_refused (launchRefusal_of_not_admissible (mt (admissible_iff s.params).mp h)), fun s hw => ?_⟩
  cases hr : launchRefusal s.params with
  | some r => exact ⟨r, step_refused hr⟩
  | none =>
    obtain ⟨-, hc, -⟩ := launchRefusal_none hr
    exact absurd (hw.symm.trans hc) (by decide)

/-! ### The setting and the turns to come -/

/-- What no instruction writes: the parameters and the schedule (R6; logs 1 and 5). -/
def State.fixedPart (s : State) : Params × List Turn := (s.params, s.sched)

/-- The operation leaves the parameters and the schedule. -/
def KeepsFixed (op : State → State) : Prop := ∀ s, (op s).fixedPart = s.fixedPart

section
variable (s : State)

@[simp] theorem State.withFx_fixedPart (x : Peripheral) : (s.withFx x).fixedPart = s.fixedPart := rfl
@[simp] theorem State.withDma_fixedPart (d : Dma) : (s.withDma d).fixedPart = s.fixedPart := rfl
@[simp] theorem State.withMem_fixedPart (m : Memory) : (s.withMem m).fixedPart = s.fixedPart := rfl
@[simp] theorem State.withFifo_fixedPart (f : Fifo) : (s.withFifo f).fixedPart = s.fixedPart := rfl
@[simp] theorem State.withTrack_fixedPart (k : Tracking) : (s.withTrack k).fixedPart = s.fixedPart := rfl
@[simp] theorem State.withDraws_fixedPart (n : Nat) : (s.withDraws n).fixedPart = s.fixedPart := rfl
@[simp] theorem State.withAnswers_fixedPart (l : List Bool) : (s.withAnswers l).fixedPart = s.fixedPart := rfl
@[simp] theorem State.withHanding_fixedPart (x : Option Half) : (s.withHanding x).fixedPart = s.fixedPart := rfl
@[simp] theorem State.withResp_fixedPart (t : Tid) (r : Result) : (s.withResp t r).fixedPart = s.fixedPart := rfl
@[simp] theorem State.withTs_fixedPart (t : Tid) (x : ThreadState) : (s.withTs t x).fixedPart = s.fixedPart := rfl
@[simp] theorem raise_fixedPart (r : FaultRecord) : (raise r s).fixedPart = s.fixedPart := rfl
@[simp] theorem cacheInvalidate_fixedPart : (cacheInvalidate s).fixedPart = s.fixedPart := rfl

end

/-! The shared shapes keep the fixed part if the operation inside does. -/

section
variable {op : State → State} {s t : State}

theorem KeepsFixed.andThen {f : State → State} (hop : KeepsFixed op) (hf : KeepsFixed f) :
    KeepsFixed fun s => andThen (op s) f := by
  intro s
  rcases andThen_cases (op s) f with ⟨-, e⟩ | ⟨-, e⟩ <;> simp only [e]
  · rw [hf, hop]
  · exact hop s

theorem KeepsFixed.withHandle (w : Word) (hop : KeepsFixed op) : KeepsFixed (withHandle w op) := by
  intro s
  rcases withHandle_cases w op s with ⟨-, e⟩ | ⟨-, e⟩ <;> rw [e]
  · exact hop s
  · exact raise_fixedPart s _

theorem KeepsFixed.runOps {fs : List (State → State)} (h : ∀ f ∈ fs, KeepsFixed f) : KeepsFixed (runOps fs) :=
  fun s => runOps_keeps (P := fun u => u.fixedPart = s.fixedPart) (fun f hf u hu => (h f hf u).trans hu) rfl

theorem KeepsFixed.whenLive (hop : KeepsFixed op) (h : whenLive s op = .next t) : t.fixedPart = s.fixedPart := by
  obtain ⟨-, rfl⟩ := whenLive_next h
  exact hop s

theorem KeepsFixed.hostCommand (hop : KeepsFixed op) (h : hostCommand op s = .next t) : t.fixedPart = s.fixedPart :=
  (hop.andThen fun u => u.withResp_fixedPart hostTid (.ok [])).whenLive h

theorem KeepsFixed.agentStep {en : State → Bool} (hop : KeepsFixed op) (h : agentStep en op s = .next t) :
    t.fixedPart = s.fixedPart := by
  obtain ⟨-, ⟨-, rfl⟩ | ⟨-, rfl⟩⟩ := agentStep_next h
  · exact hop s
  · rfl

end

/-! The peripheral's operations. -/

theorem fxresetOp_keepsFixed : KeepsFixed fxresetOp :=
  .withHandle _ fun s => s.withFx_fixedPart _

theorem setshiftOp_keepsFixed : KeepsFixed setshiftOp :=
  .withHandle _ fun s => by split <;> simp

theorem settimaOp_keepsFixed (val : BitVec 16) : KeepsFixed (settimaOp val) :=
  .withHandle _ fun s => by split <;> simp

theorem settimbOp_keepsFixed (val : BitVec 16) : KeepsFixed (settimbOp val) :=
  .withHandle _ fun s => by split <;> simp

theorem sdmaenOp_keepsFixed : KeepsFixed sdmaenOp :=
  .withHandle _ fun s => s.withFx_fixedPart _

theorem sclrOp_keepsFixed : KeepsFixed sclrOp :=
  .withHandle _ fun s => s.withFx_fixedPart _

theorem fxenableOp_keepsFixed : KeepsFixed fxenableOp :=
  .withHandle _ fun s => by split <;> simp

theorem fxdisableOp_keepsFixed : KeepsFixed fxdisableOp :=
  .withHandle _ fun s => s.withFx_fixedPart _

/-! The DMA's operations. -/

theorem dallocOp_keepsFixed : KeepsFixed dallocOp := by
  intro s
  unfold dallocOp
  split
  · rfl
  · dsimp only
    split <;> simp [afterAllocDraw]

theorem dsetupOp_keepsFixed : KeepsFixed dsetupOp := by
  intro s
  unfold dsetupOp
  split
  · simp
  · split <;> simp

theorem dstartOp_keepsFixed : KeepsFixed dstartOp := by
  intro s
  unfold dstartOp
  split <;> simp

theorem dstopOp_keepsFixed : KeepsFixed dstopOp := fun s => s.withDma_fixedPart _

theorem dfreeOp_keepsFixed : KeepsFixed dfreeOp := by
  intro s
  unfold dfreeOp
  split <;> simp

/-! The composite commands, from their sub-commands. -/

theorem initSequence_keepsFixed (p : Params) : ∀ f ∈ initSequence p, KeepsFixed f := by
  simp only [initSequence, List.forall_mem_cons]
  exact ⟨fxresetOp_keepsFixed, setshiftOp_keepsFixed, settimaOp_keepsFixed _, settimbOp_keepsFixed _,
    dallocOp_keepsFixed, cacheInvalidate_fixedPart, dsetupOp_keepsFixed, dstartOp_keepsFixed, sdmaenOp_keepsFixed,
    sclrOp_keepsFixed, fxenableOp_keepsFixed, List.forall_mem_nil _⟩

theorem initOp_keepsFixed : KeepsFixed initOp := by
  intro s
  unfold initOp
  split
  · simp
  · split
    · simp
    · exact KeepsFixed.runOps (initSequence_keepsFixed s.params) s

theorem startOp_keepsFixed : KeepsFixed startOp :=
  initOp_keepsFixed.andThen fun s => s.withFifo_fixedPart _

theorem stopOp_keepsFixed : KeepsFixed stopOp := by
  refine KeepsFixed.runOps ?_
  simp only [List.forall_mem_cons]
  exact ⟨fxdisableOp_keepsFixed, dstopOp_keepsFixed, dfreeOp_keepsFixed, List.forall_mem_nil _⟩

/-! Capture. -/

theorem shiftwordOp_keepsFixed (v : Word) : KeepsFixed (shiftwordOp v) := by
  intro s
  unfold shiftwordOp
  split <;> simp

theorem beatTransfer_keepsFixed : KeepsFixed beatTransfer := by
  intro s
  have read : (busRead s s.dma.tcd.saddr).2.fixedPart = s.fixedPart := by
    rcases busRead_cases s s.dma.tcd.saddr with ⟨-, e⟩ | ⟨-, e⟩ <;> simp [e]
  unfold beatTransfer
  dsimp only
  split <;> simp [read]

theorem raiseEvent_keepsFixed (hc : Half) : KeepsFixed (raiseEvent hc) := by
  intro s
  rcases raiseEvent_cases hc s with ⟨-, e⟩ | ⟨-, e⟩ <;> simp [e]

theorem beatEvents_keepsFixed (citer : BitVec 16) : KeepsFixed (beatEvents citer) := by
  refine KeepsFixed.andThen (fun s => ?_) fun s => ?_
  · split
    · exact raiseEvent_keepsFixed 0 s
    · rfl
  · split
    · exact raiseEvent_keepsFixed 1 s
    · rfl

theorem dmabeatOp_keepsFixed : KeepsFixed dmabeatOp := by
  intro s
  unfold dmabeatOp
  dsimp only
  rw [beatEvents_keepsFixed, State.withDma_fixedPart, beatTransfer_keepsFixed]

/-! Decoding and the hand-off. -/

theorem decodeHalf_keepsFixed (h : Half) : KeepsFixed (decodeHalf h) := fun s => by simp [decodeHalf]

theorem decodeOp_keepsFixed (h : Half) : KeepsFixed (decodeOp h) := by
  intro s
  unfold decodeOp
  split
  · simp
  · exact decodeHalf_keepsFixed h s

theorem produceOp_keepsFixed (h : Half) : KeepsFixed (produceOp h) := fun s => by simp [produceOp]

theorem cmplOp_keepsFixed (hc : Half) : KeepsFixed (cmplOp hc) := by
  intro s
  have popped : (cacheInvalidate (takeEvent s)).fixedPart = s.fixedPart := by simp [takeEvent]
  unfold cmplOp
  dsimp only
  split
  · rw [raise_fixedPart, popped]
  · rw [produceOp_keepsFixed, State.withHanding_fixedPart, decodeHalf_keepsFixed, popped]

/-! The read port. -/

theorem copyBatches_keepsFixed (tid : Tid) (cap : Nat) : KeepsFixed (copyBatches tid cap) := by
  intro s
  rcases copyBatches_cases tid cap s with ⟨-, e⟩ | ⟨_, -, -, -, ⟨-, e⟩ | ⟨-, e⟩⟩ <;> simp [e]

theorem reportOverrun_keepsFixed (tid : Tid) : KeepsFixed (reportOverrun tid) := fun s => by simp [reportOverrun]

theorem consumeOp_keepsFixed (tid : Tid) (nb : Bool) (cap : BitVec 16) : KeepsFixed (consumeOp tid nb cap) := by
  intro s
  unfold consumeOp
  split
  · simp
  split
  · simp
  split
  · split
    · exact reportOverrun_keepsFixed tid s
    · split <;> simp
  · exact copyBatches_keepsFixed tid _ s

theorem fiforstOp_keepsFixed : KeepsFixed fiforstOp := fun s => s.withFifo_fixedPart _

theorem wakeOp_keepsFixed (tid : Tid) : KeepsFixed (wakeOp tid) := by
  intro s
  unfold wakeOp
  dsimp only
  split
  · rw [copyBatches_keepsFixed, State.withFifo_fixedPart]
  · split
    · rw [reportOverrun_keepsFixed, State.withFifo_fixedPart]
    · simp

theorem sigintrOp_keepsFixed (tid : Tid) : KeepsFixed (sigintrOp tid) := fun s => by simp [sigintrOp]

/-- No instruction writes the parameters or the schedule: each is one of the shared shapes around its operation. -/
theorem exec_fixedPart {i : Instr} {s t : State} (h : exec i s = .next t) : t.fixedPart = s.fixedPart := by
  cases i with
  | fxreset => exact fxresetOp_keepsFixed.hostCommand h
  | setshift => exact setshiftOp_keepsFixed.hostCommand h
  | settima val => exact (settimaOp_keepsFixed val).hostCommand h
  | settimb val => exact (settimbOp_keepsFixed val).hostCommand h
  | sdmaen => exact sdmaenOp_keepsFixed.hostCommand h
  | sclr => exact sclrOp_keepsFixed.hostCommand h
  | fxenable => exact fxenableOp_keepsFixed.hostCommand h
  | getbuf => exact KeepsFixed.whenLive (.withHandle _ fun u => u.withResp_fixedPart _ _) h
  | fxdisable => exact fxdisableOp_keepsFixed.hostCommand h
  | dalloc => exact dallocOp_keepsFixed.hostCommand h
  | dsetup => exact dsetupOp_keepsFixed.hostCommand h
  | dstart => exact dstartOp_keepsFixed.hostCommand h
  | dstop => exact dstopOp_keepsFixed.hostCommand h
  | dfree => exact dfreeOp_keepsFixed.hostCommand h
  | cinv => exact KeepsFixed.hostCommand cacheInvalidate_fixedPart h
  | init => exact initOp_keepsFixed.hostCommand h
  | start => exact startOp_keepsFixed.hostCommand h
  | stop => exact stopOp_keepsFixed.hostCommand h
  | decode half => exact (decodeOp_keepsFixed half).hostCommand h
  | consume tid nb cap => exact (consumeOp_keepsFixed tid nb cap).whenLive h
  | fiforst => exact fiforstOp_keepsFixed.hostCommand h
  | shiftword v => exact (shiftwordOp_keepsFixed v).agentStep h
  | dmabeat => exact dmabeatOp_keepsFixed.agentStep h
  | cmpl hc => exact (cmplOp_keepsFixed hc).agentStep h
  | produce half => exact (produceOp_keepsFixed half).agentStep h
  | wake tid => exact (wakeOp_keepsFixed tid).agentStep h
  | sigintr tid => exact (sigintrOp_keepsFixed tid).agentStep h

/-- Settles O56: the two components of the part that `exec_fixedPart` says is kept. -/
theorem settingIsConstant : Obligations.SettingIsConstant :=
  fun _ _ _ h => Prod.mk.inj (exec_fixedPart h)

end Sys2Proof.Machine
end

section
/-! Proofs of the family 10_state: the state at reset, which instructions change a status flag, and which leave memory
(spec/10_state.md R33, R44, R45). -/

namespace Sys2Proof.Machine

open Sys2Proof.Claims

/-! ### The state at reset -/

section
variable (p : Params)

@[simp] theorem State.tsOf_resetWith (t : Tid) : (State.resetWith p).tsOf t = .idle := by
  simp [State.tsOf, State.resetWith, Readers.reset]

@[simp] theorem State.respOf_resetWith (t : Tid) : (State.resetWith p).respOf t = none := by
  simp [State.respOf, State.resetWith, Readers.reset]

@[simp] theorem Fifo.slot_reset (k : Fin 2) : Fifo.reset.slot[k] = none := by simp [Fifo.reset]

@[simp] theorem Tracking.gen_reset (h : Half) : Tracking.reset.gen[h] = 0 := by simp [Tracking.reset]

@[simp] theorem Tracking.valid_reset (h : Half) : Tracking.reset.valid[h] = false := by simp [Tracking.reset]

@[simp] theorem Tracking.wse_reset (h : Half) : Tracking.reset.wse[h] = false := by simp [Tracking.reset]

@[simp] theorem blockedCount_resetWith : blockedCount (State.resetWith p) = 0 := by
  simp [blockedCount, State.resetWith, Readers.reset, ThreadState.isBlocked]

end

/-- Settles O10: the scalar items are those of the reset records, the vectors hold one value in every place, and memory
lists no byte. -/
theorem resetValues : Obligations.ResetValues := fun p =>
  ⟨rfl, rfl, rfl, rfl, rfl, rfl, rfl, rfl, rfl, rfl, fun _ => rfl, Fifo.slot_reset, rfl, rfl, rfl, rfl, rfl, rfl,
    fun h => ⟨Tracking.gen_reset h, Tracking.valid_reset h, Tracking.wse_reset h⟩,
    fun t => ⟨State.tsOf_resetWith p t, State.respOf_resetWith p t⟩, rfl⟩

/-- Settles O54: at reset the flags are clear, the FIFO and EVQ are empty and every thread is idle, so that each clause
has no premise to meet or reads the reset value itself. -/
theorem invAtReset : Obligations.InvAtReset := fun p =>
  { mem := Memory.wf_nil
    evq := List.nodup_nil
    tcd := (nomatch ·)
    channel := ⟨(nomatch ·), (nomatch ·), (nomatch ·), (nomatch ·)⟩
    enabled := (nomatch ·)
    sef := (nomatch ·)
    fifo := (nomatch ·)
    valid := fun half h => nomatch (Tracking.valid_reset half).symm.trans h
    waiters := fun _ => (blockedCount_resetWith p).symm
    handing := rfl
    caps := fun t _ h => nomatch (State.tsOf_resetWith p t).symm.trans h }

/-! ### The instructions that leave memory -/

section
variable {op : State → State} {s t : State}

theorem withHandle_mem (w : Word) (h : (op s).mem = s.mem) : (withHandle w op s).mem = s.mem := by
  rcases withHandle_cases w op s with ⟨-, e⟩ | ⟨-, e⟩ <;> rw [e]
  · exact h
  · rfl

theorem runOps_mem {fs : List (State → State)} (h : ∀ f ∈ fs, ∀ u, (f u).mem = u.mem) : (runOps fs s).mem = s.mem :=
  runOps_keeps (P := fun u => u.mem = s.mem) (fun f hf u hu => (h f hf u).trans hu) rfl

theorem whenLive_mem (h : (op s).mem = s.mem) (hn : whenLive s op = .next t) : t.mem = s.mem := by
  obtain ⟨-, rfl⟩ := whenLive_next hn
  exact h

theorem hostCommand_mem (h : (op s).mem = s.mem) (hn : hostCommand op s = .next t) : t.mem = s.mem := by
  obtain ⟨-, ⟨-, rfl⟩ | ⟨-, rfl⟩⟩ := hostCommand_next hn <;> exact h

theorem agentStep_mem {en : State → Bool} (h : (op s).mem = s.mem) (hn : agentStep en op s = .next t) :
    t.mem = s.mem := by
  obtain ⟨-, ⟨-, rfl⟩ | ⟨-, rfl⟩⟩ := agentStep_next hn
  · exact h
  · rfl

end

section
variable (s : State)

@[simp] theorem cacheInvalidate_mem : (cacheInvalidate s).mem = s.mem := rfl

@[simp] theorem fxresetOp_mem : (fxresetOp s).mem = s.mem := withHandle_mem _ rfl

@[simp] theorem setshiftOp_mem : (setshiftOp s).mem = s.mem := withHandle_mem _ (by dsimp only; split <;> rfl)

@[simp] theorem settimaOp_mem (val : BitVec 16) : (settimaOp val s).mem = s.mem :=
  withHandle_mem _ (by dsimp only; split <;> rfl)

@[simp] theorem settimbOp_mem (val : BitVec 16) : (settimbOp val s).mem = s.mem :=
  withHandle_mem _ (by dsimp only; split <;> rfl)

@[simp] theorem sdmaenOp_mem : (sdmaenOp s).mem = s.mem := withHandle_mem _ rfl

@[simp] theorem sclrOp_mem : (sclrOp s).mem = s.mem := withHandle_mem _ rfl

@[simp] theorem fxenableOp_mem : (fxenableOp s).mem = s.mem := withHandle_mem _ (by dsimp only; split <;> rfl)

@[simp] theorem fxdisableOp_mem : (fxdisableOp s).mem = s.mem := withHandle_mem _ rfl

@[simp] theorem dallocOp_mem : (dallocOp s).mem = s.mem := by
  unfold dallocOp
  split
  · rfl
  · dsimp only
    split <;> rfl

@[simp] theorem dsetupOp_mem : (dsetupOp s).mem = s.mem := by
  unfold dsetupOp
  split
  · rfl
  · split <;> rfl

@[simp] theorem dstartOp_mem : (dstartOp s).mem = s.mem := by
  unfold dstartOp
  split <;> rfl

@[simp] theorem dstopOp_mem : (dstopOp s).mem = s.mem := rfl

@[simp] theorem dfreeOp_mem : (dfreeOp s).mem = s.mem := by
  unfold dfreeOp
  split <;> rfl

@[simp] theorem initOp_mem : (initOp s).mem = s.mem := by
  unfold initOp
  split
  · rfl
  split
  · rfl
  · exact runOps_mem (by simp [initSequence])

@[simp] theorem startOp_mem : (startOp s).mem = s.mem := by
  unfold startOp
  rcases andThen_cases (initOp s) clearFifo with ⟨-, e⟩ | ⟨-, e⟩ <;> rw [e] <;> exact initOp_mem s

@[simp] theorem stopOp_mem : (stopOp s).mem = s.mem := runOps_mem (by simp)

@[simp] theorem shiftwordOp_mem (v : Word) : (shiftwordOp v s).mem = s.mem := by
  unfold shiftwordOp
  split <;> rfl

@[simp] theorem produceOp_mem (h : Half) : (produceOp h s).mem = s.mem := rfl

@[simp] theorem copyBatches_mem (tid : Tid) (cap : Nat) : (copyBatches tid cap s).mem = s.mem := by
  rcases copyBatches_cases tid cap s with ⟨-, e⟩ | ⟨_, -, -, -, ⟨-, e⟩ | ⟨-, e⟩⟩ <;> rw [e] <;> rfl

@[simp] theorem reportOverrun_mem (tid : Tid) : (reportOverrun tid s).mem = s.mem := rfl

@[simp] theorem consumeOp_mem (tid : Tid) (nb : Bool) (cap : BitVec 16) : (consumeOp tid nb cap s).mem = s.mem := by
  unfold consumeOp
  split
  · rfl
  split
  · rfl
  split
  · split
    · rfl
    · split <;> rfl
  · exact copyBatches_mem s tid _

@[simp] theorem fiforstOp_mem : (fiforstOp s).mem = s.mem := rfl

@[simp] theorem wakeOp_mem (tid : Tid) : (wakeOp tid s).mem = s.mem := by
  unfold wakeOp
  dsimp only
  split
  · simp
  · split <;> rfl

@[simp] theorem sigintrOp_mem (tid : Tid) : (sigintrOp tid s).mem = s.mem := rfl

end

/-- An instruction that stores nothing leaves the memory: each is one of the shared shapes around its operation. -/
theorem exec_mem {i : Instr} {s t : State} (hi : ¬ stores i) (h : exec i s = .next t) : t.mem = s.mem := by
  cases i with
  | fxreset => exact hostCommand_mem (fxresetOp_mem s) h
  | setshift => exact hostCommand_mem (setshiftOp_mem s) h
  | settima val => exact hostCommand_mem (settimaOp_mem s val) h
  | settimb val => exact hostCommand_mem (settimbOp_mem s val) h
  | sdmaen => exact hostCommand_mem (sdmaenOp_mem s) h
  | sclr => exact hostCommand_mem (sclrOp_mem s) h
  | fxenable => exact hostCommand_mem (fxenableOp_mem s) h
  | getbuf => exact whenLive_mem (withHandle_mem _ rfl) h
  | fxdisable => exact hostCommand_mem (fxdisableOp_mem s) h
  | dalloc => exact hostCommand_mem (dallocOp_mem s) h
  | dsetup => exact hostCommand_mem (dsetupOp_mem s) h
  | dstart => exact hostCommand_mem (dstartOp_mem s) h
  | dstop => exact hostCommand_mem (dstopOp_mem s) h
  | dfree => exact hostCommand_mem (dfreeOp_mem s) h
  | cinv => exact hostCommand_mem (cacheInvalidate_mem s) h
  | init => exact hostCommand_mem (initOp_mem s) h
  | start => exact hostCommand_mem (startOp_mem s) h
  | stop => exact hostCommand_mem (stopOp_mem s) h
  | consume tid nb cap => exact whenLive_mem (consumeOp_mem s tid nb cap) h
  | fiforst => exact hostCommand_mem (fiforstOp_mem s) h
  | shiftword v => exact agentStep_mem (shiftwordOp_mem s v) h
  | produce half => exact agentStep_mem (produceOp_mem s half) h
  | wake tid => exact agentStep_mem (wakeOp_mem s tid) h
  | sigintr tid => exact agentStep_mem (sigintrOp_mem s tid) h
  | decode half => exact absurd trivial hi
  | dmabeat => exact absurd trivial hi
  | cmpl hc => exact absurd trivial hi

/-- Settles O58, by `exec_mem`: a byte depends on the memory alone. -/
theorem othersStoreNothing : Obligations.OthersStoreNothing := fun _ _ _ hi h x => by rw [exec_mem hi h]

/-! ### The status flags: the updates that leave them all -/

section
variable (s : State) (f : Flag)

@[simp] theorem flagValue_withMem (m : Memory) : f.value (s.withMem m) = f.value s := by cases f <;> rfl
@[simp] theorem flagValue_withTrack (k : Tracking) : f.value (s.withTrack k) = f.value s := by cases f <;> rfl
@[simp] theorem flagValue_withDraws (n : Nat) : f.value (s.withDraws n) = f.value s := by cases f <;> rfl
@[simp] theorem flagValue_withAnswers (l : List Bool) : f.value (s.withAnswers l) = f.value s := by cases f <;> rfl
@[simp] theorem flagValue_withHanding (x : Option Half) : f.value (s.withHanding x) = f.value s := by cases f <;> rfl
@[simp] theorem flagValue_withResp (t : Tid) (r : Result) : f.value (s.withResp t r) = f.value s := by cases f <;> rfl
@[simp] theorem flagValue_withTs (t : Tid) (x : ThreadState) : f.value (s.withTs t x) = f.value s := by cases f <;> rfl
@[simp] theorem flagValue_raise (r : FaultRecord) : f.value (raise r s) = f.value s := by cases f <;> rfl

variable {s}

@[simp] theorem flagValue_withFx {x : Peripheral} (he : x.en = s.fx.en) (hs : x.shstat = s.fx.shstat) :
    f.value (s.withFx x) = f.value s := by cases f <;> simp [Flag.value, he, hs]

@[simp] theorem flagValue_withDma {d : Dma} (h : d.ch.erq = s.dma.ch.erq) : f.value (s.withDma d) = f.value s := by
  cases f <;> simp [Flag.value, h]

@[simp] theorem flagValue_withFifo {x : Fifo} (h : x.ovr = s.fifo.ovr) : f.value (s.withFifo x) = f.value s := by
  cases f <;> simp [Flag.value, h]

end

/-! ### What may move a flag -/

/-- From `s` to `t` only flags of `up` are set and only flags of `down` are cleared. -/
def FlagsMove (up down : Flag → Prop) (s t : State) : Prop :=
  ∀ f : Flag, (f.value s = false → f.value t = true → up f) ∧ (f.value s = true → f.value t = false → down f)

/-- From `s` to `t` the flags move as R44's table lists for the instruction `i`. -/
def FlagsListed (i : Instr) (s t : State) : Prop := FlagsMove (setBy · i s) (clearedBy · i s) s t

section
variable {up up' down down' : Flag → Prop} {op : State → State} {s t u : State}

theorem FlagsMove.of_same (h : ∀ f : Flag, f.value t = f.value s) : FlagsMove up down s t :=
  fun f => ⟨fun h0 h1 => absurd ((h f).symm.trans h1) (by simp [h0]),
    fun h1 h0 => absurd ((h f).symm.trans h0) (by simp [h1])⟩

theorem FlagsMove.mono (h : FlagsMove up down s t) (hu : ∀ f, up f → up' f) (hd : ∀ f, down f → down' f) :
    FlagsMove up' down' s t :=
  fun f => ⟨fun h0 h1 => hu f ((h f).1 h0 h1), fun h1 h0 => hd f ((h f).2 h1 h0)⟩

/-- A flag that has moved over two stages has moved in one of them. -/
theorem FlagsMove.trans (hst : FlagsMove up down s t) (htu : FlagsMove up down t u) : FlagsMove up down s u := by
  intro f
  obtain ⟨rise₁, fall₁⟩ := hst f
  obtain ⟨rise₂, fall₂⟩ := htu f
  cases ht : f.value t
  · exact ⟨fun _ h1 => rise₂ ht h1, fun h1 _ => fall₁ h1 ht⟩
  · exact ⟨fun h0 _ => rise₁ h0 ht, fun _ h0 => fall₂ ht h0⟩

/-- What comes after leaves the flags. -/
theorem FlagsMove.then_same (h : FlagsMove up down s t) (hu : ∀ f : Flag, f.value u = f.value t) :
    FlagsMove up down s u := h.trans (.of_same hu)

/-- What comes before leaves the flags. -/
theorem FlagsMove.after_same (h : FlagsMove up down t u) (ht : ∀ f : Flag, f.value t = f.value s) :
    FlagsMove up down s u := FlagsMove.trans (.of_same ht) h

theorem FlagsMove.runOps {fs : List (State → State)} (h : ∀ f ∈ fs, ∀ u, FlagsMove up down u (f u)) :
    FlagsMove up down s (runOps fs s) :=
  runOps_keeps (P := FlagsMove up down s) (fun f hf u hu => hu.trans (h f hf u)) (.of_same fun _ => rfl)

theorem FlagsMove.withHandle (w : Word) (h : FlagsMove up down s (op s)) : FlagsMove up down s (withHandle w op s) := by
  rcases withHandle_cases w op s with ⟨-, e⟩ | ⟨-, e⟩ <;> rw [e]
  · exact h
  · exact .of_same fun f => flagValue_raise s f _

theorem FlagsMove.whenLive (h : FlagsMove up down s (op s)) (hn : whenLive s op = .next t) : FlagsMove up down s t := by
  obtain ⟨-, rfl⟩ := whenLive_next hn
  exact h

theorem FlagsMove.hostCommand (h : FlagsMove up down s (op s)) (hn : hostCommand op s = .next t) :
    FlagsMove up down s t := by
  obtain ⟨-, ⟨-, rfl⟩ | ⟨-, rfl⟩⟩ := hostCommand_next hn
  · exact h.then_same fun f => flagValue_withResp _ f _ _
  · exact h

theorem FlagsMove.agentStep {en : State → Bool} (h : FlagsMove up down s (op s)) (hn : agentStep en op s = .next t) :
    FlagsMove up down s t := by
  obtain ⟨-, ⟨-, rfl⟩ | ⟨-, rfl⟩⟩ := agentStep_next hn
  · exact h
  · exact .of_same fun _ => rfl

end

/-! ### The operations that leave the flags -/

section
variable {up down : Flag → Prop} (s : State)

theorem setshiftOp_flags : FlagsMove up down s (setshiftOp s) :=
  .withHandle _ <| .of_same fun f => by dsimp only; split <;> simp

theorem settimaOp_flags (val : BitVec 16) : FlagsMove up down s (settimaOp val s) :=
  .withHandle _ <| .of_same fun f => by dsimp only; split <;> simp

theorem settimbOp_flags (val : BitVec 16) : FlagsMove up down s (settimbOp val s) :=
  .withHandle _ <| .of_same fun f => by dsimp only; split <;> simp

theorem dallocOp_flags : FlagsMove up down s (dallocOp s) := .of_same fun f => by
  unfold dallocOp
  split
  · rfl
  · dsimp only
    split
    · exact (flagValue_withDma f (by rfl)).trans (by simp [afterAllocDraw])
    · simp [afterAllocDraw]

theorem dsetupOp_flags : FlagsMove up down s (dsetupOp s) := .of_same fun f => by
  unfold dsetupOp
  split
  · simp
  · split <;> simp

theorem dfreeOp_flags : FlagsMove up down s (dfreeOp s) := .of_same fun f => by
  unfold dfreeOp
  split <;> simp

theorem cacheInvalidate_flags : FlagsMove up down s (cacheInvalidate s) := .of_same fun _ => rfl

theorem flagValue_decodeHalf (f : Flag) (h : Half) : f.value (decodeHalf h s) = f.value s := by simp [decodeHalf]

theorem decodeOp_flags (h : Half) : FlagsMove up down s (decodeOp h s) := .of_same fun f => by
  unfold decodeOp
  split
  · simp
  · exact flagValue_decodeHalf s f h

theorem flagValue_raiseEvent (f : Flag) (hc : Half) : f.value (raiseEvent hc s) = f.value s := by
  rcases raiseEvent_cases hc s with ⟨-, e⟩ | ⟨-, e⟩ <;> rw [e]
  · exact (flagValue_withDma f (by rfl)).trans (flagValue_withTrack s f _)
  · rw [flagValue_raise, flagValue_withTrack]

theorem flagValue_ite_raiseEvent (f : Flag) (hc : Half) (c : Prop) [Decidable c] :
    f.value (if c then raiseEvent hc s else s) = f.value s := by
  split
  · exact flagValue_raiseEvent s f hc
  · rfl

theorem flagValue_beatEvents (f : Flag) (citer : BitVec 16) : f.value (beatEvents citer s) = f.value s := by
  unfold beatEvents
  rcases andThen_cases _ _ with ⟨-, e⟩ | ⟨-, e⟩ <;> rw [e]
  · rw [flagValue_ite_raiseEvent, flagValue_ite_raiseEvent]
  · rw [flagValue_ite_raiseEvent]

theorem copyBatches_flags (tid : Tid) (cap : Nat) : FlagsMove up down s (copyBatches tid cap s) := .of_same fun f => by
  rcases copyBatches_cases tid cap s with ⟨-, e⟩ | ⟨_, -, -, -, ⟨-, e⟩ | ⟨-, e⟩⟩ <;> simp [e]

theorem sigintrOp_flags (tid : Tid) : FlagsMove up down s (sigintrOp tid s) := .of_same fun f => by simp [sigintrOp]

end

/-! ### The operations that move a flag -/

section
variable (s : State)

theorem fxresetOp_listed : FlagsListed .fxreset s (fxresetOp s) :=
  .withHandle _ fun f => by cases f <;> simp +contextual [Flag.value, clearedBy, Peripheral.reset]

theorem sdmaenOp_listed : FlagsListed .sdmaen s (sdmaenOp s) :=
  .withHandle _ fun f => by cases f <;> simp +contextual [Flag.value, setBy]

theorem sclrOp_listed : FlagsListed .sclr s (sclrOp s) :=
  .withHandle _ fun f => by cases f <;> simp +contextual [Flag.value, clearedBy]

theorem fxenableOp_listed : FlagsListed .fxenable s (fxenableOp s) := .withHandle _ <| by
  dsimp only
  split
  · intro f
    cases f <;> simp +contextual [Flag.value, setBy]
  · exact .of_same fun f => by simp

theorem fxdisableOp_listed : FlagsListed .fxdisable s (fxdisableOp s) :=
  .withHandle _ fun f => by cases f <;> simp +contextual [Flag.value, clearedBy]

theorem dstartOp_listed : FlagsListed .dstart s (dstartOp s) := by
  unfold dstartOp
  split
  · exact .of_same fun f => by simp
  · intro f
    cases f <;> simp +contextual [Flag.value, setBy]

theorem dstopOp_listed : FlagsListed .dstop s (dstopOp s) := fun f => by
  cases f <;> simp +contextual [Flag.value, clearedBy, dstopOp]

theorem beatTransfer_listed : FlagsListed .dmabeat s (beatTransfer s) := by
  have read : FlagsListed .dmabeat s (busRead s s.dma.tcd.saddr).2 := by
    rcases busRead_cases s s.dma.tcd.saddr with ⟨-, e⟩ | ⟨-, e⟩ <;> rw [e]
    · intro f
      cases f <;> simp +contextual [Flag.value, clearedBy]
    · exact .of_same fun _ => rfl
  refine read.then_same fun f => ?_
  unfold beatTransfer
  dsimp only
  split <;> simp

theorem dmabeatOp_listed : FlagsListed .dmabeat s (dmabeatOp s) :=
  (beatTransfer_listed s).then_same fun f => (flagValue_beatEvents _ f _).trans (flagValue_withDma f rfl)

/-- The overrunning word sets SEF, and any other sets SSF (R181). -/
theorem shiftwordOp_listed (v : Word) : FlagsListed (.shiftword v) s (shiftwordOp v s) := by
  unfold shiftwordOp
  split
  · next overrun =>
    refine FlagsMove.then_same (fun f => ?_) fun f => flagValue_raise _ f _
    cases f <;> simp +contextual [Flag.value, setBy, overrun]
  · intro f
    cases f <;> simp +contextual [Flag.value, setBy]

theorem Fifo.isEmpty_iff (x : Fifo) : x.isEmpty = true ↔ x.head = x.tail := decide_eq_true_iff

/-- Offering a batch sets OVR if HEAD is not TAIL and moves no other flag (R251). -/
theorem produceOp_flags (h : Half) :
    FlagsMove (fun f => f = .ovr ∧ s.fifo.head ≠ s.fifo.tail) (fun _ => False) s (produceOp h s) := by
  unfold produceOp
  rcases s.fifo.offer_cases ⟨h, s.track.gen[h]⟩ with ⟨-, e⟩ | ⟨full, e⟩ <;> rw [e]
  · exact .of_same fun f => by simp
  · have apart : s.fifo.head ≠ s.fifo.tail := fun e => by simp [s.fifo.isEmpty_iff.mpr e] at full
    intro f
    cases f <;> simp +contextual [Flag.value, apart]

theorem produceOp_listed (h : Half) : FlagsListed (.produce h) s (produceOp h s) :=
  (produceOp_flags s h).mono (by rintro _ ⟨rfl, apart⟩; exact ⟨.inl ⟨h, rfl⟩, apart⟩) (fun _ => False.elim)

theorem cmplOp_listed (hc : Half) : FlagsListed (.cmpl hc) s (cmplOp hc s) := by
  have popped (f : Flag) : f.value (cacheInvalidate (takeEvent s)) = f.value s := flagValue_withDma f rfl
  unfold cmplOp
  dsimp only
  split
  · exact .of_same fun f => (flagValue_raise _ f _).trans (popped f)
  · refine FlagsMove.after_same ((produceOp_flags _ hc).mono ?_ fun _ => False.elim) fun f =>
      (flagValue_withHanding _ f _).trans ((flagValue_decodeHalf _ f hc).trans (popped f))
    rintro _ ⟨rfl, apart⟩
    exact ⟨.inr ⟨hc, rfl⟩, apart⟩

/-- Reporting the overrun clears OVR and moves no other flag (R257, R270). -/
theorem reportOverrun_flags (tid : Tid) : FlagsMove (fun _ => False) (· = .ovr) s (reportOverrun tid s) := fun f => by
  cases f <;> simp +contextual [Flag.value, reportOverrun]

theorem consumeOp_listed (tid : Tid) (nb : Bool) (cap : BitVec 16) :
    FlagsListed (.consume tid nb cap) s (consumeOp tid nb cap s) := by
  unfold consumeOp
  split
  · exact .of_same fun f => flagValue_raise s f _
  split
  · exact .of_same fun f => flagValue_withResp s f _ _
  split
  · next empty =>
    split
    · refine (reportOverrun_flags s tid).mono (fun _ => False.elim) ?_
      rintro _ rfl
      exact .inl ⟨.inl ⟨tid, nb, cap, rfl⟩, s.fifo.isEmpty_iff.mp empty⟩
    · split <;> exact .of_same fun f => by simp
  · exact copyBatches_flags s tid _

theorem wakeOp_listed (tid : Tid) : FlagsListed (.wake tid) s (wakeOp tid s) := by
  have taken (f : Flag) : f.value (s.withFifo { s.fifo with sem := s.fifo.sem - 1, waiters := s.fifo.waiters - 1 }) =
      f.value s := flagValue_withFifo f rfl
  unfold wakeOp
  dsimp only
  split
  · exact (copyBatches_flags _ tid _).after_same taken
  · next data =>
    split
    · refine FlagsMove.after_same ((reportOverrun_flags _ tid).mono (fun _ => False.elim) ?_) taken
      rintro _ rfl
      exact .inl ⟨.inr ⟨tid, rfl⟩, (Fifo.isEmpty_iff _).mp (eq_true_of_ne_false data)⟩
    · exact .of_same fun f => (flagValue_withFifo f (by rfl)).trans (taken f)

theorem fiforstOp_listed : FlagsListed .fiforst s (fiforstOp s) := fun f => by
  unfold fiforstOp
  cases hr : s.params.resetClearsOverrun <;> cases f <;> simp +contextual [Flag.value, clearedBy, hr]

theorem clearFifo_flags : FlagsMove (fun _ => False) (· = .ovr) s (clearFifo s) := fun f => by
  cases f <;> simp +contextual [Flag.value, clearFifo]

end

/-! ### The composite commands, from their sub-commands -/

/-- The sub-commands of INIT that move a flag set only what the table lets INIT set; they clear what it lets INIT clear,
and EN. -/
theorem FlagsListed.inInit {j : Instr} {s u v : State} (h : FlagsListed j u v)
    (hj : j ∈ [.fxreset, .dstart, .sdmaen, .sclr, .fxenable]) :
    FlagsMove (setBy · .init s) (fun f => f = .en ∨ clearedBy f .init s) u v := by
  simp only [List.mem_cons, List.not_mem_nil, or_false] at hj
  rcases hj with rfl | rfl | rfl | rfl | rfl <;>
    exact h.mono (fun f => by cases f <;> simp [setBy]) (fun f => by cases f <;> simp [clearedBy])

/-- The sub-commands of STOP that move a flag move only what the table lets STOP move. -/
theorem FlagsListed.inStop {j : Instr} {s u v : State} (h : FlagsListed j u v) (hj : j = .fxdisable ∨ j = .dstop) :
    FlagsMove (setBy · .stop s) (clearedBy · .stop s) u v := by
  rcases hj with rfl | rfl <;>
    exact h.mono (fun f => by cases f <;> simp [setBy]) (fun f => by cases f <;> simp [clearedBy])

section
variable (s : State)

theorem initSequence_flags (p : Params) : ∀ op ∈ initSequence p, ∀ u,
    FlagsMove (setBy · .init s) (fun f => f = .en ∨ clearedBy f .init s) u (op u) := by
  simp only [initSequence, List.forall_mem_cons]
  exact ⟨fun u => (fxresetOp_listed u).inInit (by simp), setshiftOp_flags, fun u => settimaOp_flags u _,
    fun u => settimbOp_flags u _, dallocOp_flags, cacheInvalidate_flags, dsetupOp_flags,
    fun u => (dstartOp_listed u).inInit (by simp), fun u => (sdmaenOp_listed u).inInit (by simp),
    fun u => (sclrOp_listed u).inInit (by simp), fun u => (fxenableOp_listed u).inInit (by simp),
    List.forall_mem_nil _⟩

/-- INIT clears no EN, although its FXRESET does: it runs its sequence only from EN = 0 (R146). -/
theorem initOp_listed : FlagsListed .init s (initOp s) := by
  unfold initOp
  split
  · exact .of_same fun f => flagValue_raise s f _
  next idle =>
  split
  · exact .of_same fun f => flagValue_raise s f _
  · intro f
    obtain ⟨rise, fall⟩ := FlagsMove.runOps (s := s) (initSequence_flags s s.params) f
    refine ⟨rise, fun h1 h0 => (fall h1 h0).resolve_left ?_⟩
    rintro rfl
    exact idle (.inl h1)

theorem startOp_listed : FlagsListed .start s (startOp s) := by
  have init : FlagsListed .start s (initOp s) :=
    (initOp_listed s).mono (fun f => by cases f <;> simp [setBy]) (fun f => by cases f <;> simp [clearedBy])
  unfold startOp
  rcases andThen_cases (initOp s) clearFifo with ⟨-, e⟩ | ⟨-, e⟩ <;> rw [e]
  · refine init.trans ((clearFifo_flags _).mono (fun _ => False.elim) ?_)
    rintro _ rfl
    exact .inr (.inl rfl)
  · exact init

theorem stopOp_listed : FlagsListed .stop s (stopOp s) := by
  refine FlagsMove.runOps ?_
  simp only [List.forall_mem_cons]
  exact ⟨fun u => (fxdisableOp_listed u).inStop (.inl rfl), fun u => (dstopOp_listed u).inStop (.inr rfl),
    dfreeOp_flags, List.forall_mem_nil _⟩

end

/-- The flags move as R44's table lists: each instruction is one of the shared shapes around its operation. -/
theorem exec_listed {i : Instr} {s t : State} (h : exec i s = .next t) : FlagsListed i s t := by
  cases i with
  | fxreset => exact (fxresetOp_listed s).hostCommand h
  | setshift => exact (setshiftOp_flags s).hostCommand h
  | settima val => exact (settimaOp_flags s val).hostCommand h
  | settimb val => exact (settimbOp_flags s val).hostCommand h
  | sdmaen => exact (sdmaenOp_listed s).hostCommand h
  | sclr => exact (sclrOp_listed s).hostCommand h
  | fxenable => exact (fxenableOp_listed s).hostCommand h
  | getbuf => exact FlagsMove.whenLive (.withHandle _ (.of_same fun f => flagValue_withResp s f _ _)) h
  | fxdisable => exact (fxdisableOp_listed s).hostCommand h
  | dalloc => exact (dallocOp_flags s).hostCommand h
  | dsetup => exact (dsetupOp_flags s).hostCommand h
  | dstart => exact (dstartOp_listed s).hostCommand h
  | dstop => exact (dstopOp_listed s).hostCommand h
  | dfree => exact (dfreeOp_flags s).hostCommand h
  | cinv => exact (cacheInvalidate_flags s).hostCommand h
  | init => exact (initOp_listed s).hostCommand h
  | start => exact (startOp_listed s).hostCommand h
  | stop => exact (stopOp_listed s).hostCommand h
  | decode half => exact (decodeOp_flags s half).hostCommand h
  | consume tid nb cap => exact (consumeOp_listed s tid nb cap).whenLive h
  | fiforst => exact (fiforstOp_listed s).hostCommand h
  | shiftword v => exact (shiftwordOp_listed s v).agentStep h
  | dmabeat => exact (dmabeatOp_listed s).agentStep h
  | cmpl hc => exact (cmplOp_listed s hc).agentStep h
  | produce half => exact (produceOp_listed s half).agentStep h
  | wake tid => exact (wakeOp_listed s tid).agentStep h
  | sigintr tid => exact (sigintrOp_flags s tid).agentStep h

/-- Settles O57, by `exec_listed`. -/
theorem flagsChangeAsListed : Obligations.FlagsChangeAsListed := fun f _ _ _ h => exec_listed h f

end Sys2Proof.Machine
end

section
/-! Proofs of the family 20_memory: a step takes one turn of the schedule (spec/20_memory.md R83). -/

namespace Sys2Proof.Machine

section
variable {s : State} {rest : List Turn} {w v : Word} {i : Instr}

/-! ### What the next turn fetches -/

theorem fetch_of_no_turn (hs : s.sched = []) : fetch s = .done s := by
  simp only [fetch, hs]

theorem fetch_of_command (hs : s.sched = .command w :: rest) (hd : decodePort w = .ok i) :
    fetch s = .instr i (s.withSched rest) := by
  simp only [fetch, hs, hd]

theorem fetch_of_event (hs : s.sched = .event w v :: rest) (hd : decodeEvent w v = .ok i) :
    fetch s = .instr i (s.withSched rest) := by
  simp only [fetch, hs, hd]

/-! ### What a state that may step does with it -/

theorem step_of_fetch_instr {t : State} (hp : launchRefusal s.params = none) (hf : s.fault = none)
    (h : fetch s = .instr i t) : step s = exec i t := by
  rw [step_live hp hf, h]

theorem step_of_fetch_done {t : State} (hp : launchRefusal s.params = none) (hf : s.fault = none)
    (h : fetch s = .done t) : step s = .next t := by
  rw [step_live hp hf, h]

end

/-- Settles O5: the turn says what is fetched, and the step runs that. -/
theorem stepRunsTurn : Obligations.StepRunsTurn := by
  intro s hp hf
  refine ⟨fun w rest i hs hd => ?command, fun w v rest i hs hd => ?event, fun hs => ?idle⟩
  case command => exact step_of_fetch_instr hp hf (fetch_of_command hs hd)
  case event => exact step_of_fetch_instr hp hf (fetch_of_event hs hd)
  case idle => exact step_of_fetch_done hp hf (fetch_of_no_turn hs)

end Sys2Proof.Machine
end

section
/-! Proofs of the family 30_encoding: the words of instructions, their decoding, and the turn that presents them
(spec/30_encoding.md R100 to R107, R111). -/

namespace Sys2Proof

section
variable {w v : Word} {i j : Instr} {o : Nat}

/-! ### What a word that a format takes is made of -/

/-- A word is its opcode and the value of its bits 23:0 (R100). -/
theorem mkWord_opcode {n : Nat} (ho : opcode w = o) (hn : bits w 0 24 = n) : mkWord o n = w := by
  subst ho hn
  have := w.isLt
  apply BitVec.eq_of_toNat_eq
  rw [mkWord, BitVec.toNat_ofNat]
  simp only [opcode, bits]
  omega

theorem formatN_eq_ok (ho : opcode w = o) (h : formatN w i = .ok j) : j = i ∧ mkWord o 0 = w := by
  unfold formatN at h
  split at h
  case isTrue h0 =>
    cases h
    exact ⟨rfl, mkWord_opcode ho h0⟩
  case isFalse => cases h

theorem formatH_eq_ok {mk : Half → Instr} (ho : opcode w = o) (h : formatH w mk = .ok i) :
    ∃ x : Half, i = mk x ∧ mkWord o x.val = w := by
  unfold formatH at h
  split at h
  case isTrue h0 =>
    cases h
    refine ⟨_, rfl, mkWord_opcode ho ?_⟩
    simp only [bits, Fin.ofNat] at h0 ⊢
    omega
  case isFalse => cases h

theorem formatC_eq_ok {mk : BitVec 16 → Instr} (ho : opcode w = o) (h : formatC w mk = .ok i) :
    ∃ x : BitVec 16, i = mk x ∧ mkWord o x.toNat = w := by
  unfold formatC at h
  split at h
  case isTrue h0 =>
    cases h
    refine ⟨_, rfl, mkWord_opcode ho ?_⟩
    simp only [bits, BitVec.toNat_ofNat] at h0 ⊢
    omega
  case isFalse => cases h

theorem formatT_eq_ok {mk : Tid → Instr} (ho : opcode w = o) (h : formatT w mk = .ok i) :
    ∃ x : Tid, i = mk x ∧ mkWord o (x.val * 2 ^ 17) = w := by
  unfold formatT at h
  split at h
  case isTrue h0 =>
    cases h
    refine ⟨_, rfl, mkWord_opcode ho ?_⟩
    simp only [bits, Fin.ofNat] at h0 ⊢
    omega
  case isFalse => cases h

theorem formatQ_eq_ok {mk : Tid → Bool → BitVec 16 → Instr} (ho : opcode w = o) (h : formatQ w mk = .ok i) :
    ∃ (tid : Tid) (nb : Bool) (cap : BitVec 16),
      i = mk tid nb cap ∧ mkWord o (tid.val * 2 ^ 17 + nb.toNat * 2 ^ 16 + cap.toNat) = w := by
  cases h
  refine ⟨_, _, _, rfl, mkWord_opcode ho ?_⟩
  have nb : (decide (bits w 16 1 = 1)).toNat = bits w 16 1 := by
    have : bits w 16 1 < 2 := Nat.mod_lt _ (by decide)
    interval_cases bits w 16 1 <;> rfl
  rw [nb]
  simp only [bits, Fin.ofNat, BitVec.toNat_ofNat]
  omega

/-! ### The word of an instruction -/

/-- OPC of an instruction (R104). -/
def Instr.opc : Instr → Nat
  | .fxreset => 0x01
  | .setshift => 0x02
  | .settima _ => 0x03
  | .settimb _ => 0x04
  | .sdmaen => 0x05
  | .sclr => 0x06
  | .fxenable => 0x07
  | .getbuf => 0x08
  | .fxdisable => 0x09
  | .dalloc => 0x10
  | .dsetup => 0x11
  | .dstart => 0x12
  | .dstop => 0x13
  | .dfree => 0x14
  | .cinv => 0x18
  | .init => 0x20
  | .start => 0x21
  | .stop => 0x22
  | .decode _ => 0x31
  | .consume _ _ _ => 0x41
  | .fiforst => 0x42
  | .shiftword _ => 0x80
  | .dmabeat => 0x81
  | .cmpl _ => 0x83
  | .produce _ => 0x84
  | .wake _ => 0x85
  | .sigintr _ => 0x86

theorem opcode_word (i : Instr) : opcode i.word = i.opc := by
  cases i with
  | settima val | settimb val => exact opcode_mkWord (by decide) (by omega)
  | decode h | cmpl h | produce h => exact opcode_mkWord (by decide) (by omega)
  | consume tid nb cap => exact opcode_mkWord (by decide) (consume_operands_lt tid nb cap)
  | wake tid | sigintr tid => exact opcode_mkWord (by decide) (by omega)
  | _ => exact opcode_mkWord (by decide) (by decide)

/-- The internal event codes are those of the agents' instructions (R104, R107). -/
theorem isEventCode_word (i : Instr) : isEventCode i.word = decide (i.channel = .agent) := by
  rw [isEventCode, opcode_word]
  cases i <;> rfl

/-- A SHIFTWORD alone takes a second word, its payload (R106). -/
theorem payload_cases (i : Instr) :
    (i.payload = [] ∧ wordCount i.word = 1) ∨ ∃ v, i.payload = [v] ∧ wordCount i.word = 2 := by
  rw [wordCount, opcode_word]
  cases i with
  | shiftword v => exact .inr ⟨v, rfl, rfl⟩
  | _ => exact .inl ⟨rfl, rfl⟩

theorem length_payload (i : Instr) : i.payload.length + 1 = wordCount i.word := by
  rcases payload_cases i with ⟨hp, hc⟩ | ⟨v, hp, hc⟩ <;> rw [hp, hc] <;> rfl

theorem payload_of_port (h : i.channel = .port) : i.payload = [] := by
  cases i with
  | shiftword => cases h
  | _ => rfl

/-! ### The two tables of R104, in both directions -/

theorem decodeHost_word (h : i.channel = .port) : decodeHost i.word = .ok i := by
  cases i with
  | settima val | settimb val =>
    simp only [decodeHost, opcode_word, Instr.opc]
    exact formatC_mkWord (by decide)
  | decode half =>
    simp only [decodeHost, opcode_word, Instr.opc]
    exact formatH_mkWord (by decide)
  | consume tid nb cap =>
    simp only [decodeHost, opcode_word, Instr.opc]
    exact formatQ_mkWord (by decide)
  | shiftword | dmabeat | cmpl | produce | wake | sigintr => cases h
  | _ =>
    simp only [decodeHost, opcode_word, Instr.opc]
    exact formatN_mkWord (by decide)

theorem decodeEvent_word (h : i.channel = .agent) : decodeEvent i.word (i.payload.headD 0) = .ok i := by
  cases i with
  | shiftword | dmabeat =>
    simp only [decodeEvent, opcode_word, Instr.opc]
    exact formatN_mkWord (by decide)
  | cmpl half | produce half =>
    simp only [decodeEvent, opcode_word, Instr.opc]
    exact formatH_mkWord (by decide)
  | wake tid | sigintr tid =>
    simp only [decodeEvent, opcode_word, Instr.opc]
    exact formatT_mkWord (by decide)
  | _ => cases h

theorem decodeHost_eq_ok (h : decodeHost w = .ok i) : i.channel = .port ∧ i.word = w := by
  unfold decodeHost at h
  split at h
  case h_3 e | h_4 e =>
    obtain ⟨val, rfl, hw⟩ := formatC_eq_ok e h
    exact ⟨rfl, hw⟩
  case h_19 e =>
    obtain ⟨half, rfl, hw⟩ := formatH_eq_ok e h
    exact ⟨rfl, hw⟩
  case h_20 e =>
    obtain ⟨tid, nb, cap, rfl, hw⟩ := formatQ_eq_ok e h
    exact ⟨rfl, hw⟩
  case h_22 => cases h
  all_goals
    obtain ⟨rfl, hw⟩ := formatN_eq_ok ‹opcode w = _› h
    exact ⟨rfl, hw⟩

theorem decodeEvent_eq_ok (h : decodeEvent w v = .ok i) :
    i.channel = .agent ∧ i.word = w ∧ i.payload.headD v = v := by
  unfold decodeEvent at h
  split at h
  case h_1 e | h_2 e =>
    obtain ⟨rfl, hw⟩ := formatN_eq_ok e h
    exact ⟨rfl, hw, rfl⟩
  case h_3 e | h_4 e =>
    obtain ⟨half, rfl, hw⟩ := formatH_eq_ok e h
    exact ⟨rfl, hw, rfl⟩
  case h_5 e | h_6 e =>
    obtain ⟨tid, rfl, hw⟩ := formatT_eq_ok e h
    exact ⟨rfl, hw, rfl⟩
  case h_7 => cases h

/-- The internal event codes are no opcodes of the host-command table, so the port's test for them takes no command. -/
theorem decodePort_eq_ok_iff : decodePort w = .ok i ↔ decodeHost w = .ok i := by
  unfold decodePort
  split
  case isFalse => rfl
  case isTrue he =>
    refine ⟨nofun, fun h => ?_⟩
    obtain ⟨hc, rfl⟩ := decodeHost_eq_ok h
    rw [isEventCode_word, hc] at he
    cases he

theorem decodePort_word (h : i.channel = .port) : decodePort i.word = .ok i :=
  decodePort_eq_ok_iff.mpr (decodeHost_word h)

theorem decodeWord_word (i : Instr) : decodeWord i.word (i.payload.headD 0) = .ok i := by
  rw [decodeWord, isEventCode_word]
  cases hc : i.channel with
  | port => exact decodeHost_word hc
  | agent => exact decodeEvent_word hc

theorem decodeWord_eq_ok (h : decodeWord w v = .ok i) : i.word = w ∧ i.payload.headD v = v := by
  unfold decodeWord at h
  split at h
  · exact (decodeEvent_eq_ok h).2
  · obtain ⟨hc, hw⟩ := decodeHost_eq_ok h
    exact ⟨hw, by rw [payload_of_port hc, List.headD_nil]⟩

/-! ### Sequences of words -/

theorem wordCount_cases (w : Word) : wordCount w = 1 ∨ wordCount w = 2 := by
  unfold wordCount
  split
  · exact .inr rfl
  · exact .inl rfl

/-- Decoding takes the operation's words off the sequence and answers what its word and payload decode to. -/
theorem decode_cons_append {vs : List Word} (h : vs.length + 1 = wordCount w) (rest : List Word) :
    decode (w :: vs ++ rest) = (decodeWord w (vs.headD 0)).map fun i => (i, rest) := by
  match vs with
  | [] => simp [decode, ← h]
  | [v] => simp [decode, ← h]
  | _ :: _ :: _ =>
    have := wordCount_cases w
    simp only [List.length_cons] at h
    omega

theorem words_of_decode {ws : List Word} {x : Instr × List Word} (h : decode ws = .ok x) :
    ∃ w vs us, ws = w :: vs ++ us ∧ vs.length + 1 = wordCount w := by
  match ws with
  | [] => cases h
  | w :: us =>
    rcases wordCount_cases w with hc | hc
    · exact ⟨w, [], us, rfl, hc.symm⟩
    · match us with
      | v :: us => exact ⟨w, [v], us, rfl, hc.symm⟩
      | [] =>
        rw [decode, if_pos hc] at h
        cases h

end

theorem decode_encode (i : Instr) (rest : List Word) : decode (encode i ++ rest) = .ok (i, rest) := by
  rw [encode, decode_cons_append (length_payload i), decodeWord_word]
  rfl

theorem payload_eq {i : Instr} {vs : List Word} (hc : vs.length + 1 = wordCount i.word)
    (hv : i.payload.headD (vs.headD 0) = vs.headD 0) : i.payload = vs := by
  rcases payload_cases i with ⟨hp, h⟩ | ⟨u, hp, h⟩
  · rw [hp, List.eq_nil_of_length_eq_zero (by omega : vs.length = 0)]
  · obtain ⟨v, rfl⟩ := List.length_eq_one_iff.mp (by omega : vs.length = 1)
    rw [hp] at hv ⊢
    exact congrArg ([·]) hv

theorem encode_of_decode {ws rest : List Word} {i : Instr} (h : decode ws = .ok (i, rest)) : encode i ++ rest = ws := by
  obtain ⟨w, vs, us, rfl, hc⟩ := words_of_decode h
  rw [decode_cons_append hc] at h
  cases hd : decodeWord w (vs.headD 0) with
  | error r =>
    rw [hd] at h
    cases h
  | ok j =>
    rw [hd] at h
    cases h
    obtain ⟨rfl, hv⟩ := decodeWord_eq_ok hd
    rw [encode, payload_eq hc hv]

/-- Settles O2, by the tables of R104 on the word of each instruction. -/
theorem decodeEncodeAgree : Obligations.DecodeEncodeAgree :=
  decode_encode

/-- Settles O3: a decoded word is made of the fields its format reads; decoding takes the words that encoding gives. -/
theorem encodeDecodeAgree : Obligations.EncodeDecodeAgree :=
  fun _ _ _ h => encode_of_decode h

/-- Settles O1: the seven words are computed, and their decoding is the round trip of O2. -/
theorem workedEncodings : Obligations.WorkedEncodings :=
  ⟨rfl, decode_encode .fxreset [], rfl, decode_encode (.settima 0x1F03) [], rfl, decode_encode (.decode 1) [],
    rfl, decode_encode (.consume 5 false 192) [], rfl, decode_encode (.consume 5 true 192) [],
    rfl, decode_encode (.cmpl 0) [], rfl, decode_encode (.wake 5) []⟩

/-! ### The words the command port takes -/

section
variable {w : Word}

theorem formatN_isOk {i : Instr} : (∃ j, formatN w i = .ok j) ↔ bits w 0 24 = 0 := by
  unfold formatN
  split <;> simp [*]

theorem formatH_isOk {mk : Half → Instr} : (∃ j, formatH w mk = .ok j) ↔ bits w 1 23 = 0 := by
  unfold formatH
  split <;> simp [*]

theorem formatC_isOk {mk : BitVec 16 → Instr} : (∃ j, formatC w mk = .ok j) ↔ bits w 16 8 = 0 := by
  unfold formatC
  split <;> simp [*]

open Claims in
/-- Each row of the host-command table takes the words whose bits reserved by its format are 0. -/
theorem decodeHost_isOk : (∃ i, decodeHost w = .ok i) ↔ acceptedWord w := by
  unfold decodeHost
  split
  case h_3 e | h_4 e => simp [acceptedWord, e, formatC_isOk]
  case h_19 e => simp [acceptedWord, e, formatH_isOk]
  case h_20 e => simp [acceptedWord, e, formatQ]
  case h_22 => simp_all [acceptedWord]
  all_goals simp [acceptedWord, formatN_isOk, *]

/-- Settles O4: the port's test for event codes takes no word from the host-command table. -/
theorem portTakesHostWords : Obligations.PortTakesHostWords := by
  intro w
  simp only [decodePort_eq_ok_iff]
  exact decodeHost_isOk

end
end Sys2Proof

namespace Sys2Proof.Machine

/-! ### The turn that presents a word -/

/-- Settles O6: a word decodes on its channel to its instruction, and the step runs what the turn decodes to (O5). -/
theorem encodedInstructionRuns : Obligations.EncodedInstructionRuns := by
  intro s i rest hp hf
  obtain ⟨hcommand, hevent, -⟩ := stepRunsTurn s hp hf
  exact ⟨fun hw hs => hcommand _ _ _ hs (decodePort_word (of_decide_eq_true hw)),
    fun hw hs => hevent _ _ _ _ hs (decodeEvent_word (of_decide_eq_true hw))⟩

theorem fetch_of_rejected {s : State} {w : Word} {rest : List Turn} {r : Reject} (hs : s.sched = .command w :: rest)
    (hd : decodePort w = .error r) : fetch s = .done (raise (.illegalCommand w) (s.withSched rest)) := by
  simp only [fetch, hs, hd]

/-- Settles O7: a word that is not accepted has no instruction (O4), so the turn raises the fault. -/
theorem rejectedWordFaults : Obligations.RejectedWordFaults := by
  intro s w rest hp hf hs hw
  cases hd : decodePort w with
  | ok i => exact absurd ((portTakesHostWords w).mp ⟨i, hd⟩) hw
  | error r =>
    rw [step_of_fetch_done hp hf (fetch_of_rejected hs hd)]
    simp [raise, State.withSched, hf]

end Sys2Proof.Machine
end

section
/-! Proofs of the family 40_config: what each HOST command of the peripheral, of the DMA channel and of a session does
(spec/40_config.md R130 to R149). -/

namespace Sys2Proof.Machine

open Sys2Proof.Claims

/-! ### The common shape of a command (R130) -/

section
variable {s t : State} {r : FaultRecord}

/-- The first fault recorded is the one raised (R43). -/
theorem raise_eq_faulted (hs : s.fault = none) : raise r s = faulted s r := by simp [raise, faulted, hs]

theorem hostCommand_done {op : State → State} (hs : s.fault = none) (ht : t.fault = none) (h : op s = t) :
    hostCommand op s = .next (done t) := by
  subst h
  exact hostCommand_completes hs ht

theorem hostCommand_faulted {op : State → State} (hs : s.fault = none) (ht : t.fault = none) (h : op s = raise r t) :
    hostCommand op s = .next (faulted t r) := by
  rw [hostCommand_faults hs (h ▸ raise_fault_ne_none r t), h, raise_eq_faulted ht]

/-- A command is its operation's effect on the state at hand. -/
theorem hostCommand_congr {op op' : State → State} (h : op s = op' s) : hostCommand op s = hostCommand op' s := by
  simp only [hostCommand, whenLive, h]

theorem withHandle_absent_faulted {w : Word} {op : State → State} (hs : s.fault = none)
    (hp : s.params.handlePresent = false) : withHandle w op s = faulted s (.fatalNoHandle w) := by
  rw [withHandle_absent hp, raise_eq_faulted hs]

theorem needsHandle_hostCommand {i : Instr} {w : Word} {op : State → State} (hw : encode i = [w])
    (he : exec i = hostCommand (withHandle w op)) : needsHandle i w :=
  ⟨hw, fun s hs hp => by rw [he, hostCommand_faulted hs hs (withHandle_absent hp)]⟩

/-- A sequence whose first operation reaches `t` without a fault ends where the rest ends from `t`. -/
theorem runOps_cons_to {f : State → State} {fs : List (State → State)} {u : State} (h : f s = t) (ht : t.fault = none)
    (hu : runOps fs t = u) : runOps (f :: fs) s = u := by
  subst h
  rw [runOps_cons_live ht, hu]

/-- A sequence stops at an operation that raises a fault (R291). -/
theorem runOps_cons_raise {f : State → State} {fs : List (State → State)} (h : f s = raise r t) :
    runOps (f :: fs) s = raise r t := by
  rw [runOps_cons_halted (h ▸ raise_fault_ne_none r t), h]

end

/-! ### The peripheral's operations, with a handle (R131 to R138) -/

section
variable {s : State} {val : BitVec 16} (hp : s.params.handlePresent = true)
include hp

theorem fxresetOp_of_handle : fxresetOp s = s.withFx .reset := withHandle_present hp

theorem setshiftOp_enabled (he : s.fx.en = true) :
    setshiftOp s = raise (.configInvalid Instr.setshift.word) s :=
  (withHandle_present hp).trans (if_pos he)

theorem setshiftOp_stopped (he : s.fx.en = false) :
    setshiftOp s = s.withFx { s.fx with shcfg := shcfgReceive s.params } :=
  (withHandle_present hp).trans (if_neg (ne_true_of_eq_false he))

theorem settimaOp_enabled (he : s.fx.en = true) :
    settimaOp val s = raise (.configInvalid (Instr.settima val).word) s :=
  (withHandle_present hp).trans (if_pos he)

theorem settimaOp_stopped (he : s.fx.en = false) :
    settimaOp val s = s.withFx { s.fx with tima := ⟨.dual8Baud, .freeRunning, val⟩ } :=
  (withHandle_present hp).trans (if_neg (ne_true_of_eq_false he))

theorem settimbOp_enabled (he : s.fx.en = true) :
    settimbOp val s = raise (.configInvalid (Instr.settimb val).word) s :=
  (withHandle_present hp).trans (if_pos he)

theorem settimbOp_stopped (he : s.fx.en = false) :
    settimbOp val s = s.withFx { s.fx with timb := ⟨.single16, .onTimAEnable, .timAOutput, val⟩ } :=
  (withHandle_present hp).trans (if_neg (ne_true_of_eq_false he))

theorem sdmaenOp_of_handle : sdmaenOp s = s.withFx { s.fx with shstat := { s.fx.shstat with ssde := true } } :=
  withHandle_present hp

theorem sclrOp_of_handle :
    sclrOp s = s.withFx { s.fx with shstat := { s.fx.shstat with ssf := false, sef := false } } :=
  withHandle_present hp

theorem fxenableOp_configured (hc : s.fx.configured = true) : fxenableOp s = s.withFx { s.fx with en := true } :=
  (withHandle_present hp).trans (if_pos hc)

theorem fxenableOp_unconfigured (hc : ¬ s.fx.configured = true) :
    fxenableOp s = raise (.configInvalid Instr.fxenable.word) s :=
  (withHandle_present hp).trans (if_neg hc)

theorem fxdisableOp_of_handle :
    fxdisableOp s = s.withFx { s.fx with en := false, shstat := { s.fx.shstat with ssde := false } } :=
  withHandle_present hp

end

theorem Peripheral.configured_iff (x : Peripheral) :
    x.configured = true ↔ x.shcfg.mode = .receive ∧ x.tima.mode = .dual8Baud ∧ x.timb.mode = .single16 := by
  simp only [Peripheral.configured, Bool.and_eq_true, decide_eq_true_eq, and_assoc]

/-- The half-period takes CMP[15:8], eight bits, so it is at most 256 (R133). -/
theorem halfPeriod_eq (cmp : BitVec 16) : halfPeriod cmp = (cmp.extractLsb' 8 8).toNat + 1 := by
  have hlt := cmp.isLt
  rw [halfPeriod, BitVec.extractLsb'_toNat, Nat.shiftRight_eq_div_pow]
  omega

/-! ### The channel's operations (R140 to R144) -/

section
variable {s : State}

theorem dallocOp_held (ha : s.dma.ch.alloc = true) : dallocOp s = s := if_pos ha

theorem dallocOp_granted (ha : s.dma.ch.alloc = false) (hd : allocDraw s = true) :
    dallocOp s = allocated (afterAllocDraw s) :=
  (if_neg (ne_true_of_eq_false ha)).trans (if_pos hd)

theorem dallocOp_denied (ha : s.dma.ch.alloc = false) (hd : allocDraw s = false) :
    dallocOp s = raise (.fatalDmaAlloc s.params.dmaChannel) (afterAllocDraw s) :=
  (if_neg (ne_true_of_eq_false ha)).trans (if_neg (ne_true_of_eq_false hd))

theorem dmaAligned_iff (p : Params) :
    dmaAligned p = true ↔ p.rawBufBase.toNat % 4 = 0 ∧ p.shiftBufBisAddr.toNat % 4 = 0 := by
  simp only [dmaAligned, Bool.and_eq_true, decide_eq_true_eq]

/-- R7 asks more of the addresses than a transfer does. -/
theorem dmaAligned_of_admissible {p : Params} (h : admissible p = true) : dmaAligned p = true := by
  obtain ⟨-, -, -, -, hraw, hshift, -⟩ := (admissible_iff p).mp h
  exact (dmaAligned_iff p).mpr ⟨by omega, hshift⟩

theorem dsetupOp_refused (h : s.dma.ch.alloc = false ∨ s.dma.ch.erq = true ∨ ¬ dmaAligned s.params = true) :
    dsetupOp s = raise (.configInvalid Instr.dsetup.word) s := by
  rw [dsetupOp]
  by_cases hc : s.dma.ch.alloc = false ∨ s.dma.ch.erq = true
  · rw [if_pos hc]
  · have hal : ¬ dmaAligned s.params = true := by tauto
    rw [if_neg hc, if_pos (eq_false_of_ne_true hal)]

theorem dsetupOp_programs (ha : s.dma.ch.alloc = true) (hq : s.dma.ch.erq = false)
    (hal : dmaAligned s.params = true) :
    dsetupOp s = s.withDma { s.dma with tcd := setupTcd s.params, ch := { s.dma.ch with tcdv := true } } := by
  rw [dsetupOp, if_neg (by simp [ha, hq]), if_neg (by simp [hal])]
  rfl

theorem dstartOp_refused (h : s.dma.ch.tcdv = false) : dstartOp s = raise (.configInvalid Instr.dstart.word) s :=
  if_pos h

theorem dstartOp_programmed (h : s.dma.ch.tcdv = true) :
    dstartOp s = s.withDma { s.dma with ch := { s.dma.ch with erq := true } } :=
  if_neg (ne_false_of_eq_true h)

theorem dfreeOp_running (h : s.dma.ch.erq = true) : dfreeOp s = raise (.configInvalid Instr.dfree.word) s := if_pos h

theorem dfreeOp_stopped (h : s.dma.ch.erq = false) :
    dfreeOp s = s.withDma { s.dma with ch := { s.dma.ch with alloc := false, reqsrc := .none, tcdv := false } } :=
  if_neg (ne_true_of_eq_false h)

end

/-! ### The peripheral commands -/

/-- Settles O12. -/
theorem fxresetRestoresRecords : Obligations.FxresetRestoresRecords :=
  ⟨needsHandle_hostCommand rfl rfl, fun _ hs hp => hostCommand_done hs hs (fxresetOp_of_handle hp)⟩

/-- Settles O13, by the two cases of EN. -/
theorem setshiftConfiguresShifter : Obligations.SetshiftConfiguresShifter :=
  ⟨needsHandle_hostCommand rfl rfl, fun _ hs hp =>
    ⟨fun he => hostCommand_faulted hs hs (setshiftOp_enabled hp he),
      fun he => hostCommand_done hs hs (setshiftOp_stopped hp he)⟩⟩

/-- Settles O14, by the two cases of EN, and the half-period from the bits of VAL. -/
theorem settimaConfiguresTimerA : Obligations.SettimaConfiguresTimerA := by
  refine ⟨fun val => needsHandle_hostCommand rfl rfl, fun s _ hs hp => ⟨fun he => ?_, fun he => ?_⟩,
    rfl, rfl, fun val => ⟨halfPeriod_eq val, ?_⟩⟩
  · exact hostCommand_faulted hs hs (settimaOp_enabled hp he)
  · exact hostCommand_done hs hs (settimaOp_stopped hp he)
  · have hlt := (val.extractLsb' 8 8).isLt
    rw [halfPeriod_eq]
    omega

/-- Settles O15, by the two cases of EN. -/
theorem settimbConfiguresTimerB : Obligations.SettimbConfiguresTimerB :=
  ⟨fun _ => needsHandle_hostCommand rfl rfl, fun _ _ hs hp =>
    ⟨fun he => hostCommand_faulted hs hs (settimbOp_enabled hp he),
      fun he => hostCommand_done hs hs (settimbOp_stopped hp he)⟩⟩

/-- Settles O16. -/
theorem sdmaenEnablesRequests : Obligations.SdmaenEnablesRequests :=
  ⟨needsHandle_hostCommand rfl rfl, fun _ hs hp => hostCommand_done hs hs (sdmaenOp_of_handle hp)⟩

/-- Settles O17. -/
theorem sclrClearsStatus : Obligations.SclrClearsStatus :=
  ⟨needsHandle_hostCommand rfl rfl, fun _ hs hp => hostCommand_done hs hs (sclrOp_of_handle hp)⟩

/-- Settles O18: R137's condition is the model's test `configured`. -/
theorem fxenableNeedsConfiguration : Obligations.FxenableNeedsConfiguration := by
  refine ⟨needsHandle_hostCommand rfl rfl, fun s hs hp => ?_⟩
  rw [← Peripheral.configured_iff]
  exact ⟨fun hc => hostCommand_done hs hs (fxenableOp_configured hp hc),
    fun hc => hostCommand_faulted hs hs (fxenableOp_unconfigured hp hc)⟩

/-- Settles O19. -/
theorem fxdisableStopsPeripheral : Obligations.FxdisableStopsPeripheral :=
  ⟨needsHandle_hostCommand rfl rfl, fun _ hs hp => hostCommand_done hs hs (fxdisableOp_of_handle hp)⟩

/-- Settles O20: GETBUF delivers a result of its own, so it is no `hostCommand`. -/
theorem getbufReturnsAddress : Obligations.GetbufReturnsAddress := by
  refine ⟨⟨rfl, fun s hs hp => ?_⟩, fun s hs hp => ?_⟩
  · exact (whenLive_live hs).trans (congrArg _ (withHandle_absent_faulted hs hp))
  · exact (whenLive_live hs).trans (congrArg _ (withHandle_present hp))

/-! ### The DMA commands -/

/-- Settles O21, by the channel held or not, then by the draw. -/
theorem dallocFollowsDraw : Obligations.DallocFollowsDraw := by
  refine ⟨rfl, fun s hs => ⟨fun ha => hostCommand_done hs hs (dallocOp_held ha), fun ha ok hd => ?_⟩⟩
  cases ok with
  | true => exact hostCommand_done hs hs (dallocOp_granted ha hd)
  | false => exact hostCommand_faulted hs hs (dallocOp_denied ha hd)

/-- Settles O22: an address off a multiple of 4 is one that fails the model's test `dmaAligned`. -/
theorem dsetupProgramsTransfer : Obligations.DsetupProgramsTransfer := by
  refine ⟨rfl, fun s hs => ⟨fun h => ?_, fun ha hq hraw hshift => ?_⟩⟩
  · have hr : s.dma.ch.alloc = false ∨ s.dma.ch.erq = true ∨ ¬ dmaAligned s.params = true := by
      rw [dmaAligned_iff]
      tauto
    exact hostCommand_faulted hs hs (dsetupOp_refused hr)
  · exact hostCommand_done hs hs (dsetupOp_programs ha hq ((dmaAligned_iff _).mpr ⟨hraw, hshift⟩))

/-- Settles O23, by the two cases of TCDV. -/
theorem dstartNeedsTransfer : Obligations.DstartNeedsTransfer :=
  ⟨rfl, fun _ hs => ⟨fun h => hostCommand_faulted hs hs (dstartOp_refused h),
    fun h => hostCommand_done hs hs (dstartOp_programmed h)⟩⟩

/-- Settles O24: DSTOP has one case. -/
theorem dstopDropsEvents : Obligations.DstopDropsEvents :=
  ⟨rfl, fun _ hs => hostCommand_done (op := dstopOp) hs hs rfl⟩

/-- Settles O25, by the two cases of ERQ. -/
theorem dfreeNeedsStoppedChannel : Obligations.DfreeNeedsStoppedChannel :=
  ⟨rfl, fun _ hs => ⟨fun h => hostCommand_faulted hs hs (dfreeOp_running h),
    fun h => hostCommand_done hs hs (dfreeOp_stopped h)⟩⟩

/-- Settles O26: under COHERENT the operation of CINV leaves the state (R82). -/
theorem cinvChangesNoValue : Obligations.CinvChangesNoValue :=
  ⟨rfl, fun _ hs => hostCommand_done (op := cacheInvalidate) hs hs rfl⟩

/-! ### INIT (R146) -/

/-- INIT's sub-commands once the channel is allocated. -/
def runSequence : List (State → State) :=
  [cacheInvalidate, dsetupOp, dstartOp, sdmaenOp, sclrOp, fxenableOp]

section
variable {s : State}

theorem initOp_active (h : s.fx.en = true ∨ s.dma.ch.erq = true) :
    initOp s = raise (.reinitActive Instr.init.word) s := if_pos h

theorem initOp_of_no_handle (he : s.fx.en = false) (hq : s.dma.ch.erq = false) (hp : s.params.handlePresent = false) :
    initOp s = raise (.fatalNoHandle 0) s :=
  (if_neg (by simp [he, hq])).trans (if_pos hp)

/-- FXRESET clears EN, so SETSHIFT, SETTIMA and SETTIMB after it do not refuse: they leave the peripheral configured,
whatever it was. -/
theorem runOps_initSequence (hs : s.fault = none) (hp : s.params.handlePresent = true) :
    runOps (initSequence s.params) s = runOps (dallocOp :: runSequence) (s.withFx (configuredFx s.params)) :=
  runOps_cons_to (fxresetOp_of_handle hp) hs <|
  runOps_cons_to (setshiftOp_stopped hp rfl) hs <|
  runOps_cons_to (settimaOp_stopped hp rfl) hs <|
  runOps_cons_to (settimbOp_stopped hp rfl) hs rfl

/-- With the peripheral configured and the channel allocated the rest of INIT runs to its end. -/
theorem runOps_runSequence (hs : s.fault = none) (hp : s.params.handlePresent = true) (ha : s.dma.ch.alloc = true)
    (hq : s.dma.ch.erq = false) (hal : dmaAligned s.params = true) :
    runOps runSequence (s.withFx (configuredFx s.params)) = initDone s :=
  runOps_cons_to (f := cacheInvalidate) rfl hs <|
  runOps_cons_to (dsetupOp_programs ha hq hal) hs <|
  runOps_cons_to (dstartOp_programmed rfl) hs <|
  runOps_cons_to (sdmaenOp_of_handle hp) hs <|
  runOps_cons_to (sclrOp_of_handle hp) hs <|
  runOps_cons_to (fxenableOp_configured hp rfl) hs rfl

section
variable (hs : s.fault = none) (he : s.fx.en = false) (hq : s.dma.ch.erq = false) (hp : s.params.handlePresent = true)
include hs he hq hp

theorem initOp_idle : initOp s = runOps (dallocOp :: runSequence) (s.withFx (configuredFx s.params)) := by
  rw [initOp, if_neg (by simp [he, hq]), if_neg (by simp [State.handle, hp]), runOps_initSequence hs hp]

theorem initOp_held (ha : s.dma.ch.alloc = true) (hal : dmaAligned s.params = true) : initOp s = initDone s :=
  (initOp_idle hs he hq hp).trans <|
    runOps_cons_to (dallocOp_held ha) hs (runOps_runSequence hs hp ha hq hal)

theorem initOp_granted (ha : s.dma.ch.alloc = false) (hd : allocDraw s = true) (hal : dmaAligned s.params = true) :
    initOp s = initDone (allocated (afterAllocDraw s)) :=
  (initOp_idle hs he hq hp).trans <|
    runOps_cons_to (dallocOp_granted ha hd) hs (runOps_runSequence (s := allocated (afterAllocDraw s)) hs hp rfl hq hal)

theorem initOp_denied (ha : s.dma.ch.alloc = false) (hd : allocDraw s = false) :
    initOp s = raise (.fatalDmaAlloc s.params.dmaChannel) { afterAllocDraw s with fx := configuredFx s.params } :=
  (initOp_idle hs he hq hp).trans (runOps_cons_raise (dallocOp_denied ha hd))

end

/-- INIT's reasons to fault: a session active, no handle, no channel. -/
theorem initOp_fault_ne_none (hs : s.fault = none)
    (h : s.fx.en = true ∨ s.dma.ch.erq = true ∨ s.params.handlePresent = false ∨
      (s.dma.ch.alloc = false ∧ allocDraw s = false)) : (initOp s).fault ≠ none := by
  by_cases hactive : s.fx.en = true ∨ s.dma.ch.erq = true
  · rw [initOp_active hactive]
    exact raise_fault_ne_none _ _
  · obtain ⟨he, hq⟩ : s.fx.en = false ∧ s.dma.ch.erq = false := by simpa using hactive
    cases hp : s.params.handlePresent with
    | false =>
      rw [initOp_of_no_handle he hq hp]
      exact raise_fault_ne_none _ _
    | true =>
      obtain ⟨ha, hd⟩ : s.dma.ch.alloc = false ∧ allocDraw s = false := by simpa [he, hq, hp] using h
      rw [initOp_denied hs he hq hp ha hd]
      exact raise_fault_ne_none _ _

end

/-- Settles O27, by the order of INIT's checks and the three answers of DALLOC. -/
theorem initBringsUpBlock : Obligations.InitBringsUpBlock := by
  refine ⟨rfl, fun s hs => ⟨fun h => ?_, fun he hq hp => ?_, fun he hq hp hraw hshift => ?_⟩⟩
  · exact hostCommand_faulted hs hs (initOp_active h)
  · exact hostCommand_faulted hs hs (initOp_of_no_handle he hq hp)
  · have hal : dmaAligned s.params = true := (dmaAligned_iff _).mpr ⟨hraw, hshift⟩
    exact ⟨fun ha => hostCommand_done hs hs (initOp_held hs he hq hp ha hal),
      fun ha hd => hostCommand_done hs hs (initOp_granted hs he hq hp ha hd hal),
      fun ha hd => hostCommand_faulted hs hs (initOp_denied hs he hq hp ha hd)⟩

/-! ### START and STOP (R148, R149) -/

section
variable {s t : State}

theorem startOp_of_initOp_faults (h : (initOp s).fault ≠ none) : startOp s = initOp s := andThen_halted h

theorem startOp_of_initOp (h : initOp s = t) (ht : t.fault = none) : startOp s = clearFifo t := by
  subst h
  exact andThen_live ht

theorem stopOp_of_no_handle (hp : s.params.handlePresent = false) :
    stopOp s = raise (.fatalNoHandle Instr.fxdisable.word) s :=
  runOps_cons_raise (withHandle_absent hp)

/-- DSTOP clears ERQ, so DFREE after it does not refuse. -/
theorem stopOp_of_handle (hs : s.fault = none) (hp : s.params.handlePresent = true) :
    stopOp s = { s with
      fx := { s.fx with en := false, shstat := { s.fx.shstat with ssde := false } }
      dma := { s.dma with ch := ⟨false, .none, false, false⟩, evq := [] } } :=
  runOps_cons_to (fxdisableOp_of_handle hp) hs <|
  runOps_cons_to (f := dstopOp) rfl hs <|
  runOps_cons_to (dfreeOp_stopped rfl) hs rfl

end

/-- Settles O29: START adds to INIT its own writes, which INIT's fault stops. -/
theorem startClearsFifo : Obligations.StartClearsFifo := by
  refine ⟨rfl, fun s hs => ⟨fun h => ?_, fun he hq hp hadm => ⟨fun ha => ?_, fun ha hd => ?_⟩⟩⟩
  · exact hostCommand_congr (startOp_of_initOp_faults (initOp_fault_ne_none hs h))
  · have hinit := initOp_held hs he hq hp ha (dmaAligned_of_admissible hadm)
    exact hostCommand_done hs hs (startOp_of_initOp hinit hs)
  · have hinit := initOp_granted hs he hq hp ha hd (dmaAligned_of_admissible hadm)
    exact hostCommand_done hs hs (startOp_of_initOp hinit hs)

/-- Settles O30: without a handle FXDISABLE, the first of the three, records the fault with its own word (log 10). -/
theorem stopTearsDown : Obligations.StopTearsDown :=
  ⟨rfl, fun _ hs => ⟨fun hp => ⟨_, hostCommand_faulted hs hs (stopOp_of_no_handle hp)⟩,
    fun hp => hostCommand_done hs hs (stopOp_of_handle hs hp)⟩⟩

end Sys2Proof.Machine
end

section
/-! Proofs of the family 41_capture_dma: a beat of the DMA, the capture of words in turn, where the storing instructions
store, and the invariant of the block (spec/41_capture_dma.md R180 to R191; spec/10_state.md R30 to R42). -/

namespace Sys2Proof.Machine

open Sys2Proof.Claims

/-! ### The transfer record through a beat (R184, R185) -/

section
variable {p : Params} {c : Tcd} {n : BitVec 16}

/-- The last beat of a major loop reloads. -/
theorem Tcd.advance_last (h : c.citer = 1) :
    c.advance = { c with daddr := c.daddr + c.doff.signExtend 32 + c.dlast, citer := c.biter } := by
  simp [Tcd.advance, h]

theorem Tcd.advance_more (h : c.citer ≠ 1) :
    c.advance = { c with daddr := c.daddr + c.doff.signExtend 32, citer := c.citer - 1 } := by
  have : c.citer - 1 ≠ 0 := fun e => h (by bv_omega)
  simp only [Tcd.advance, if_neg this]

/-- The transfer record that DSETUP writes, at the position of the count `n`. -/
def tcdFor (p : Params) (n : BitVec 16) : Tcd :=
  { tcdProgrammed p with daddr := rawAddr p (512 - n.toNat), citer := n }

theorem tcdAt_tcdFor (hlo : 1 ≤ n.toNat) (hhi : n.toNat ≤ 512) : tcdAt p (tcdFor p n) := ⟨hlo, hhi, rfl⟩

theorem rawAddr_zero (p : Params) : rawAddr p 0 = p.rawBufBase := by simp [rawAddr]

/-- One word on is 4 bytes on. -/
theorem rawAddr_add_four (p : Params) (i : Nat) : rawAddr p i + 4 = rawAddr p (i + 1) := by
  have next : BitVec.ofNat 32 (4 * (i + 1)) = BitVec.ofNat 32 (4 * i) + 4 := by
    rw [Nat.mul_succ, BitVec.ofNat_add]
    rfl
  rw [rawAddr, rawAddr, next, BitVec.add_assoc]

theorem setupTcd_eq_tcdFor (p : Params) : setupTcd p = tcdFor p 512 := by
  simp [setupTcd, tcdFor, tcdProgrammed, rawAddr_zero]

/-- After the last word the record is the programmed one again. -/
theorem advance_tcdFor_one (p : Params) : (tcdFor p 1).advance = tcdFor p 512 := by
  rw [Tcd.advance_last rfl]
  have wrap : rawAddr p 511 + 4 + -2048 = rawAddr p 0 := by simp [rawAddr, BitVec.add_assoc]
  simpa [tcdFor, tcdProgrammed] using wrap

theorem advance_tcdFor (hlo : 1 < n.toNat) (hhi : n.toNat ≤ 512) : (tcdFor p n).advance = tcdFor p (n - 1) := by
  have next : 512 - (n - 1).toNat = 512 - n.toNat + 1 := by bv_omega
  rw [Tcd.advance_more (by rintro rfl; exact absurd hlo (by decide))]
  simp only [tcdFor, next, ← rawAddr_add_four]
  rfl

/-- The fields of the record that a beat reads. -/
theorem tcdAt_fields (h : tcdAt p c) :
    c.saddr = p.shiftBufBisAddr ∧ c.daddr = rawAddr p (512 - c.citer.toNat) ∧ c.doff = 4 ∧ c.biter / 2 = 256 ∧
      c.inthalf = true ∧ c.intmajor = true := by
  obtain ⟨-, -, e⟩ := h
  rw [e]
  exact ⟨rfl, rfl, rfl, by simp [tcdProgrammed], rfl, rfl⟩

/-- A record at the position of its count is at its last word, or has more to come. -/
theorem tcdAt_cases (h : tcdAt p c) :
    (c.citer = 1 ∧ c = tcdFor p 1) ∨
      (c.citer ≠ 1 ∧ 1 < c.citer.toNat ∧ c.citer.toNat ≤ 512 ∧ c = tcdFor p c.citer) := by
  obtain ⟨hlo, hhi, e⟩ := h
  by_cases h1 : c.citer = 1
  · exact .inl ⟨h1, h1 ▸ e⟩
  · exact .inr ⟨h1, by bv_omega, hhi, e⟩

/-- A beat keeps the invariant of R185. -/
theorem tcdAt_advance (h : tcdAt p c) : tcdAt p c.advance := by
  rcases tcdAt_cases h with ⟨-, e⟩ | ⟨-, hlo, hhi, e⟩ <;> rw [e]
  · rw [advance_tcdFor_one]
    exact tcdAt_tcdFor (by decide) (by decide)
  · rw [advance_tcdFor hlo hhi]
    exact tcdAt_tcdFor (by bv_omega) (by bv_omega)

/-- What a beat makes of the record: DADDR and CITER move on, or reload after RAW[511]. -/
theorem advance_of_tcdAt (h : tcdAt p c) :
    c.advance = { c with
      daddr := if c.citer = 1 then p.rawBufBase else c.daddr + 4
      citer := if c.citer = 1 then 512 else c.citer - 1 } := by
  rcases tcdAt_cases h with ⟨h1, e⟩ | ⟨h1, -, -, e⟩
  · rw [if_pos h1, if_pos h1, e, advance_tcdFor_one, tcdFor, ← rawAddr_zero]
    rfl
  · obtain ⟨-, -, hdoff, -⟩ := tcdAt_fields h
    rw [if_neg h1, if_neg h1, Tcd.advance_more h1, hdoff]
    rfl

end

/-! ### Words in memory (R71, R73, R184) -/

section
variable {m : Memory} {o : ByteOrder} {a b : Addr} {v : Word}

/-- The position of a byte of a word in the store of that word. -/
theorem Memory.offset_add (a : Addr) {k : Nat} (hk : k < 2 ^ 32) :
    Memory.offset a (a + BitVec.ofNat 32 k).toNat = k := by
  rw [Memory.offset, BitVec.toNat_add, BitVec.toNat_ofNat]
  omega

theorem Memory.byteAt_storeWord {k : Nat} (hk : k < 4) :
    some ((m.storeWord o a v).byteAt (a + BitVec.ofNat 32 k).toNat) = (bytesOfWord o v)[k]? := by
  rw [Memory.storeWord, Memory.byteAt_store _ _ _ _ (BitVec.isLt _) (by simp), Memory.offset_add a (by omega),
    List.getElem?_eq_getElem (by simpa using hk)]
  rfl

/-- A store of a word leaves every byte but its four. -/
theorem Memory.byteAt_storeWord_other {x : Nat} (hx : x < 2 ^ 32) (h : ∀ k, k < 4 → x ≠ (a + BitVec.ofNat 32 k).toNat) :
    (m.storeWord o a v).byteAt x = m.byteAt x := by
  have outside : 4 ≤ Memory.offset a x := by
    by_contra hlt
    refine h (Memory.offset a x) (by omega) ?_
    rw [BitVec.toNat_add, BitVec.toNat_ofNat, Memory.offset]
    omega
  rw [Memory.storeWord, Memory.byteAt_store _ _ _ _ hx (by simp), List.getElem?_eq_none (by simpa using outside)]
  rfl

/-- A word that was stored is read back. -/
theorem Memory.loadWord_storeWord : (m.storeWord o a v).loadWord o a = v := by
  have byte {k : Nat} (hk : k < 4) := Memory.byteAt_storeWord (m := m) (o := o) (a := a) (v := v) hk
  refine wordOfBytes_bytesOfWord o v _ _ _ _ (List.ext_getElem? fun k => ?_)
  match k with
  | 0 => simpa using (byte (k := 0) (by omega)).symm
  | 1 => exact (byte (by omega)).symm
  | 2 => exact (byte (by omega)).symm
  | 3 => exact (byte (by omega)).symm
  | k + 4 => rw [List.getElem?_eq_none (by simp)]; rfl

/-- A word apart from the one stored keeps its value. -/
theorem Memory.loadWord_storeWord_other
    (h : ∀ j k, j < 4 → k < 4 → (b + BitVec.ofNat 32 j).toNat ≠ (a + BitVec.ofNat 32 k).toNat) :
    (m.storeWord o a v).loadWord o b = m.loadWord o b := by
  have byte {j : Nat} (hj : j < 4) :
      (m.storeWord o a v).byteAt (b + BitVec.ofNat 32 j).toNat = m.byteAt (b + BitVec.ofNat 32 j).toNat :=
    Memory.byteAt_storeWord_other (BitVec.isLt _) fun k hk => h j k hj hk
  have first : (m.storeWord o a v).byteAt b.toNat = m.byteAt b.toNat := by simpa using byte (j := 0) (by omega)
  unfold Memory.loadWord
  rw [first]
  congr 1
  · exact byte (j := 1) (by omega)
  · exact byte (j := 2) (by omega)
  · exact byte (j := 3) (by omega)

end

/-- The bytes of the raw buffer in plain addresses: the buffer ends inside the space (R7). -/
theorem toNat_rawAddr_add {p : Params} (hp : p.rawBufBase.toNat + 2047 < 2 ^ 32) {i k : Nat} (hi : i < 512)
    (hk : k < 4) : (rawAddr p i + BitVec.ofNat 32 k).toNat = p.rawBufBase.toNat + (4 * i + k) := by
  rw [rawAddr, BitVec.toNat_add, BitVec.toNat_add, BitVec.toNat_ofNat, BitVec.toNat_ofNat]
  omega

/-- Two raw words share no byte. -/
theorem rawAddr_apart {p : Params} (hp : p.rawBufBase.toNat + 2047 < 2 ^ 32) {i j : Nat} (hi : i < 512) (hj : j < 512)
    (hne : j ≠ i) {l k : Nat} (hl : l < 4) (hk : k < 4) :
    (rawAddr p j + BitVec.ofNat 32 l).toNat ≠ (rawAddr p i + BitVec.ofNat 32 k).toNat := by
  rw [toNat_rawAddr_add hp hj hl, toNat_rawAddr_add hp hi hk]
  omega

/-- The half that a raw word lies in (R184). -/
theorem halfOf_rawAddr (p : Params) {i : Nat} (hi : i < 512) :
    halfOf p (rawAddr p i) = some (if i < 256 then 0 else 1) := by
  have offset : (rawAddr p i - p.rawBufBase).toNat = 4 * i := by
    rw [rawAddr, BitVec.add_comm, BitVec.add_sub_cancel, BitVec.toNat_ofNat]
    omega
  simp only [halfOf, offset, halfBytes]
  split
  · rw [if_pos (by omega)]
  · rw [if_pos (by omega), if_neg (by omega)]

/-! ### The events of a beat (R186) -/

/-- What raising events leaves of the state: all but WSE, EVQ and FAULT. -/
structure SameButEvents (s t : State) : Prop where
  params : t.params = s.params
  fx : t.fx = s.fx
  ch : t.dma.ch = s.dma.ch
  tcd : t.dma.tcd = s.dma.tcd
  mem : t.mem = s.mem
  fifo : t.fifo = s.fifo
  gen : t.track.gen = s.track.gen
  valid : t.track.valid = s.track.valid
  readers : t.readers = s.readers
  sched : t.sched = s.sched

section
variable {s t u : State} {hc : Half} {citer : BitVec 16}

theorem SameButEvents.refl (s : State) : SameButEvents s s := ⟨rfl, rfl, rfl, rfl, rfl, rfl, rfl, rfl, rfl, rfl⟩

theorem SameButEvents.trans (h : SameButEvents s t) (h' : SameButEvents t u) : SameButEvents s u where
  params := h'.params.trans h.params
  fx := h'.fx.trans h.fx
  ch := h'.ch.trans h.ch
  tcd := h'.tcd.trans h.tcd
  mem := h'.mem.trans h.mem
  fifo := h'.fifo.trans h.fifo
  gen := h'.gen.trans h.gen
  valid := h'.valid.trans h.valid
  readers := h'.readers.trans h.readers
  sched := h'.sched.trans h.sched

theorem raiseEvent_sameButEvents (hc : Half) (s : State) : SameButEvents s (raiseEvent hc s) := by
  rcases raiseEvent_cases hc s with ⟨-, e⟩ | ⟨-, e⟩ <;> rw [e] <;>
    exact ⟨rfl, rfl, rfl, rfl, rfl, rfl, rfl, rfl, rfl, rfl⟩

theorem beatEvents_sameButEvents (citer : BitVec 16) (s : State) : SameButEvents s (beatEvents citer s) := by
  have guarded (hc : Half) (c : Prop) [Decidable c] (s : State) :
      SameButEvents s (if c then raiseEvent hc s else s) := by
    split
    · exact raiseEvent_sameButEvents hc s
    · exact .refl s
  unfold beatEvents
  rcases andThen_cases _ _ with ⟨-, e⟩ | ⟨-, e⟩ <;> rw [e]
  · exact (guarded 0 _ s).trans (guarded 1 _ _)
  · exact guarded 0 _ s

/-- Raising an event clears its WSE, whether or not it was pending. -/
theorem raiseEvent_wse : (raiseEvent hc s).track.wse = s.track.wse.set hc false := by
  rcases raiseEvent_cases hc s with ⟨-, e⟩ | ⟨-, e⟩ <;> rw [e] <;> rfl

theorem raiseEvent_pending (hs : s.fault = none) (h : hc ∈ s.dma.evq) :
    (raiseEvent hc s).dma.evq = s.dma.evq ∧ (raiseEvent hc s).fault = some (.completionOverrun hc) := by
  rcases raiseEvent_cases hc s with ⟨h', -⟩ | ⟨-, e⟩
  · exact absurd h h'
  · rw [e]
    exact ⟨rfl, raise_fault_live hs⟩

theorem raiseEvent_new (h : hc ∉ s.dma.evq) :
    (raiseEvent hc s).dma.evq = s.dma.evq ++ [hc] ∧ (raiseEvent hc s).fault = s.fault := by
  rcases raiseEvent_cases hc s with ⟨-, e⟩ | ⟨h', -⟩
  · rw [e]
    exact ⟨rfl, rfl⟩
  · exact absurd h' h

/-- The decremented count at which a beat raises event `hc`, in the programmed record (R186). -/
def eventCount (hc : Half) : BitVec 16 := if hc = 0 then 256 else 0

theorem sub_one_eq_eventCount_iff : citer - 1 = eventCount hc ↔ citer = if hc = 0 then 257 else 1 := by
  unfold eventCount
  split <;> bv_omega

section
variable {p : Params} (htcd : tcdAt p s.dma.tcd)
include htcd

theorem beatEvents_raises (hs : s.fault = none) (hc : Half) : beatEvents (eventCount hc) s = raiseEvent hc s := by
  obtain ⟨-, -, -, hbiter, hhalf, hmajor⟩ := tcdAt_fields htcd
  unfold beatEvents
  match hc with
  | 0 =>
    rw [if_pos ⟨hbiter.symm, hhalf⟩]
    rcases andThen_cases (raiseEvent 0 s) _ with ⟨-, e⟩ | ⟨-, e⟩ <;> rw [e]
    exact if_neg fun h => absurd h.1 (by decide)
  | 1 =>
    rw [if_neg fun h => absurd (h.1.trans hbiter) (by decide), andThen_live hs]
    exact if_pos ⟨rfl, hmajor⟩

theorem beatEvents_none (hs : s.fault = none) (h : ∀ hc, citer ≠ eventCount hc) : beatEvents citer s = s := by
  obtain ⟨-, -, -, hbiter, -⟩ := tcdAt_fields htcd
  unfold beatEvents
  rw [if_neg fun h' => h 0 (h'.1.trans hbiter), andThen_live hs]
  exact if_neg fun h' => h 1 h'.1

end

end

/-! ### The beat (R183 to R187) -/

section
variable {s : State}

theorem exec_dmabeat (h : beatReady s) : exec .dmabeat s = .next (dmabeatOp s) := by
  obtain ⟨hs, -, he, -⟩ := h
  exact agentStep_enabled hs he

theorem beatIndex_lt (h : beatReady s) : beatIndex s < 512 := by
  obtain ⟨-, -, -, hlo, -, -⟩ := h
  unfold beatIndex
  omega

/-- In a state that is ready the beat reads the shifter and writes RAW[512 − CITER], with the tracking of its half. -/
theorem beatTransfer_ready (h : beatReady s) :
    beatTransfer s =
      ((s.withFx { s.fx with shstat := { s.fx.shstat with ssf := false } }).withMem
        (s.mem.storeWord s.params.byteOrder (rawAddr s.params (beatIndex s)) (bitrev32 s.fx.shbuf))).withTrack
        (s.track.written (beatHalf s)) := by
  have hhalf := halfOf_rawAddr s.params (beatIndex_lt h)
  obtain ⟨-, -, -, htcd⟩ := h
  obtain ⟨hsaddr, hdaddr, -⟩ := tcdAt_fields htcd
  rcases busRead_cases s s.dma.tcd.saddr with ⟨-, e⟩ | ⟨hne, -⟩
  · rw [beatTransfer, e]
    dsimp only [State.withFx_params, State.withFx_dma, State.withFx_mem, State.withMem_params, State.withMem_dma]
    rw [hdaddr, ← beatIndex, hhalf]
    rfl
  · exact absurd hsaddr hne

/-- The transfer leaves the channel and its record. -/
theorem beatTransfer_dma (s : State) : (beatTransfer s).dma = s.dma := by
  have read : (busRead s s.dma.tcd.saddr).2.dma = s.dma := by
    rcases busRead_cases s s.dma.tcd.saddr with ⟨-, e⟩ | ⟨-, e⟩ <;> rw [e]
    rfl
  unfold beatTransfer
  dsimp only
  split <;> exact read

/-- The state after a beat's transfer, with the count and the destination moved on, before its events. -/
def beatMoved (s : State) : State := (beatTransfer s).withDma { s.dma with tcd := s.dma.tcd.advance }

theorem dmabeatOp_eq (s : State) : dmabeatOp s = beatEvents (s.dma.tcd.citer - 1) (beatMoved s) := by
  unfold dmabeatOp beatMoved
  dsimp only
  rw [beatTransfer_dma]

/-- A beat is the move, and then nothing but its events. -/
theorem dmabeatOp_sameButEvents (s : State) : SameButEvents (beatMoved s) (dmabeatOp s) :=
  dmabeatOp_eq s ▸ beatEvents_sameButEvents _ _

section
variable (h : beatReady s)
include h

/-- In a state that is ready the move is the transfer of the word and nothing else. -/
theorem beatMoved_ready :
    beatMoved s = { s with
      fx := { s.fx with shstat := { s.fx.shstat with ssf := false } }
      dma := { s.dma with tcd := s.dma.tcd.advance }
      mem := s.mem.storeWord s.params.byteOrder (rawAddr s.params (beatIndex s)) (bitrev32 s.fx.shbuf)
      track := s.track.written (beatHalf s) } := by
  rw [beatMoved, beatTransfer_ready h]
  rfl

theorem dmabeatOp_tcd : (dmabeatOp s).dma.tcd = s.dma.tcd.advance := by
  rw [(dmabeatOp_sameButEvents s).tcd, beatMoved_ready h]

theorem dmabeatOp_raw (j : Nat) (hj : j < 512) :
    (dmabeatOp s).raw j = if j = beatIndex s then bitrev32 s.fx.shbuf else s.raw j := by
  have same := dmabeatOp_sameButEvents s
  rw [beatMoved_ready h] at same
  have hi := beatIndex_lt h
  obtain ⟨-, hp, -, -⟩ := h
  obtain ⟨-, -, -, -, -, -, -, hfit⟩ := (admissible_iff _).mp hp
  rw [State.raw, same.mem, same.params]
  split
  · next e => rw [e, Memory.loadWord_storeWord]
  · next hne => exact Memory.loadWord_storeWord_other fun l k hl hk => rawAddr_apart hfit hi hj hne hl hk

theorem dmabeatOp_raises {hc : Half} (hcount : s.dma.tcd.citer - 1 = eventCount hc) :
    dmabeatOp s = raiseEvent hc (beatMoved s) := by
  have hm := beatMoved_ready h
  obtain ⟨hs, -, -, htcd⟩ := h
  rw [dmabeatOp_eq, hcount]
  exact beatEvents_raises (p := s.params) (by rw [hm]; exact tcdAt_advance htcd) (by rw [hm]; exact hs) hc

theorem dmabeatOp_quiet (hcount : ∀ hc, s.dma.tcd.citer - 1 ≠ eventCount hc) : dmabeatOp s = beatMoved s := by
  have hm := beatMoved_ready h
  obtain ⟨hs, -, -, htcd⟩ := h
  rw [dmabeatOp_eq]
  exact beatEvents_none (p := s.params) (by rw [hm]; exact tcdAt_advance htcd) (by rw [hm]; exact hs) hcount

end

end

/-- Settles O37: a beat is the move, which the transfer of the word makes, and events, which leave the rest. -/
theorem dmabeatMovesWord : Obligations.DmabeatMovesWord := by
  intro s h
  have same := dmabeatOp_sameButEvents s
  rw [beatMoved_ready h] at same
  have raw := dmabeatOp_raw h
  obtain ⟨-, -, -, htcd⟩ := id h
  refine ⟨dmabeatOp s, exec_dmabeat h, (raw _ (beatIndex_lt h)).trans (if_pos rfl),
    fun j hj hne => (raw j hj).trans (if_neg hne), same.fx, same.ch, ?_, same.gen, same.valid, same.params, same.fifo,
    same.readers, same.sched⟩
  rw [dmabeatOp_tcd h]
  exact advance_of_tcdAt htcd

/-- The WSE of the half written is set, and cleared again by the event that the last write into it raises (R186). -/
theorem wse_written_set (k : Tracking) (hc : Half) : (k.written hc).wse.set hc false = k.wse.set hc false := by
  simp [Tracking.written]

/-- The beat that raises event `hc` writes into half `hc`. -/
theorem half_of_event_count :
    ∀ hc : Half, (if 512 - (if hc = 0 then 257 else 1 : BitVec 16).toNat < 256 then 0 else 1) = hc := by decide

/-- Settles O38: by the count before the beat, which says the event and, with it, the half written. -/
theorem dmabeatRaisesEvents : Obligations.DmabeatRaisesEvents := by
  intro s h
  have hfault : (beatMoved s).fault = none := by rw [beatMoved_ready h]; exact h.1
  have htrack : (beatMoved s).track = s.track.written (beatHalf s) := by rw [beatMoved_ready h]
  refine ⟨dmabeatOp s, exec_dmabeat h, fun hc hcount => ?event, fun hhalf hmajor => ?quiet⟩
  case event =>
    have hlast : beatHalf s = hc := by rw [beatHalf, beatIndex, hcount, half_of_event_count]
    rw [dmabeatOp_raises h (sub_one_eq_eventCount_iff.mpr hcount)]
    refine ⟨?_, raiseEvent_pending (s := beatMoved s) hfault, fun hnew => ?_⟩
    · rw [raiseEvent_wse, htrack, hlast, wse_written_set]
    · exact hfault ▸ raiseEvent_new (s := beatMoved s) hnew
  case quiet =>
    have hquiet : ∀ hc, s.dma.tcd.citer - 1 ≠ eventCount hc := by
      intro hc e
      rw [sub_one_eq_eventCount_iff] at e
      match hc with
      | 0 => exact hhalf e
      | 1 => exact hmajor e
    rw [dmabeatOp_quiet h hquiet, htrack]
    exact ⟨rfl, rfl, hfault⟩

/-! ### Where the storing instructions store (R184, R214, R242) -/

theorem beatTransfer_mem (s : State) :
    ∃ v, (beatTransfer s).mem = s.mem.storeWord s.params.byteOrder s.dma.tcd.daddr v := by
  refine ⟨(busRead s s.dma.tcd.saddr).1, ?_⟩
  rcases busRead_cases s s.dma.tcd.saddr with ⟨-, e⟩ | ⟨-, e⟩ <;> rw [beatTransfer, e] <;> dsimp only <;> split <;> rfl

theorem dmabeatOp_byteAt_other {s : State} {x : Nat} (hx : x < 2 ^ 32)
    (hout : ∀ k, k < 4 → x ≠ (s.dma.tcd.daddr + BitVec.ofNat 32 k).toNat) :
    (dmabeatOp s).mem.byteAt x = s.mem.byteAt x := by
  obtain ⟨v, hmem⟩ := beatTransfer_mem s
  have moved : (dmabeatOp s).mem = (beatTransfer s).mem := (dmabeatOp_sameButEvents s).mem
  rw [moved, hmem, Memory.byteAt_storeWord_other hx hout]

/-- A decode writes 256 words from the half's address on, which is the half. -/
theorem decodeHalf_sameOutsideHalf {s : State} (hp : admissible s.params = true) (half : Half) :
    sameOutsideHalf s (decodeHalf half s) half := by
  intro x hx hout
  have hlen := decoded_words_length s.params (halfWord s half) s.draws hp
  obtain ⟨-, -, -, -, -, -, -, hfit⟩ := (admissible_iff _).mp hp
  have hbase : (halfBase s.params half).toNat = s.params.rawBufBase.toNat + 1024 * half.val := by
    rw [halfBase, BitVec.toNat_add, BitVec.toNat_ofNat, halfBytes]
    omega
  simp only [decodeHalf, State.withDraws_mem, State.withTrack_mem, State.withMem_mem, Memory.storeWords]
  rw [Memory.byteAt_store_flat] <;> rw [flatMap_bytesOfWord_length, hlen, hbase, halfWords]
  · exact if_neg hout
  · omega

theorem decodeOp_sameOutsideHalf {s : State} (hp : admissible s.params = true) (half : Half) :
    sameOutsideHalf s (decodeOp half s) half := by
  unfold decodeOp
  split
  · exact fun _ _ _ => rfl
  · exact decodeHalf_sameOutsideHalf hp half

theorem cmplOp_sameOutsideHalf {s : State} (hp : admissible s.params = true) (hc : Half) :
    sameOutsideHalf s (cmplOp hc s) hc := by
  unfold cmplOp
  dsimp only
  split
  · exact fun _ _ _ => rfl
  · exact decodeHalf_sameOutsideHalf (s := takeEvent s) hp hc

/-- Settles O59, by what the operations of the three store; a turn that is not enabled stores nothing. -/
theorem storesStayInPlace : Obligations.StoresStayInPlace := by
  refine fun s t => ⟨fun h x hx hout => ?beat, fun half hp h => ?halves⟩
  case beat =>
    obtain ⟨-, ⟨-, rfl⟩ | ⟨-, rfl⟩⟩ := agentStep_next h
    · exact dmabeatOp_byteAt_other hx hout
    · rfl
  case halves =>
    rcases h with h | h
    · obtain ⟨-, ⟨-, rfl⟩ | ⟨-, rfl⟩⟩ := hostCommand_next h <;> exact decodeOp_sameOutsideHalf hp half
    · obtain ⟨-, ⟨-, rfl⟩ | ⟨-, rfl⟩⟩ := agentStep_next h
      · exact cmplOp_sameOutsideHalf hp half
      · exact fun _ _ _ => rfl

/-! ### The shifter's word (R180, R181) -/

section
variable {s : State} {v : Word}

theorem exec_shiftword (hs : s.fault = none) (he : s.fx.en = true) (hm : s.fx.shcfg.mode = .receive) :
    exec (.shiftword v) s = .next (shiftwordOp v s) :=
  agentStep_enabled hs (by simp [shiftEnabled, he, hm])

/-- The state with the word `v` taken in. -/
def wordTaken (v : Word) (s : State) : State :=
  s.withFx { s.fx with shbuf := bitrev32 v, shstat := { s.fx.shstat with ssf := true } }

theorem shiftwordOp_taken (h : s.fx.shstat.ssf = false) : shiftwordOp v s = wordTaken v s :=
  if_neg (ne_true_of_eq_false h)

theorem shiftwordOp_overrun (h : s.fx.shstat.ssf = true) :
    shiftwordOp v s = raise (.shifterOverrun v)
      (s.withFx { s.fx with shbuf := bitrev32 v, shstat := { s.fx.shstat with sef := true } }) :=
  if_pos h

end

/-- Settles O36, by the two cases of SSF. -/
theorem shiftwordDeliversWord : Obligations.ShiftwordDeliversWord := by
  refine fun s v hs he hm => ⟨fun hfree => ?_, fun hheld => ?_⟩ <;> rw [exec_shiftword hs he hm]
  · rw [shiftwordOp_taken hfree]
    rfl
  · rw [shiftwordOp_overrun hheld]
    exact congrArg _ (raise_eq_faulted (s := s.withFx _) hs)

/-- Settles O40: each list of conditions is the model's test of the agent's step, negated. -/
theorem disabledTurnChangesNothing : Obligations.DisabledTurnChangesNothing := by
  refine fun s hs => ⟨fun h v => ?shiftword, fun h => ?dmabeat, fun hc h => ?cmpl, fun half h => ?produce,
    fun tid h => ?wake, fun tid h => ?sigintr⟩ <;> refine agentStep_disabled hs (eq_false_of_ne_true fun he => ?_)
  case shiftword => exact h (by simpa [shiftEnabled] using he)
  case dmabeat => exact h (by simpa [beatEnabled, State.sreq, and_assoc] using he)
  case cmpl => exact h (of_decide_eq_true he)
  case produce => exact h (of_decide_eq_true he)
  case wake =>
    obtain ⟨hb, hsem⟩ : (s.tsOf tid).isBlocked = true ∧ 0 < s.fifo.sem := by simpa [wakeEnabled] using he
    rcases h with h | h
    · simp [h, ThreadState.isBlocked] at hb
    · omega
  case sigintr => simp [sigintrEnabled, h, ThreadState.isBlocked] at he

/-! ### Capture of words in turn (R188, R191) -/

/-- SHIFTWORD and DMABEAT in turn, for each word. -/
def captureTurns (ws : List Word) : List Instr := ws.flatMap fun v => [.shiftword v, .dmabeat]

theorem execAll_append {is js : List Instr} {s t : State} (h : execAll is s = .next t) :
    execAll (is ++ js) s = execAll js t := by
  induction is generalizing s with
  | nil => cases h; rfl
  | cons i is ih =>
    cases hi : exec i s with
    | next u =>
      rw [execAll, hi] at h
      rw [List.cons_append, execAll, hi]
      exact ih h
    | fault r => rw [execAll, hi] at h; cases h
    | refused r => rw [execAll, hi] at h; cases h

theorem captureTurns_concat (ws : List Word) (v : Word) :
    captureTurns (ws ++ [v]) = captureTurns ws ++ [.shiftword v, .dmabeat] := by simp [captureTurns]

/-- The state with a word waiting in the shifter. -/
def wordWaiting (s : State) : State := { s with fx := { s.fx with shstat := { s.fx.shstat with ssf := true } } }

/-- The block waits for a word: it takes one, and then the beat that moves it is ready. -/
structure AwaitsWord (s : State) : Prop where
  ready : beatReady (wordWaiting s)
  free : s.fx.shstat.ssf = false
  en : s.fx.en = true
  mode : s.fx.shcfg.mode = .receive

theorem bitrev32_bitrev32 (w : Word) : bitrev32 (bitrev32 w) = w := by
  refine BitVec.eq_of_getLsbD_eq fun i hi => ?_
  rw [getLsbD_bitrev32 _ hi, getLsbD_bitrev32 _ (by omega), Nat.sub_sub_self (by omega)]

/-- The event that a beat with count `c` raises, if any (R186). -/
def raisedAt (c : BitVec 16) : List Half := if c = 257 then [0] else if c = 1 then [1] else []

theorem raisedAt_eq_singleton : ∀ hc : Half, raisedAt (if hc = 0 then 257 else 1) = [hc] := by decide

/-- The events pending after `n` words from the start of a major loop (R188). -/
def eventsAfter (n : Nat) : List Half := (if 256 ≤ n then [0] else []) ++ (if 512 ≤ n then [1] else [])

/-- The event of the word after `n` words is not pending, and comes last. -/
theorem eventsAfter_succ {n : Nat} {c : BitVec 16} (hn : n < 512) (hc : c.toNat = 512 - n) :
    (∀ e ∈ raisedAt c, e ∉ eventsAfter n) ∧ eventsAfter (n + 1) = eventsAfter n ++ raisedAt c := by
  by_cases hhalf : n = 255
  · subst hhalf
    obtain rfl : c = 257 := BitVec.eq_of_toNat_eq hc
    decide
  by_cases hmajor : n = 511
  · subst hmajor
    obtain rfl : c = 1 := BitVec.eq_of_toNat_eq hc
    decide
  · have quiet : raisedAt c = [] := by
      rw [raisedAt, if_neg (by rintro rfl; simp at hc; omega), if_neg (by rintro rfl; simp at hc; omega)]
    have same : eventsAfter (n + 1) = eventsAfter n := by
      simp only [eventsAfter, show 256 ≤ n + 1 ↔ 256 ≤ n by omega, show 512 ≤ n + 1 ↔ 512 ≤ n by omega]
    simp [quiet, same]

section
variable {s t : State}

/-- A beat whose event is not pending yet records no fault. -/
theorem dmabeatOp_events (h : beatReady s) (hnew : ∀ e ∈ raisedAt s.dma.tcd.citer, e ∉ s.dma.evq) :
    (dmabeatOp s).fault = none ∧ (dmabeatOp s).dma.evq = s.dma.evq ++ raisedAt s.dma.tcd.citer := by
  obtain ⟨t, hexec, hraises, hquiet⟩ := dmabeatRaisesEvents s h
  obtain rfl : dmabeatOp s = t := Host.Outcome.next.inj ((exec_dmabeat h).symm.trans hexec)
  by_cases hany : ∃ hc : Half, s.dma.tcd.citer = if hc = 0 then 257 else 1
  · obtain ⟨hc, hcount⟩ := hany
    have hraised : raisedAt s.dma.tcd.citer = [hc] := by rw [hcount, raisedAt_eq_singleton]
    obtain ⟨-, -, hraise⟩ := hraises hc hcount
    rw [hraised] at hnew ⊢
    exact (hraise (hnew hc (List.mem_singleton_self hc))).symm
  · have hhalf : s.dma.tcd.citer ≠ 257 := fun e => hany ⟨0, e⟩
    have hmajor : s.dma.tcd.citer ≠ 1 := fun e => hany ⟨1, e⟩
    obtain ⟨-, hevq, hfault⟩ := hquiet hhalf hmajor
    rw [raisedAt, if_neg hhalf, if_neg hmajor, List.append_nil]
    exact ⟨hfault, hevq⟩

/-- After a beat that records no fault the block waits for the next word. -/
theorem dmabeatOp_awaitsWord (h : beatReady s) (hen : s.fx.en = true) (hmode : s.fx.shcfg.mode = .receive)
    (hfault : (dmabeatOp s).fault = none) : AwaitsWord (dmabeatOp s) := by
  have same := dmabeatOp_sameButEvents s
  rw [beatMoved_ready h] at same
  obtain ⟨-, hp, he, htcd⟩ := h
  have hrequest : beatEnabled (wordWaiting (dmabeatOp s)) = true := by
    obtain ⟨hch, hreq⟩ := Bool.and_eq_true_iff.mp he
    obtain ⟨-, hssde⟩ := Bool.and_eq_true_iff.mp hreq
    simp only [beatEnabled, State.sreq, wordWaiting, same.ch, same.fx, hch, hssde, Bool.and_self]
  exact
    { ready := ⟨hfault, same.params ▸ hp, hrequest, by
        show tcdAt (dmabeatOp s).params (dmabeatOp s).dma.tcd
        rw [same.params, same.tcd]
        exact tcdAt_advance htcd⟩
      free := by rw [same.fx]
      en := by rw [same.fx, hen]
      mode := by rw [same.fx, hmode] }

/-- One word: SHIFTWORD brings it, and the beat moves it to RAW[512 − CITER]. -/
theorem AwaitsWord.round (h : AwaitsWord s) (v : Word) (hnew : ∀ e ∈ raisedAt s.dma.tcd.citer, e ∉ s.dma.evq) :
    ∃ t, execAll [.shiftword v, .dmabeat] s = .next t ∧ AwaitsWord t ∧
      t.dma.tcd.citer = (if s.dma.tcd.citer = 1 then 512 else s.dma.tcd.citer - 1) ∧
      (∀ j, j < 512 → t.raw j = if j = beatIndex s then v else s.raw j) ∧
      t.dma.evq = s.dma.evq ++ raisedAt s.dma.tcd.citer := by
  obtain ⟨hready, hfree, hen, hmode⟩ := h
  have hshift : exec (.shiftword v) s = .next (wordTaken v s) := by
    rw [exec_shiftword (s := s) hready.1 hen hmode, shiftwordOp_taken hfree]
  have hbeat : beatReady (wordTaken v s) := hready
  obtain ⟨-, -, -, htcd⟩ := id hbeat
  obtain ⟨hfault, hevq⟩ := dmabeatOp_events hbeat hnew
  refine ⟨dmabeatOp (wordTaken v s), by simp only [execAll, hshift, exec_dmabeat hbeat],
    dmabeatOp_awaitsWord hbeat hen hmode hfault, ?_, fun j hj => ?_, hevq⟩
  · rw [dmabeatOp_tcd hbeat, advance_of_tcdAt htcd]
    rfl
  · have moved : bitrev32 (wordTaken v s).fx.shbuf = v := bitrev32_bitrev32 v
    rw [dmabeatOp_raw hbeat j hj, moved]
    rfl

end

/-- What the capture of `ws` from the start of a major loop in `s` has reached in `t`. -/
structure Captured (s : State) (ws : List Word) (t : State) : Prop where
  awaits : AwaitsWord t
  count : ws.length < 512 → t.dma.tcd.citer.toNat = 512 - ws.length
  words : ∀ k, k < ws.length → t.raw k = ws.getD k 0
  later : ∀ k, ws.length ≤ k → k < 512 → t.raw k = s.raw k
  events : t.dma.evq = eventsAfter ws.length

theorem Captured.concat {s t : State} {ws : List Word} (h : Captured s ws t) (hlen : ws.length < 512) (v : Word) :
    ∃ u, execAll [.shiftword v, .dmabeat] t = .next u ∧ Captured s (ws ++ [v]) u := by
  have hcount := h.count hlen
  have hindex : beatIndex t = ws.length := by rw [beatIndex, hcount]; omega
  obtain ⟨hnew, hsucc⟩ := eventsAfter_succ hlen hcount
  obtain ⟨u, hexec, hawaits, hciter, hraw, hevq⟩ := h.awaits.round v (h.events ▸ hnew)
  rw [hindex] at hraw
  have hlength : (ws ++ [v]).length = ws.length + 1 := by simp
  refine ⟨u, hexec, hawaits, fun hmore => ?count, fun k hk => ?words, fun k hk hk' => ?later, ?events⟩
  case count =>
    rw [hlength] at hmore ⊢
    rw [hciter, if_neg (by rintro e; rw [e] at hcount; simp at hcount; omega)]
    bv_omega
  case words =>
    rw [hlength] at hk
    rw [hraw k (by omega)]
    split
    · next e => simp [e]
    · next ne =>
      have hold : k < ws.length := by omega
      rw [h.words k hold, List.getD_append _ _ _ _ hold]
  case later =>
    rw [hlength] at hk
    rw [hraw k hk', if_neg (by omega), h.later k (by omega) hk']
  case events => rw [hevq, h.events, hlength, hsucc]

theorem execAll_captureTurns {s : State} (hstart : Captured s [] s) (ws : List Word) (hlen : ws.length ≤ 512) :
    ∃ t, execAll (captureTurns ws) s = .next t ∧ Captured s ws t := by
  induction ws using List.reverseRecOn with
  | nil => exact ⟨s, rfl, hstart⟩
  | append_singleton ws v ih =>
    rw [List.length_append, List.length_singleton] at hlen
    obtain ⟨t, hexec, hcaptured⟩ := ih (by omega)
    obtain ⟨u, hround, hnext⟩ := hcaptured.concat (by omega) v
    exact ⟨u, by rw [captureTurns_concat, execAll_append hexec, hround], hnext⟩

/-- Settles O39, word by word: one more word is captured where the last capture stopped. -/
theorem captureWritesWordsInOrder : Obligations.CaptureWritesWordsInOrder := by
  intro s ws hready hfree hen hmode hcount hevq hlen
  have hstart : Captured s [] s :=
    { awaits := ⟨hready, hfree, hen, hmode⟩
      count := fun _ => by rw [hcount]; rfl
      words := fun _ hk => absurd hk (Nat.not_lt_zero _)
      later := fun _ _ _ => rfl
      events := hevq }
  obtain ⟨t, hexec, hcaptured⟩ := execAll_captureTurns hstart ws hlen
  obtain ⟨hawaits, -, hwords, hlater, hevents⟩ := hcaptured
  exact ⟨t, hexec, hawaits.ready.1, hwords, hlater, hevents⟩

/-! ### The invariant, part by part: what an update of each part owes (R30 to R42, R185) -/

/-- HEAD of a FIFO that is not empty holds an entry, of a generation that its half has had (R34). -/
def Fifo.headHeld (f : Fifo) (k : Tracking) : Prop :=
  f.isEmpty = false → ∃ e, f.slot[f.head] = some e ∧ e.g ≤ k.gen[e.h]

theorem Fifo.headHeld_of_isEmpty {f : Fifo} {k : Tracking} (h : f.isEmpty = true) : f.headHeld k :=
  fun h' => absurd h' (by simp [h])

/-- A thread's change of state moves the count of the blocked threads as its own being blocked moves. -/
theorem blockedCount_withTs (s : State) (tid : Tid) (x : ThreadState) :
    blockedCount (s.withTs tid x) + (s.tsOf tid).isBlocked.toNat = blockedCount s + x.isBlocked.toNat := by
  have hlen : tid.val < s.readers.ts.toList.length := by simp
  have hold : s.readers.ts.toList[tid.val] = s.tsOf tid := by simp [State.tsOf]
  have hcounted : (s.tsOf tid).isBlocked.toNat ≤ blockedCount s := by
    cases hb : (s.tsOf tid).isBlocked
    · exact Nat.zero_le _
    · exact List.countP_pos_iff.mpr ⟨_, List.getElem_mem hlen, hold ▸ hb⟩
  have hset : blockedCount (s.withTs tid x) =
      blockedCount s - (s.tsOf tid).isBlocked.toNat + x.isBlocked.toNat := by
    simp only [blockedCount, State.withTs_readers, Vector.toList_set, List.countP_set hlen, hold, Bool.toNat,
      Bool.cond_eq_ite]
  omega

section
variable {s : State} (h : Inv s)
include h

theorem Inv.withFx {x : Peripheral} (hen : x.en = true → x.configured = true)
    (hsef : x.shstat.sef = true → s.fault ≠ none) : Inv (s.withFx x) :=
  { h with enabled := hen, sef := hsef }

theorem Inv.withDma {d : Dma} (hevq : d.evq.Nodup) (htcd : d.ch.tcdv = true → tcdAt s.params d.tcd)
    (hch : (d.ch.erq = true → d.ch.tcdv = true) ∧ (d.ch.tcdv = true → d.ch.alloc = true) ∧
      (d.ch.alloc = true ↔ d.ch.reqsrc = .shifter)) : Inv (s.withDma d) :=
  { h with evq := hevq, tcd := htcd, channel := hch }

theorem Inv.withMem {m : Memory} (hm : m.wf = true) : Inv (s.withMem m) := { h with mem := hm }

theorem Inv.withFifo {f : Fifo} (hf : f.headHeld s.track) (hw : s.fault = none → f.waiters = s.fifo.waiters) :
    Inv (s.withFifo f) :=
  { h with fifo := hf, waiters := fun hs => (hw hs).trans (h.waiters hs) }

/-- Generations only grow, so an entry keeps one that its half has had. -/
theorem Inv.withTrack {k : Tracking} (hgen : ∀ half : Half, s.track.gen[half] ≤ k.gen[half])
    (hvalid : ∀ half : Half, k.valid[half] = true → 1 ≤ k.gen[half]) : Inv (s.withTrack k) :=
  { h with
    valid := hvalid
    fifo := fun he =>
      let ⟨e, hslot, hg⟩ := h.fifo he
      ⟨e, hslot, hg.trans (hgen e.h)⟩ }

theorem Inv.withDraws (n : Nat) : Inv (s.withDraws n) := { h with }

theorem Inv.withAnswers (l : List Bool) : Inv (s.withAnswers l) := { h with }

theorem Inv.withSched (l : List Turn) : Inv (s.withSched l) := { h with }

theorem Inv.withHanding_none : Inv (s.withHanding none) := { h with handing := rfl }

theorem Inv.withResp (tid : Tid) (r : Result) : Inv (s.withResp tid r) := { h with }

theorem Inv.raise (r : FaultRecord) : Inv (raise r s) :=
  { h with
    sef := fun _ => raise_fault_ne_none r s
    waiters := fun hr => absurd hr (raise_fault_ne_none r s) }

/-- WAITERS has to move as the thread's being blocked moves (R37). -/
theorem Inv.withThread {f : Fifo} {tid : Tid} {x : ThreadState} (hf : f.headHeld s.track)
    (hw : s.fault = none → f.waiters + (s.tsOf tid).isBlocked.toNat = s.fifo.waiters + x.isBlocked.toNat)
    (hx : ∀ cap, x = .blocked cap → batchBytes s.params ≤ cap) : Inv ((s.withFifo f).withTs tid x) :=
  { h with
    fifo := hf
    waiters := fun hs => by
      have hcount : blockedCount ((s.withFifo f).withTs tid x) + (s.tsOf tid).isBlocked.toNat =
          blockedCount s + x.isBlocked.toNat := blockedCount_withTs s tid x
      have hnow := h.waiters hs
      have hmove := hw hs
      show f.waiters = _
      omega
    caps := fun u cap hu => by
      rw [State.tsOf_withTs] at hu
      split at hu
      · exact hx cap hu
      · exact h.caps u cap hu }

/-- A thread's read ends: it is idle with a result, and WAITERS no longer counts it. -/
theorem Inv.endRead {f : Fifo} {tid : Tid} (r : Result) (hf : f.headHeld s.track)
    (hw : s.fault = none → f.waiters + (s.tsOf tid).isBlocked.toNat = s.fifo.waiters) :
    Inv (((s.withFifo f).withTs tid .idle).withResp tid r) :=
  (h.withThread (x := .idle) hf hw (fun _ hx => nomatch hx)).withResp tid r

/-- WAITERS counts a thread that is blocked. -/
theorem Inv.waiters_pos (hs : s.fault = none) {tid : Tid} (hb : (s.tsOf tid).isBlocked = true) :
    0 < s.fifo.waiters := by
  have hcount := blockedCount_withTs s tid .idle
  rw [hb, ← h.waiters hs] at hcount
  simp [ThreadState.isBlocked] at hcount
  omega

end

/-! ### The shared shapes keep the invariant if the operation inside does -/

/-- The operation keeps the invariant of the block. -/
def KeepsInv (op : State → State) : Prop := ∀ s, Inv s → Inv (op s)

section
variable {op : State → State} {s t : State}

theorem KeepsInv.andThen {f : State → State} (hop : KeepsInv op) (hf : KeepsInv f) :
    KeepsInv fun s => andThen (op s) f := by
  intro s h
  rcases andThen_cases (op s) f with ⟨-, e⟩ | ⟨-, e⟩ <;> simp only [e]
  · exact hf _ (hop s h)
  · exact hop s h

theorem KeepsInv.withHandle (w : Word) (hop : KeepsInv op) : KeepsInv (withHandle w op) := by
  intro s h
  rcases withHandle_cases w op s with ⟨-, e⟩ | ⟨-, e⟩ <;> rw [e]
  · exact hop s h
  · exact h.raise _

theorem KeepsInv.runOps {fs : List (State → State)} (h : ∀ f ∈ fs, KeepsInv f) : KeepsInv (runOps fs) :=
  fun _ => runOps_keeps h

theorem Inv.whenLive (h : s.fault = none → Inv (op s)) (hn : whenLive s op = .next t) : Inv t := by
  obtain ⟨hs, rfl⟩ := whenLive_next hn
  exact h hs

theorem Inv.hostCommand (h : Inv (op s)) (hn : hostCommand op s = .next t) : Inv t := by
  obtain ⟨-, ⟨-, rfl⟩ | ⟨-, rfl⟩⟩ := hostCommand_next hn
  · exact h.withResp hostTid _
  · exact h

theorem Inv.agentStep {en : State → Bool} (h : Inv s) (hop : s.fault = none → en s = true → Inv (op s))
    (hn : agentStep en op s = .next t) : Inv t := by
  obtain ⟨hs, ⟨he, rfl⟩ | ⟨-, rfl⟩⟩ := agentStep_next hn
  · exact hop hs he
  · exact h

end

/-! ### The peripheral's operations (R137, R181) -/

theorem fxresetOp_keepsInv : KeepsInv fxresetOp :=
  .withHandle _ fun _ h => h.withFx (nomatch ·) (nomatch ·)

/-- A configuration command writes only while EN = 0, so no enabled peripheral loses its configuration. -/
theorem Inv.configure {s : State} (h : Inv s) (r : FaultRecord) {x : Peripheral} (hen : x.en = s.fx.en)
    (hsef : x.shstat.sef = s.fx.shstat.sef) :
    Inv (if s.fx.en = true then Machine.raise r s else s.withFx x) := by
  split
  · exact h.raise r
  · next off => exact h.withFx (fun hx => absurd (hen ▸ hx) off) (fun hx => h.sef (hsef ▸ hx))

theorem setshiftOp_keepsInv : KeepsInv setshiftOp := .withHandle _ fun _ h => h.configure _ rfl rfl

theorem settimaOp_keepsInv (val : BitVec 16) : KeepsInv (settimaOp val) :=
  .withHandle _ fun _ h => h.configure _ rfl rfl

theorem settimbOp_keepsInv (val : BitVec 16) : KeepsInv (settimbOp val) :=
  .withHandle _ fun _ h => h.configure _ rfl rfl

theorem sdmaenOp_keepsInv : KeepsInv sdmaenOp := .withHandle _ fun _ h => h.withFx h.enabled h.sef

theorem sclrOp_keepsInv : KeepsInv sclrOp := .withHandle _ fun _ h => h.withFx h.enabled (nomatch ·)

theorem fxenableOp_keepsInv : KeepsInv fxenableOp := .withHandle _ fun s h => by
  dsimp only
  split
  · next configured => exact h.withFx (fun _ => configured) h.sef
  · exact h.raise _

theorem fxdisableOp_keepsInv : KeepsInv fxdisableOp := .withHandle _ fun _ h => h.withFx (nomatch ·) h.sef

/-- The word that sets SEF records the fault. -/
theorem shiftwordOp_keepsInv (v : Word) : KeepsInv (shiftwordOp v) := by
  intro s h
  unfold shiftwordOp
  split
  · exact (h.raise (.shifterOverrun v)).withFx h.enabled fun _ => raise_fault_ne_none _ s
  · exact h.withFx h.enabled h.sef

theorem getbuf_keepsInv :
    KeepsInv (withHandle Instr.getbuf.word fun s => s.withResp hostTid (.addr s.params.shiftBufBisAddr)) :=
  .withHandle _ fun _ h => h.withResp _ _

/-! ### The channel's operations (R30, R32, R185) -/

theorem Inv.afterAllocDraw {s : State} (h : Inv s) : Inv (afterAllocDraw s) := (h.withDraws _).withAnswers _

theorem dallocOp_keepsInv : KeepsInv dallocOp := by
  intro s h
  obtain ⟨hrun, -, -⟩ := h.channel
  cases ha : s.dma.ch.alloc
  case true => rwa [dallocOp_held ha]
  case false =>
    cases hd : allocDraw s
    case true =>
      rw [dallocOp_granted ha hd]
      exact h.afterAllocDraw.withDma h.evq h.tcd ⟨hrun, fun _ => rfl, iff_of_true rfl rfl⟩
    case false =>
      rw [dallocOp_denied ha hd]
      exact h.afterAllocDraw.raise _

theorem dsetupOp_keepsInv : KeepsInv dsetupOp := by
  intro s h
  obtain ⟨-, -, hbound⟩ := h.channel
  by_cases hc : s.dma.ch.alloc = false ∨ s.dma.ch.erq = true ∨ ¬ dmaAligned s.params = true
  · rw [dsetupOp_refused hc]
    exact h.raise _
  · obtain ⟨ha, hq, hal⟩ : s.dma.ch.alloc = true ∧ s.dma.ch.erq = false ∧ dmaAligned s.params = true := by
      simpa using hc
    have hstart : tcdAt s.params (setupTcd s.params) :=
      setupTcd_eq_tcdFor s.params ▸ tcdAt_tcdFor (by decide) (by decide)
    rw [dsetupOp_programs ha hq hal]
    exact h.withDma h.evq (fun _ => hstart) ⟨fun _ => rfl, fun _ => ha, hbound⟩

theorem dstartOp_keepsInv : KeepsInv dstartOp := by
  intro s h
  obtain ⟨-, hprog, hbound⟩ := h.channel
  cases hv : s.dma.ch.tcdv
  case true =>
    rw [dstartOp_programmed hv]
    exact h.withDma h.evq h.tcd ⟨fun _ => hv, hprog, hbound⟩
  case false =>
    rw [dstartOp_refused hv]
    exact h.raise _

theorem dstopOp_keepsInv : KeepsInv dstopOp := by
  intro s h
  obtain ⟨-, hprog, hbound⟩ := h.channel
  exact h.withDma List.nodup_nil h.tcd ⟨(nomatch ·), hprog, hbound⟩

theorem dfreeOp_keepsInv : KeepsInv dfreeOp := by
  intro s h
  cases hq : s.dma.ch.erq
  case true =>
    rw [dfreeOp_running hq]
    exact h.raise _
  case false =>
    rw [dfreeOp_stopped hq]
    exact h.withDma h.evq (nomatch ·)
      ⟨fun he => absurd (hq.symm.trans he) (by decide), (nomatch ·), (nomatch ·), (nomatch ·)⟩

theorem cacheInvalidate_keepsInv : KeepsInv cacheInvalidate := fun _ h => h

/-! ### The composite commands, from their sub-commands -/

theorem initSequence_keepsInv (p : Params) : ∀ f ∈ initSequence p, KeepsInv f := by
  simp only [initSequence, List.forall_mem_cons]
  exact ⟨fxresetOp_keepsInv, setshiftOp_keepsInv, settimaOp_keepsInv _, settimbOp_keepsInv _, dallocOp_keepsInv,
    cacheInvalidate_keepsInv, dsetupOp_keepsInv, dstartOp_keepsInv, sdmaenOp_keepsInv, sclrOp_keepsInv,
    fxenableOp_keepsInv, List.forall_mem_nil _⟩

theorem initOp_keepsInv : KeepsInv initOp := by
  intro s h
  unfold initOp
  split
  · exact h.raise _
  · split
    · exact h.raise _
    · exact KeepsInv.runOps (initSequence_keepsInv s.params) s h

theorem startOp_keepsInv : KeepsInv startOp :=
  initOp_keepsInv.andThen fun _ h => h.withFifo (Fifo.headHeld_of_isEmpty rfl) fun _ => rfl

theorem stopOp_keepsInv : KeepsInv stopOp := by
  refine KeepsInv.runOps ?_
  simp only [List.forall_mem_cons]
  exact ⟨fxdisableOp_keepsInv, dstopOp_keepsInv, dfreeOp_keepsInv, List.forall_mem_nil _⟩

/-! ### The beat (R32, R184, R185) -/

/-- A beat makes a half invalid and moves no generation. -/
theorem Inv.written {s : State} (h : Inv s) (half : Half) : Inv (s.withTrack (s.track.written half)) := by
  refine h.withTrack (fun _ => le_rfl) fun u hu => h.valid u ?_
  have hset : (s.track.valid.set half false)[u] = true := hu
  rw [Fin.getElem_fin, Vector.getElem_set] at hset
  split at hset
  · cases hset
  · exact hset

theorem beatTransfer_keepsInv : KeepsInv beatTransfer := by
  intro s h
  have read : Inv (busRead s s.dma.tcd.saddr).2 := by
    rcases busRead_cases s s.dma.tcd.saddr with ⟨-, e⟩ | ⟨-, e⟩ <;> rw [e]
    · exact h.withFx h.enabled h.sef
    · exact h
  have stored (o : ByteOrder) (a : Addr) (v : Word) :
      Inv ((busRead s s.dma.tcd.saddr).2.withMem ((busRead s s.dma.tcd.saddr).2.mem.storeWord o a v)) :=
    read.withMem (Memory.wf_storeWord read.mem)
  unfold beatTransfer
  dsimp only
  split
  · exact (stored _ _ _).written _
  · exact stored _ _ _

theorem raiseEvent_keepsInv (hc : Half) : KeepsInv (raiseEvent hc) := by
  intro s h
  have marked : Inv (s.withTrack { s.track with wse := s.track.wse.set hc false }) :=
    h.withTrack (fun _ => le_rfl) h.valid
  rcases raiseEvent_cases hc s with ⟨hnew, e⟩ | ⟨-, e⟩ <;> rw [e]
  · exact marked.withDma (List.concat_eq_append ▸ h.evq.concat hnew) h.tcd h.channel
  · exact marked.raise _

theorem beatEvents_keepsInv (citer : BitVec 16) : KeepsInv (beatEvents citer) := by
  refine KeepsInv.andThen (fun s h => ?_) fun s h => ?_
  · split
    · exact raiseEvent_keepsInv 0 s h
    · exact h
  · split
    · exact raiseEvent_keepsInv 1 s h
    · exact h

theorem dmabeatOp_keepsInv : KeepsInv dmabeatOp := by
  intro s h
  obtain ⟨hparams, -⟩ := Prod.mk.inj (beatTransfer_keepsFixed s)
  rw [dmabeatOp_eq]
  exact beatEvents_keepsInv _ _ ((beatTransfer_keepsInv s h).withDma h.evq
    (fun hv => hparams ▸ tcdAt_advance (h.tcd hv)) h.channel)

/-! ### Decoding and the hand-off (R34, R40, R214, R251) -/

theorem Tracking.gen_decoded (k : Tracking) (half u : Half) :
    (k.decoded half).gen[u] = if half = u then k.gen[half] + 1 else k.gen[u] := by
  simp [Tracking.decoded, Vector.getElem_set, Fin.ext_iff]

theorem Tracking.valid_decoded (k : Tracking) (half u : Half) :
    (k.decoded half).valid[u] = if half = u then true else k.valid[u] := by
  simp [Tracking.decoded, Vector.getElem_set, Fin.ext_iff]

/-- The half decoded is at a generation above 0, and every other keeps its own. -/
theorem Inv.decoded {s : State} (h : Inv s) (half : Half) : Inv (s.withTrack (s.track.decoded half)) := by
  refine h.withTrack (fun u => ?_) fun u hu => ?_ <;> rw [Tracking.gen_decoded]
  · split
    · next e => exact e ▸ Nat.le_succ _
    · exact le_rfl
  · rw [Tracking.valid_decoded] at hu
    split at hu
    · next e => rw [if_pos e]; exact Nat.le_add_left _ _
    · next ne => rw [if_neg ne]; exact h.valid u hu

theorem Inv.decodeHalf {s : State} (h : Inv s) (hp : admissible s.params = true) (half : Half) :
    Inv (decodeHalf half s) := by
  have hlen := decoded_words_length s.params (halfWord s half) s.draws hp
  exact ((h.withMem (Memory.wf_storeWords h.mem (by rw [hlen]; decide))).decoded half).withDraws _

theorem Inv.decodeOp {s : State} (h : Inv s) (hp : admissible s.params = true) (half : Half) :
    Inv (decodeOp half s) := by
  unfold Machine.decodeOp
  split
  · exact h.raise _
  · exact h.decodeHalf hp half

/-- An entry is offered at its half's own generation, so the one stored at HEAD of the empty FIFO is held. -/
theorem produceOp_keepsInv (half : Half) : KeepsInv (produceOp half) := by
  intro s h
  refine Inv.withHanding_none (Inv.withFifo h ?_ ?_) <;>
    rcases s.fifo.offer_cases ⟨half, s.track.gen[half]⟩ with ⟨empty, e⟩ | ⟨-, e⟩ <;> rw [e]
  · refine fun _ => ⟨⟨half, s.track.gen[half]⟩, ?_, le_rfl⟩
    simp [s.fifo.isEmpty_iff.mp empty]
  · exact h.fifo
  all_goals exact fun _ => rfl

/-- PRODUCE ends the hand-off that CMPL opened for it. -/
theorem produceOp_withHanding (half : Half) (s : State) (x : Option Half) :
    produceOp half (s.withHanding x) = produceOp half s := rfl

theorem Inv.cmplOp {s : State} (h : Inv s) (hp : admissible s.params = true) (hc : Half) : Inv (cmplOp hc s) := by
  have popped : Inv (cacheInvalidate (takeEvent s)) := h.withDma (h.evq.sublist (List.tail_sublist _)) h.tcd h.channel
  unfold Machine.cmplOp
  dsimp only
  split
  · exact popped.raise _
  · rw [produceOp_withHanding]
    exact produceOp_keepsInv hc _ (popped.decodeHalf hp hc)

/-! ### The read port (R34, R37, R256, R257) -/

section
variable {s : State} (h : Inv s)
include h

/-- COPY ends the read of a thread that WAITERS no longer counts: with no data, with the one entry, or with a fault. -/
theorem Inv.copyBatches {tid : Tid} {cap w k : Nat}
    (hw : s.fault = none → w + (s.tsOf tid).isBlocked.toNat = s.fifo.waiters) :
    Inv (copyBatches tid cap (s.withFifo { s.fifo with sem := k, waiters := w })) := by
  rcases copyBatches_cases tid cap (s.withFifo { s.fifo with sem := k, waiters := w }) with
    ⟨-, e⟩ | ⟨entry, held, -, -, ⟨-, e⟩ | ⟨-, e⟩⟩ <;> rw [e]
  · exact h.endRead _ h.fifo hw
  · exact (h.raise (.staleBatch entry.h entry.g)).withFifo h.fifo fun hr => absurd hr (raise_fault_ne_none _ s)
  · exact h.endRead _ (Fifo.headHeld_of_isEmpty (Fifo.isEmpty_advance _ held)) hw

theorem Inv.reportOverrun {tid : Tid} {w k : Nat}
    (hw : s.fault = none → w + (s.tsOf tid).isBlocked.toNat = s.fifo.waiters) :
    Inv (reportOverrun tid (s.withFifo { s.fifo with sem := k, waiters := w })) :=
  h.endRead _ h.fifo hw

theorem Inv.consumeOp (tid : Tid) (nb : Bool) (cap : BitVec 16) : Inv (consumeOp tid nb cap s) := by
  unfold Machine.consumeOp
  split
  · exact h.raise _
  next idle =>
  have hidle : (s.tsOf tid).isBlocked = false := by rw [not_not.mp idle]; rfl
  split
  · exact h.withResp _ _
  next room =>
  split
  · split
    · exact h.reportOverrun (w := s.fifo.waiters) (k := s.fifo.sem) fun _ => by rw [hidle]; rfl
    · split
      · exact h.withResp _ _
      · refine h.withThread h.fifo (fun _ => by rw [hidle]; rfl) fun c hc => ?_
        cases hc
        exact not_lt.mp room
  · exact h.copyBatches (w := s.fifo.waiters) (k := s.fifo.sem) fun _ => by rw [hidle]; rfl

/-- A thread that wakes was counted by WAITERS, and is again if it goes on waiting. -/
theorem Inv.wakeOp (hs : s.fault = none) {tid : Tid} (hb : (s.tsOf tid).isBlocked = true) : Inv (wakeOp tid s) := by
  have hpos := h.waiters_pos hs hb
  have hw : s.fifo.waiters - 1 + (s.tsOf tid).isBlocked.toNat = s.fifo.waiters := by
    rw [hb]
    exact Nat.sub_add_cancel hpos
  unfold Machine.wakeOp
  dsimp only
  split
  · exact h.copyBatches fun _ => hw
  · split
    · exact h.reportOverrun fun _ => hw
    · exact h.withFifo h.fifo fun _ => Nat.sub_add_cancel hpos

theorem Inv.sigintrOp (hs : s.fault = none) {tid : Tid} (hb : (s.tsOf tid).isBlocked = true) :
    Inv (sigintrOp tid s) := by
  have hpos := h.waiters_pos hs hb
  exact h.endRead _ h.fifo fun _ => by rw [hb]; exact Nat.sub_add_cancel hpos

theorem Inv.fiforstOp : Inv (fiforstOp s) :=
  h.withFifo (Fifo.headHeld_of_isEmpty (by simp [Fifo.isEmpty])) fun _ => rfl

end

/-! ### Every step -/

/-- Every instruction keeps the invariant: each is one of the shared shapes around its operation. -/
theorem exec_keepsInv {i : Instr} {s t : State} (hp : admissible s.params = true) (h : Inv s)
    (hn : exec i s = .next t) : Inv t := by
  cases i with
  | fxreset => exact (fxresetOp_keepsInv s h).hostCommand hn
  | setshift => exact (setshiftOp_keepsInv s h).hostCommand hn
  | settima val => exact (settimaOp_keepsInv val s h).hostCommand hn
  | settimb val => exact (settimbOp_keepsInv val s h).hostCommand hn
  | sdmaen => exact (sdmaenOp_keepsInv s h).hostCommand hn
  | sclr => exact (sclrOp_keepsInv s h).hostCommand hn
  | fxenable => exact (fxenableOp_keepsInv s h).hostCommand hn
  | getbuf => exact Inv.whenLive (fun _ => getbuf_keepsInv s h) hn
  | fxdisable => exact (fxdisableOp_keepsInv s h).hostCommand hn
  | dalloc => exact (dallocOp_keepsInv s h).hostCommand hn
  | dsetup => exact (dsetupOp_keepsInv s h).hostCommand hn
  | dstart => exact (dstartOp_keepsInv s h).hostCommand hn
  | dstop => exact (dstopOp_keepsInv s h).hostCommand hn
  | dfree => exact (dfreeOp_keepsInv s h).hostCommand hn
  | cinv => exact (cacheInvalidate_keepsInv s h).hostCommand hn
  | init => exact (initOp_keepsInv s h).hostCommand hn
  | start => exact (startOp_keepsInv s h).hostCommand hn
  | stop => exact (stopOp_keepsInv s h).hostCommand hn
  | decode half => exact (h.decodeOp hp half).hostCommand hn
  | consume tid nb cap => exact Inv.whenLive (fun _ => h.consumeOp tid nb cap) hn
  | fiforst => exact h.fiforstOp.hostCommand hn
  | shiftword v => exact h.agentStep (fun _ _ => shiftwordOp_keepsInv v s h) hn
  | dmabeat => exact h.agentStep (fun _ _ => dmabeatOp_keepsInv s h) hn
  | cmpl hc => exact h.agentStep (fun _ _ => h.cmplOp hp hc) hn
  | produce half => exact h.agentStep (fun _ _ => produceOp_keepsInv half s h) hn
  | wake tid =>
    refine h.agentStep (fun hs he => ?_) hn
    obtain ⟨hb, -⟩ := Bool.and_eq_true_iff.mp he
    exact h.wakeOp hs hb
  | sigintr tid => exact h.agentStep (fun hs hb => h.sigintrOp hs hb) hn

/-- Settles O55: a step takes a turn off the schedule and records an illegal word or runs an instruction; only a
launched setting, which is admissible, steps. -/
theorem stepKeepsInv : Obligations.StepKeepsInv := by
  intro s t h hstep
  obtain ⟨hp, -, ⟨-, rfl⟩ | ⟨w, rest, -, rfl⟩ | ⟨x, rest, i, -, hexec⟩⟩ := step_cases hstep
  · exact h
  · exact (h.withSched rest).raise _
  · obtain ⟨hadm, -, -⟩ := launchRefusal_none hp
    exact exec_keepsInv (s := s.withSched rest) hadm (h.withSched rest) hexec

end Sys2Proof.Machine
end

section
/-! Proofs of the family 42_decoder: the sample field bit by bit, the frame of the reference geometry, and what a decode
leaves in the half (spec/42_decoder.md R211 to R216). -/

namespace Sys2Proof.Machine

open Sys2Proof.Claims

/-! ### The sample field as stream bits (R211, R212) -/

theorem getLsbD_and_mask24 (w : Word) {i : Nat} (hi : i < 24) : (w &&& 0x00FFFFFF).getLsbD i = w.getLsbD i := by
  have mask : (0x00FFFFFF : Word) = (BitVec.allOnes 24).setWidth 32 := by decide
  rw [BitVec.getLsbD_and, mask, BitVec.getLsbD_setWidth, BitVec.getLsbD_allOnes]
  simp [hi, show i < 32 by omega]

theorem toNat_and_mask24_lt (w : Word) : (w &&& 0x00FFFFFF).toNat < 2 ^ 24 := by
  rw [BitVec.toNat_and]
  exact Nat.and_lt_two_pow _ (by decide)

/-- The stream bits of one word, the first the most significant. -/
theorem streamBit_in_word (words : Nat → Word) (q : Nat) {k : Nat} (hk : k < 32) :
    streamBit words (32 * q + k) = (words q).getLsbD (31 - k) := by
  rw [streamBit, Nat.mul_add_div (by decide), Nat.mul_add_mod, Nat.div_eq_of_lt hk, Nat.mod_eq_of_lt hk, Nat.add_zero]

theorem sampleField_toNat_lt (words : Nat → Word) (p : Nat) : (sampleField words p).toNat < 2 ^ 24 := by
  unfold sampleField
  dsimp only
  split <;> exact toNat_and_mask24_lt _

/-- A field inside one word is a slice of it; one that goes on in the next word takes its high bits from the first. -/
theorem getLsbD_sampleField (words : Nat → Word) (p : Nat) {i : Nat} (hi : i < 24) :
    (sampleField words p).getLsbD (23 - i) = streamBit words (p + i) := by
  obtain ⟨q, r, hr, rfl⟩ : ∃ q r, r < 32 ∧ p = 32 * q + r := ⟨p / 32, p % 32, Nat.mod_lt _ (by decide), by omega⟩
  have hq : (32 * q + r) / 32 = q := by omega
  have hm : (32 * q + r) % 32 = r := by omega
  simp only [sampleField, hq, hm, lsl, lsr]
  split
  · rw [getLsbD_and_mask24 _ (by omega), BitVec.getLsbD_ushiftRight, Nat.add_assoc, streamBit_in_word _ _ (by omega)]
    congr 1
    omega
  · rw [getLsbD_and_mask24 _ (by omega), BitVec.getLsbD_or, BitVec.getLsbD_shiftLeft, BitVec.getLsbD_ushiftRight]
    by_cases first : r + i < 32
    · have second : (words (q + 1)).getLsbD (40 - r + (23 - i)) = false := BitVec.getLsbD_of_ge _ _ (by omega)
      rw [second, Nat.add_assoc, streamBit_in_word _ _ first, show 23 - i - (r - 8) = 31 - (r + i) by omega]
      simp [show ¬ 23 - i < r - 8 by omega, show 23 - i < 32 by omega]
    · have crosses : 32 * q + r + i = 32 * (q + 1) + (r + i - 32) := by omega
      rw [crosses, streamBit_in_word _ _ (by omega), show 40 - r + (23 - i) = 31 - (r + i - 32) by omega]
      simp [show 23 - i < r - 8 by omega]

/-- Two words below 2^24 with the same low 24 bits, named from the top as stream bits are, are one word. -/
theorem eq_of_low24 {v w : Word} (hv : v.toNat < 2 ^ 24) (hw : w.toNat < 2 ^ 24)
    (h : ∀ i, i < 24 → v.getLsbD (23 - i) = w.getLsbD (23 - i)) : v = w := by
  apply BitVec.eq_of_getLsbD_eq
  intro j _
  by_cases low : j < 24
  · simpa only [show 23 - (23 - j) = j by omega] using h (23 - j) (by omega)
  · have high {u : Word} (hu : u.toNat < 2 ^ 24) : u.getLsbD j = false :=
      Nat.testBit_lt_two_pow (hu.trans_le (Nat.pow_le_pow_right (by decide) (by omega)))
    rw [high hv, high hw]

section
variable {words words' : Nat → Word} {p : Nat}

/-- Two sequences of words with the same 24 bits at `p` have one field there. -/
theorem sampleField_congr (h : ∀ i, i < 24 → streamBit words (p + i) = streamBit words' (p + i)) :
    sampleField words p = sampleField words' p :=
  eq_of_low24 (sampleField_toNat_lt words p) (sampleField_toNat_lt words' p) fun i hi => by
    rw [getLsbD_sampleField words p hi, getLsbD_sampleField words' p hi, h i hi]

/-- A field is known from its 24 stream bits. -/
theorem sampleField_eq_setWidth {v : BitVec 24} (h : ∀ i, i < 24 → streamBit words (p + i) = v.getLsbD (23 - i)) :
    sampleField words p = v.setWidth 32 := by
  refine eq_of_low24 (sampleField_toNat_lt words p) ?_ fun i hi => ?_
  · rw [BitVec.toNat_setWidth, Nat.mod_eq_of_lt (by omega)]
    exact v.isLt
  · rw [getLsbD_sampleField words p hi, h i hi, BitVec.getLsbD_setWidth]
    simp [show 23 - i < 32 by omega]

end

/-- Settles O32: in each branch of R212 every bit of the field is one stream bit, and the mask bounds the field. -/
theorem fieldIsStreamBits : Obligations.FieldIsStreamBits := fun words p =>
  ⟨fun _ hi => getLsbD_sampleField words p hi, sampleField_toNat_lt words p⟩

/-! ### The frame of the reference geometry (R213) -/

section
variable (words : Nat → Word) (q : Nat)

theorem sampleField_channel0 :
    sampleField words (32 * q) = ((words q).extractLsb' 8 24).setWidth 32 := by
  refine sampleField_eq_setWidth fun i hi => ?_
  rw [streamBit_in_word _ _ (by omega), BitVec.getLsbD_extractLsb']
  simp [show 23 - i < 24 by omega, show 8 + (23 - i) = 31 - i by omega]

theorem sampleField_channel1 :
    sampleField words (32 * q + 24) =
      ((words q).extractLsb' 0 8 ++ (words (q + 1)).extractLsb' 16 16).setWidth 32 := by
  refine sampleField_eq_setWidth fun i hi => ?_
  rw [BitVec.getLsbD_append, BitVec.getLsbD_extractLsb', BitVec.getLsbD_extractLsb']
  by_cases first : i < 8
  · rw [Nat.add_assoc, streamBit_in_word _ _ (by omega)]
    simp [show ¬ 23 - i < 16 by omega, show 31 - (24 + i) < 8 by omega, show 23 - i - 16 = 31 - (24 + i) by omega]
  · rw [show 32 * q + 24 + i = 32 * (q + 1) + (i - 8) by omega, streamBit_in_word _ _ (by omega)]
    simp [show 23 - i < 16 by omega, show 16 + (23 - i) = 31 - (i - 8) by omega]

theorem sampleField_channel2 :
    sampleField words (32 * q + 48) =
      ((words (q + 1)).extractLsb' 0 16 ++ (words (q + 2)).extractLsb' 24 8).setWidth 32 := by
  refine sampleField_eq_setWidth fun i hi => ?_
  rw [BitVec.getLsbD_append, BitVec.getLsbD_extractLsb', BitVec.getLsbD_extractLsb']
  by_cases first : i < 16
  · rw [show 32 * q + 48 + i = 32 * (q + 1) + (16 + i) by omega, streamBit_in_word _ _ (by omega)]
    simp [show ¬ 23 - i < 8 by omega, show 31 - (16 + i) < 16 by omega, show 23 - i - 8 = 31 - (16 + i) by omega]
  · rw [show 32 * q + 48 + i = 32 * (q + 2) + (i - 16) by omega, streamBit_in_word _ _ (by omega)]
    simp [show 23 - i < 8 by omega, show 24 + (23 - i) = 31 - (i - 16) by omega]

end

/-- Settles O33: a frame begins at word 16f, and each channel's field is a slice of at most two words. -/
theorem referenceFrameSlices : Obligations.ReferenceFrameSlices := by
  intro p words f hfw hoff
  have start : 32 * p.frameWords * f = 32 * (16 * f) := by rw [hfw, Nat.mul_assoc]
  simp only [frameSamples, hoff, start, List.map_cons, List.map_nil, Nat.add_zero, sampleField_channel0,
    sampleField_channel1, sampleField_channel2]

/-! ### Words stored in a run (R73, R214) -/

theorem Memory.loadWord_eq_of_bytes {m : Memory} {o : ByteOrder} {a : Addr} {v : Word}
    (h : ∀ k, k < 4 → some (m.byteAt (a + BitVec.ofNat 32 k).toNat) = (bytesOfWord o v)[k]?) : m.loadWord o a = v := by
  have first : some (m.byteAt a.toNat) = (bytesOfWord o v)[0]? := by simpa using h 0 (by decide)
  refine wordOfBytes_bytesOfWord o v _ _ _ _ (List.ext_getElem? fun k => ?_)
  match k with
  | 0 => exact first.symm
  | 1 => exact (h 1 (by decide)).symm
  | 2 => exact (h 2 (by decide)).symm
  | 3 => exact (h 3 (by decide)).symm
  | k + 4 => rw [List.getElem?_eq_none (by simp)]; rfl

/-- Word `j` of a stored run is read back. -/
theorem Memory.loadWord_storeWords {m : Memory} {o : ByteOrder} {a : Addr} {ws : List Word} {j : Nat} {v : Word}
    (hlen : ws.length ≤ 2 ^ 30) (hv : ws[j]? = some v) :
    (m.storeWords o a ws).loadWord o (a + BitVec.ofNat 32 (4 * j)) = v := by
  have hj : j < ws.length := (List.getElem?_eq_some_iff.mp hv).1
  refine Memory.loadWord_eq_of_bytes fun k hk => ?_
  have stored : (ws.flatMap (bytesOfWord o))[4 * j + k]? = (bytesOfWord o v)[k]? := by
    rw [getElem?_flatMap_bytesOfWord o ws j k hk, hv, Option.bind_some]
  rw [Memory.storeWords, BitVec.add_assoc, ← BitVec.ofNat_add,
    Memory.byteAt_store _ _ _ _ (BitVec.isLt _) (by rw [flatMap_bytesOfWord_length]; omega),
    Memory.offset_add a (by omega), stored, List.getElem?_eq_getElem (by simpa using hk)]
  rfl

theorem rawAddr_half (p : Params) (h : Half) (j : Nat) :
    rawAddr p (256 * h.val + j) = halfBase p h + BitVec.ofNat 32 (4 * j) := by
  rw [rawAddr, halfBase, BitVec.add_assoc, ← BitVec.ofNat_add, halfBytes]
  congr 2
  omega

/-! ### What a decode leaves unchanged (R214) -/

section
variable (h : Half) (s : State)

@[simp] theorem decodeHalf_params : (decodeHalf h s).params = s.params := by simp [decodeHalf]
@[simp] theorem decodeHalf_fx : (decodeHalf h s).fx = s.fx := by simp [decodeHalf]
@[simp] theorem decodeHalf_dma : (decodeHalf h s).dma = s.dma := by simp [decodeHalf]
@[simp] theorem decodeHalf_fifo : (decodeHalf h s).fifo = s.fifo := by simp [decodeHalf]
@[simp] theorem decodeHalf_readers : (decodeHalf h s).readers = s.readers := by simp [decodeHalf]
@[simp] theorem decodeHalf_fault : (decodeHalf h s).fault = s.fault := by simp [decodeHalf]
@[simp] theorem decodeHalf_sched : (decodeHalf h s).sched = s.sched := by simp [decodeHalf]

theorem decodeHalf_track : (decodeHalf h s).track = trackDecoded s.track h := by
  simp [decodeHalf, Tracking.decoded, trackDecoded]

theorem decodeHalf_mem : (decodeHalf h s).mem = s.mem.storeWords s.params.byteOrder (halfBase s.params h)
    (decodedBatch s.params (halfWord s h) ++ decodeTail s.params s.draws) := by simp [decodeHalf]

end

/-! ### The batch in the half (R214, R219) -/

/-- Entry `c` of group `i`, where every group has `n` entries. -/
theorem getElem?_flatMap_of_length {α β : Type} {f : α → List β} {n : Nat} (hf : ∀ x, (f x).length = n) (l : List α)
    (i : Nat) {c : Nat} (hc : c < n) : (l.flatMap f)[n * i + c]? = (l[i]?).bind fun x => (f x)[c]? := by
  induction l generalizing i with
  | nil => simp
  | cons x l ih =>
    rw [List.flatMap_cons]
    cases i with
    | zero => rw [List.getElem?_append_left (by rw [hf]; omega)]; simp
    | succ i =>
      rw [List.getElem?_append_right (by rw [hf, Nat.mul_succ]; omega), hf,
        show n * (i + 1) + c - n = n * i + c by rw [Nat.mul_succ]; omega, ih]
      simp

section
variable {p : Params} {s : State} {h : Half}

/-- Sample group `f` of the batch holds the channels of frame `f` in wire order. -/
theorem getElem?_decodedBatch (hoff : p.sampleOffsets.length = 3) (words : Nat → Word) {f c : Nat}
    (hf : f < 256 / p.frameWords) (hc : c < 3) :
    (decodedBatch p words)[3 * f + c]? =
      some (sext24 (sampleField words (32 * p.frameWords * f + p.sampleOffsets.getD c 0))) := by
  have hframe : (List.range (framesPerHalf p))[f]? = some f := List.getElem?_range hf
  rw [decodedBatch, getElem?_flatMap_of_length (fun _ => (frameSamples_length ..).trans hoff) _ _ hc, hframe,
    Option.bind_some, frameSamples, List.getElem?_map, List.getD_eq_getElem?_getD,
    List.getElem?_eq_getElem (by omega)]
  rfl

/-- A decode stores the batch from the half's first word on. -/
theorem decodeHalf_holdsDecode (hp : admissible s.params = true) (h : Half) : holdsDecode s (decodeHalf h s) h := by
  intro f c hf hc
  obtain ⟨-, -, hoff, -⟩ := (admissible_iff _).mp hp
  have hlen := decoded_words_length s.params (halfWord s h) s.draws hp
  have entry := getElem?_decodedBatch hoff (halfWord s h) hf hc
  have inBatch := (List.getElem?_eq_some_iff.mp entry).1
  rw [State.raw, decodeHalf_params, decodeHalf_mem, rawAddr_half]
  exact Memory.loadWord_storeWords (by rw [hlen]; decide) ((List.getElem?_append_left inBatch).trans entry)

/-- A command's result is no part of the raw buffer. -/
theorem State.raw_done (s : State) (i : Nat) : (done s).raw i = s.raw i := rfl

/-- DECODE on a stopped channel completes with the half decoded (R214, R215). -/
theorem exec_decode_stopped (hs : s.fault = none) (hq : s.dma.ch.erq = false) :
    exec (.decode h) s = .next (done (decodeHalf h s)) :=
  hostCommand_done hs ((decodeHalf_fault h s).trans hs) (if_neg (ne_true_of_eq_false hq))

/-- DECODE on a running channel is refused (R215). -/
theorem exec_decode_running (hs : s.fault = none) (hq : s.dma.ch.erq = true) :
    exec (.decode h) s = .next (faulted s (.configInvalid (mkWord 0x31 h.val))) :=
  hostCommand_faulted hs hs (if_pos hq)

end

/-- Settles O34, by ERQ: the decode on a stopped channel writes the half and the tracking, and nothing else. -/
theorem decodeWritesBatch : Obligations.DecodeWritesBatch := by
  intro s h hs
  refine ⟨exec_decode_running hs, fun hq hp =>
    ⟨done (decodeHalf h s), exec_decode_stopped hs hq, ?batch, decodeHalf_sameOutsideHalf hp h, ?rest⟩⟩
  case batch => exact fun f c hf hc => (State.raw_done _ _).trans (decodeHalf_holdsDecode hp h f c hf hc)
  case rest => simp [done, decodeHalf_track, hs]

/-- Settles O35: each word of the batch is a field sign-extended, and a field is its 24 stream bits. -/
theorem otherBitsDoNotMatter : Obligations.OtherBitsDoNotMatter := by
  intro s s' t t' h hparams hp hbits hq hq' ht ht' j hj
  have hp' : admissible s'.params = true := hparams ▸ hp
  have decoded {u v : State} (hu : u.dma.ch.erq = false) (hv : exec (.decode h) u = .next v) :
      v = done (decodeHalf h u) :=
    Host.Outcome.next.inj (hv.symm.trans (exec_decode_stopped (hostCommand_next hv).1 hu))
  have hf : j / 3 < 256 / s.params.frameWords := by omega
  have hc : j % 3 < 3 := Nat.mod_lt _ (by decide)
  have same : sampleOf s h (j / 3) (j % 3) = sampleOf s' h (j / 3) (j % 3) := by
    rw [sampleOf, sampleOf, ← hparams]
    exact congrArg sext24 (sampleField_congr fun i hi => hbits _ _ i hf hc hi)
  rw [decoded hq ht, decoded hq' ht', State.raw_done, State.raw_done, ← Nat.div_add_mod j 3,
    decodeHalf_holdsDecode hp h _ _ hf hc, same, decodeHalf_holdsDecode hp' h _ _ (hparams ▸ hf) hc]

end Sys2Proof.Machine
end

section
/-! Proofs of the family 43_steering_fifo: the hand-off of a batch to the FIFO, and the reads that take it out again
(spec/43_steering_fifo.md R240 to R279). -/

namespace Sys2Proof.Machine

open Sys2Proof.Claims

/-! ### The FIFO offered a batch (R251, R252) -/

/-- Of two positions, the one after `t` is `h` exactly if the two differ. -/
theorem next_position_eq_iff : ∀ h t : Fin 2, t + 1 = h ↔ h ≠ t := by decide

theorem position_ne_next : ∀ k : Fin 2, k ≠ k + 1 := by decide

/-- The FIFO with the entry stored: TAIL and POLLNOTE move on, and a waiter is signalled (R251). -/
def Fifo.stored (f : Fifo) (e : Entry) : Fifo where
  slot := f.slot.set f.tail (some e)
  head := f.head
  tail := f.tail + 1
  ovr := f.ovr
  waiters := f.waiters
  sem := if 0 < f.waiters then f.sem + 1 else f.sem
  pollnote := f.pollnote + 1

section
variable {f : Fifo}

theorem Fifo.isEmpty_eq_false (h : f.head ≠ f.tail) : f.isEmpty = false := decide_eq_false h

theorem Fifo.offer_empty (h : f.head = f.tail) (e : Entry) : (f.offer e).1 = f.stored e := by
  rcases f.offer_cases e with ⟨-, offered⟩ | ⟨held, -⟩
  · rw [offered]
    rfl
  · exact absurd (f.isEmpty_iff.mpr h) (ne_true_of_eq_false held)

theorem Fifo.offer_held (h : f.head ≠ f.tail) (e : Entry) : (f.offer e).1 = { f with ovr := true } := by
  rcases f.offer_cases e with ⟨empty, -⟩ | ⟨-, offered⟩
  · exact absurd (f.isEmpty_iff.mp empty) h
  · rw [offered]

/-- A batch stored leaves the FIFO with no room for another. -/
theorem Fifo.stored_head_ne_tail (h : f.head = f.tail) (e : Entry) : (f.stored e).head ≠ (f.stored e).tail :=
  h ▸ position_ne_next f.tail

end

section
variable {s : State} {h : Half}

theorem exec_produce (hs : s.fault = none) (hh : s.handing = some h) :
    exec (.produce h) s = .next (produceOp h s) :=
  agentStep_enabled hs (decide_eq_true hh)

theorem produceOp_stores (he : s.fifo.head = s.fifo.tail) :
    produceOp h s = (s.withFifo (s.fifo.stored ⟨h, s.track.gen[h]⟩)).withHanding none := by
  rw [produceOp, Fifo.offer_empty he]

theorem produceOp_drops (he : s.fifo.head ≠ s.fifo.tail) :
    produceOp h s = (s.withFifo { s.fifo with ovr := true }).withHanding none := by
  rw [produceOp, Fifo.offer_held he]

end

/-- Settles O42: of the two positions, the one after TAIL is HEAD exactly if the FIFO is not empty. -/
theorem produceStoresOrDrops : Obligations.ProduceStoresOrDrops := by
  intro s h hs hh
  rw [exec_produce hs hh, Ne, next_position_eq_iff, not_not]
  exact ⟨fun held => congrArg _ (produceOp_drops held), fun empty => congrArg _ (produceOp_stores empty)⟩

/-! ### Batches handed off with no read between them (R252) -/

section
variable {s : State}

/-- The handler's hand-off of one more half is that half's PRODUCE. -/
theorem handOffs_cons (hs : s.fault = none) (h : Half) (halves : List Half) :
    handOffs (h :: halves) s = handOffs halves (produceOp h s) := by
  have produced : exec (.produce h) { s with handing := some h } = .next (produceOp h s) :=
    exec_produce (s := s.withHanding (some h)) hs rfl
  rw [handOffs, produced]

/-- While the FIFO holds a batch every hand-off is dropped. -/
theorem handOffs_held (hs : s.fault = none) (hh : s.handing = none) (held : s.fifo.head ≠ s.fifo.tail)
    (halves : List Half) :
    handOffs halves s = .next (s.withFifo { s.fifo with ovr := if halves = [] then s.fifo.ovr else true }) := by
  induction halves generalizing s with
  | nil => rfl
  | cons h halves ih =>
    rw [handOffs_cons hs, produceOp_drops held,
      ih (s := (s.withFifo { s.fifo with ovr := true }).withHanding none) hs rfl held]
    simp [State.withFifo, State.withHanding, hh]

end

/-- Settles O43: the first hand-off is stored, and `handOffs_held` drops those after it. -/
theorem fifoKeepsFirstBatch : Obligations.FifoKeepsFirstBatch := by
  intro s h halves hs empty
  have held := Fifo.stored_head_ne_tail empty ⟨h, s.track.gen[h]⟩
  have first : handOffs [h] s = .next ((s.withFifo (s.fifo.stored ⟨h, s.track.gen[h]⟩)).withHanding none) := by
    rw [handOffs_cons hs, produceOp_stores empty, handOffs]
  refine ⟨_, _, first,
    handOffs_held (s := (s.withFifo (s.fifo.stored _)).withHanding none) hs rfl held halves, ?_, rfl, rfl⟩
  simp [Fifo.stored]

/-! ### The completion handler (R240 to R242) -/

section
variable (h : Half) (s : State)

@[simp] theorem produceOp_params : (produceOp h s).params = s.params := rfl
@[simp] theorem produceOp_fx : (produceOp h s).fx = s.fx := rfl
@[simp] theorem produceOp_dma : (produceOp h s).dma = s.dma := rfl
@[simp] theorem produceOp_track : (produceOp h s).track = s.track := rfl
@[simp] theorem produceOp_readers : (produceOp h s).readers = s.readers := rfl
@[simp] theorem produceOp_fault : (produceOp h s).fault = s.fault := rfl
@[simp] theorem produceOp_handing : (produceOp h s).handing = none := rfl
@[simp] theorem produceOp_sched : (produceOp h s).sched = s.sched := rfl

/-- PRODUCE stores a reference to the half and moves no raw word. -/
theorem State.raw_produceOp (i : Nat) : (produceOp h s).raw i = s.raw i := rfl

theorem sampleOf_takeEvent (f c : Nat) : sampleOf (takeEvent s) h f c = sampleOf s h f c := rfl

end

section
variable {s : State} {hc : Half}

theorem exec_cmpl {rest : List Half} (hs : s.fault = none) (hq : s.dma.evq = hc :: rest) :
    exec (.cmpl hc) s = .next (cmplOp hc s) :=
  agentStep_enabled hs (by simp [cmplEnabled, hq])

theorem takeEvent_eq {rest : List Half} (hq : s.dma.evq = hc :: rest) :
    takeEvent s = s.withDma { s.dma with evq := rest } := by
  rw [takeEvent, hq, List.tail_cons]

theorem cmplOp_late (hw : s.track.wse[hc] = true) : cmplOp hc s = raise (.decodeLate hc) (takeEvent s) := if_pos hw

/-- The half not written since is decoded and handed off. -/
theorem cmplOp_decodes (hw : s.track.wse[hc] = false) :
    cmplOp hc s = produceOp hc (decodeHalf hc (takeEvent s)) :=
  if_neg (ne_true_of_eq_false hw)

/-- The handler leaves the decode of its half in place, whatever PRODUCE then does with the batch. -/
theorem cmplOp_holdsDecode (hp : admissible s.params = true) (hw : s.track.wse[hc] = false) :
    holdsDecode s (cmplOp hc s) hc := by
  intro f c hf hch
  rw [cmplOp_decodes hw, State.raw_produceOp, decodeHalf_holdsDecode (s := takeEvent s) hp hc f c hf hch,
    sampleOf_takeEvent]

end

/-- Settles O41, by WSE: the handler's decode is that of the state with the event popped, and PRODUCE after it writes
the FIFO alone. -/
theorem cmplDecodesAndHandsOff : Obligations.CmplDecodesAndHandsOff := by
  intro s hc rest hs hq
  rw [exec_cmpl hs hq]
  refine ⟨fun late => ?late, fun kept hp => ?decodes⟩
  case late =>
    rw [cmplOp_late late, takeEvent_eq hq]
    exact congrArg _ (raise_eq_faulted (s := s.withDma _) hs)
  case decodes =>
    refine ⟨_, rfl, ?dma, cmplOp_holdsDecode hp kept, cmplOp_sameOutsideHalf hp hc, ?rest⟩ <;>
      rw [cmplOp_decodes kept, takeEvent_eq hq]
    case dma => simp
    case rest =>
      refine ⟨by simp [decodeHalf_track], ?fifo, by simp [hs]⟩
      split
      · next empty =>
        rw [produceOp_stores (by simpa using empty)]
        simp [Fifo.stored, decodeHalf_track, trackDecoded]
      · next held =>
        rw [produceOp_drops (by simpa using held)]
        simp

/-! ### COPY of the entry at HEAD (R258, R260, R262) -/

/-- The entry may be copied: it is of its half's generation, and no beat has written the half since (R262). -/
theorem isStale_eq_false_iff (k : Tracking) (e : Entry) :
    isStale k e = false ↔ e.g = k.gen[e.h] ∧ k.valid[e.h] = true := by
  simp [isStale]

theorem batchOf_length (s : State) (e : Entry) : (batchOf s e).length = batchBytes s.params := by
  simp [batchOf, Memory.load]

section
variable {s : State} {tid : Tid} {cap : Nat} {e : Entry} (held : s.fifo.head ≠ s.fifo.tail)
  (room : batchBytes s.params ≤ cap) (hslot : s.fifo.slot[s.fifo.head] = some e)
include held room hslot

/-- With room for a batch and an entry at HEAD, COPY stops on it or delivers its batch. -/
theorem copyBatches_entry : copyBatches tid cap s =
    if isStale s.track e = true then raise (.staleBatch e.h e.g) s
    else ((s.withFifo { s.fifo with head := s.fifo.head + 1 }).withResp tid (.ok (batchOf s e))).withTs tid .idle := by
  rcases copyBatches_cases tid cap s with ⟨empty | small | vacant, -⟩ |
    ⟨e', -, -, hslot', ⟨stale, copied⟩ | ⟨fresh, copied⟩⟩
  · exact absurd (s.fifo.isEmpty_iff.mp empty) held
  · omega
  · simp [vacant] at hslot
  all_goals obtain rfl : e = e' := Option.some.inj (hslot.symm.trans hslot')
  · rw [copied, if_pos stale]
  · rw [copied, if_neg (ne_true_of_eq_false fresh)]

theorem copyBatches_fresh (fresh : e.g = s.track.gen[e.h] ∧ s.track.valid[e.h] = true) : copyBatches tid cap s =
    ((s.withFifo { s.fifo with head := s.fifo.head + 1 }).withResp tid (.ok (batchOf s e))).withTs tid .idle :=
  (copyBatches_entry held room hslot).trans (if_neg (ne_true_of_eq_false ((isStale_eq_false_iff _ _).mpr fresh)))

theorem copyBatches_stale (stale : ¬ (e.g = s.track.gen[e.h] ∧ s.track.valid[e.h] = true)) :
    copyBatches tid cap s = raise (.staleBatch e.h e.g) s :=
  (copyBatches_entry held room hslot).trans
    (if_pos (eq_true_of_ne_false ((not_congr (isStale_eq_false_iff _ _)).mpr stale)))

end

/-- Byte `k` of a word is its bits 8k+7 to 8k, in little-endian order. -/
theorem extractLsb'_wordOfBytes_little {b0 b1 b2 b3 : Byte} {k : Nat} (hk : k < 4) :
    (wordOfBytes .little b0 b1 b2 b3).extractLsb' (8 * k) 8 = [b0, b1, b2, b3][k] := by
  ext i hi
  rw [wordOfBytes, BitVec.getElem_extractLsb']
  simp only [BitVec.getLsbD_append]
  match k with
  | 0 =>
    rw [if_pos (by omega), show 8 * 0 + i = i by omega]
    exact BitVec.getLsbD_eq_getElem hi
  | 1 =>
    rw [if_neg (by omega), if_pos (by omega), show 8 * 1 + i - 8 = i by omega]
    exact BitVec.getLsbD_eq_getElem hi
  | 2 =>
    rw [if_neg (by omega), if_neg (by omega), if_pos (by omega), show 8 * 2 + i - 8 - 8 = i by omega]
    exact BitVec.getLsbD_eq_getElem hi
  | 3 =>
    rw [if_neg (by omega), if_neg (by omega), if_neg (by omega), show 8 * 3 + i - 8 - 8 - 8 = i by omega]
    exact BitVec.getLsbD_eq_getElem hi

/-- Byte `k` of a word in memory is its bits 8k+7 to 8k, in little-endian order (R73). -/
theorem Memory.extractLsb'_loadWord_little (m : Memory) (a : Addr) {k : Nat} (hk : k < 4) :
    (m.loadWord .little a).extractLsb' (8 * k) 8 = m.byteAt (a + BitVec.ofNat 32 k).toNat := by
  rw [Memory.loadWord, extractLsb'_wordOfBytes_little hk]
  match k with
  | 0 => simp
  | 1 | 2 | 3 => rfl

/-- Settles O48: the batch is the bytes from the half's first word on, and a word is its four bytes. -/
theorem batchIsLittleEndian : Obligations.BatchIsLittleEndian := by
  intro s e j k little hp hj hk
  have inBatch : 4 * j + k < batchBytes s.params := by
    show 4 * j + k < 4 * (256 / s.params.frameWords * 3)
    omega
  rw [State.raw, little, Memory.extractLsb'_loadWord_little _ _ hk, rawAddr_half, BitVec.add_assoc,
    ← BitVec.ofNat_add, batchOf, Memory.load, List.getElem?_map, List.getElem?_range inBatch, Option.map_some]

/-! ### CONSUME (R255 to R257) -/

theorem State.withTs_eq_self {s : State} {tid : Tid} {x : ThreadState} (h : s.tsOf tid = x) : s.withTs tid x = s := by
  subst h
  simp [State.withTs, State.tsOf]

section
variable {s : State} {tid : Tid} {nb : Bool} {cap : BitVec 16}

theorem exec_consume (hs : s.fault = none) : exec (.consume tid nb cap) s = .next (consumeOp tid nb cap s) :=
  whenLive_live hs

theorem consumeOp_blocked (h : s.tsOf tid ≠ .idle) :
    consumeOp tid nb cap s = raise (.configInvalid (Instr.consume tid nb cap).word) s :=
  if_pos h

theorem consumeOp_small (idle : s.tsOf tid = .idle) (small : cap.toNat < batchBytes s.params) :
    consumeOp tid nb cap s = s.withResp tid (.ok []) :=
  (if_neg (not_not.mpr idle)).trans (if_pos small)

variable (idle : s.tsOf tid = .idle) (room : batchBytes s.params ≤ cap.toNat)
include idle room

/-- An idle thread's read with room for a batch is of the FIFO as it stands, empty or not. -/
theorem consumeOp_empty (empty : s.fifo.head = s.fifo.tail) : consumeOp tid nb cap s =
    if s.fifo.ovr = true then reportOverrun tid s
    else if nb = true then s.withResp tid (.err .eagain)
    else (s.withFifo { s.fifo with waiters := s.fifo.waiters + 1 }).withTs tid (.blocked cap.toNat) :=
  (if_neg (not_not.mpr idle)).trans ((if_neg (not_lt.mpr room)).trans (if_pos (s.fifo.isEmpty_iff.mpr empty)))

theorem consumeOp_held (held : s.fifo.head ≠ s.fifo.tail) :
    consumeOp tid nb cap s = copyBatches tid cap.toNat s :=
  (if_neg (not_not.mpr idle)).trans
    ((if_neg (not_lt.mpr room)).trans (if_neg (ne_true_of_eq_false (Fifo.isEmpty_eq_false held))))

end

/-- Settles O44. -/
theorem consumeByBlockedThreadFaults : Obligations.ConsumeByBlockedThreadFaults := fun _ _ _ _ hs blocked => by
  rw [exec_consume hs, consumeOp_blocked blocked, raise_eq_faulted hs]

/-- Settles O45. -/
theorem smallReadReturnsNothing : Obligations.SmallReadReturnsNothing := fun _ _ _ _ hs idle small => by
  rw [exec_consume hs, consumeOp_small idle small]

/-- Settles O46, by OVR and then NB: the reader was idle and is again when its read reports the overrun. -/
theorem readOfEmptyFifo : Obligations.ReadOfEmptyFifo := by
  intro s t nb cap hs idle room empty
  rw [exec_consume hs, consumeOp_empty idle room empty]
  refine ⟨fun overrun => ?_, fun clear nonblocking => ?_, fun clear blocking => ?_⟩
  · rw [if_pos overrun]
    exact congrArg _ (State.withTs_eq_self idle)
  · rw [if_neg (ne_true_of_eq_false clear), if_pos nonblocking]
  · rw [if_neg (ne_true_of_eq_false clear), if_neg (ne_true_of_eq_false blocking)]
    rfl

/-- Settles O47, by the entry fresh or stale: the reader was idle and is again when its batch is delivered. -/
theorem readDeliversBatch : Obligations.ReadDeliversBatch := by
  intro s t nb cap e hs idle room held hslot
  rw [exec_consume hs, consumeOp_held idle room held]
  refine ⟨fun hgen hvalid => ?_, fun stale => ?_⟩
  · rw [copyBatches_fresh held room hslot ⟨hgen, hvalid⟩]
    exact congrArg _ (State.withTs_eq_self idle)
  · rw [copyBatches_stale held room hslot fun ⟨hgen, hvalid⟩ => ?_, raise_eq_faulted hs]
    exact stale.elim (· hgen) (ne_false_of_eq_true hvalid)

/-! ### WAKE and SIGINTR (R270, R274) -/

section
variable {s : State} {tid : Tid} {cap : Nat} (blocked : s.tsOf tid = .blocked cap)
include blocked

theorem exec_wake (hs : s.fault = none) (hsem : 0 < s.fifo.sem) : exec (.wake tid) s = .next (wakeOp tid s) :=
  agentStep_enabled hs (by simp [wakeEnabled, blocked, hsem, ThreadState.isBlocked])

theorem exec_sigintr (hs : s.fault = none) : exec (.sigintr tid) s = .next (sigintrOp tid s) :=
  agentStep_enabled hs (by simp [sigintrEnabled, blocked, ThreadState.isBlocked])

end

/-- The state with one unit of the signal taken and the waiter no longer counted. -/
def signalTaken (s : State) : State :=
  s.withFifo { s.fifo with sem := s.fifo.sem - 1, waiters := s.fifo.waiters - 1 }

section
variable {s : State} {tid : Tid}

theorem wakeOp_held {cap : Nat} (blocked : s.tsOf tid = .blocked cap) (held : s.fifo.head ≠ s.fifo.tail) :
    wakeOp tid s = copyBatches tid cap (signalTaken s) := by
  rw [wakeOp, blocked]
  exact if_pos (Fifo.isEmpty_eq_false held)

variable (empty : s.fifo.head = s.fifo.tail)
include empty

theorem wakeOp_overrun (overrun : s.fifo.ovr = true) : wakeOp tid s = reportOverrun tid (signalTaken s) :=
  (if_neg (ne_false_of_eq_true (s.fifo.isEmpty_iff.mpr empty))).trans (if_pos overrun)

/-- The wait goes on: the waiter is counted again. -/
theorem wakeOp_waits (clear : s.fifo.ovr = false) (counted : 0 < s.fifo.waiters) :
    wakeOp tid s = s.withFifo { s.fifo with sem := s.fifo.sem - 1 } := by
  have again : s.fifo.waiters - 1 + 1 = s.fifo.waiters := Nat.sub_add_cancel counted
  refine (if_neg (ne_false_of_eq_true (s.fifo.isEmpty_iff.mpr empty))).trans
    ((if_neg (ne_true_of_eq_false clear)).trans ?_)
  simp [State.withFifo, again]

end

/-- Settles O50, by the FIFO empty without overrun, empty with it, or holding an entry. -/
theorem wakeEndsOrResumesWait : Obligations.WakeEndsOrResumesWait := by
  intro s t cap hs blocked hsem counted
  rw [exec_wake blocked hs hsem]
  refine ⟨fun empty clear => ?waits, fun empty overrun => ?overrun, fun e held hslot room => ?entry⟩
  case waits => exact congrArg _ (wakeOp_waits empty clear counted)
  case overrun => exact congrArg _ (wakeOp_overrun empty overrun)
  case entry =>
    rw [wakeOp_held blocked held]
    refine ⟨fun fresh => ?_, fun stale => ?_⟩
    · exact congrArg _ (copyBatches_fresh (s := signalTaken s) held room hslot fresh)
    · rw [copyBatches_stale (s := signalTaken s) held room hslot stale]
      exact congrArg _ (raise_eq_faulted (s := signalTaken s) hs)

/-- Settles O51: SIGINTR has one case. -/
theorem sigintrInterruptsWait : Obligations.SigintrInterruptsWait :=
  fun _ _ _ hs blocked _ => exec_sigintr blocked hs

/-! ### FIFORST and the read after it (R278, R279) -/

/-- The state with all pending batches discarded. -/
def discarded (s : State) : State :=
  s.withFifo { s.fifo with head := s.fifo.tail, ovr := s.fifo.ovr && !s.params.resetClearsOverrun }

theorem fiforstOp_eq (s : State) : fiforstOp s = discarded s := by
  rw [fiforstOp, discarded]
  cases s.params.resetClearsOverrun <;> simp

theorem exec_fiforst {s : State} (hs : s.fault = none) : exec .fiforst s = .next (done (discarded s)) :=
  hostCommand_done hs hs (fiforstOp_eq s)

/-- Settles O52. -/
theorem fiforstEmptiesFifo : Obligations.FiforstEmptiesFifo := ⟨rfl, fun _ hs => exec_fiforst hs⟩

theorem execAll_pair {i j : Instr} {s t u : State} (hi : exec i s = .next t) (hj : exec j t = .next u) :
    execAll [i, j] s = .next u := by
  simp only [execAll, hi, hj]

/-- Settles O53: FIFORST leaves the FIFO empty, so the read is that of O46, by the overrun kept or not. -/
theorem readAfterFiforst : Obligations.ReadAfterFiforst := by
  intro s t cap hs idle room
  obtain ⟨overrun, wouldBlock, -⟩ := readOfEmptyFifo (done (discarded s)) t true cap hs idle room rfl
  have kept_iff : (done (discarded s)).fifo.ovr = true ↔ s.fifo.ovr = true ∧ s.params.resetClearsOverrun = false := by
    simp [done, discarded]
  by_cases kept : (done (discarded s)).fifo.ovr = true
  · refine ⟨_, execAll_pair (exec_fiforst hs) (overrun kept), ?_⟩
    rw [if_pos (kept_iff.mp kept), State.respOf_withResp_self]
  · refine ⟨_, execAll_pair (exec_fiforst hs) (wouldBlock (eq_false_of_ne_true kept) rfl), ?_⟩
    rw [if_neg (mt kept_iff.mpr kept), State.respOf_withResp_self]

/-! ### No read is partial (R263) -/

/-- The operation leaves the threads and their results. -/
def KeepsReaders (op : State → State) : Prop := ∀ s, (op s).readers = s.readers

section
variable {op : State → State}

theorem KeepsReaders.andThen {f : State → State} (hop : KeepsReaders op) (hf : KeepsReaders f) :
    KeepsReaders fun s => andThen (op s) f := by
  intro s
  rcases andThen_cases (op s) f with ⟨-, e⟩ | ⟨-, e⟩ <;> simp only [e]
  · rw [hf, hop]
  · exact hop s

theorem KeepsReaders.withHandle (w : Word) (hop : KeepsReaders op) : KeepsReaders (withHandle w op) := by
  intro s
  rcases withHandle_cases w op s with ⟨-, e⟩ | ⟨-, e⟩ <;> rw [e]
  · exact hop s
  · rfl

theorem KeepsReaders.runOps {fs : List (State → State)} (h : ∀ f ∈ fs, KeepsReaders f) : KeepsReaders (runOps fs) :=
  fun s => runOps_keeps (P := fun u => u.readers = s.readers) (fun f hf u hu => (h f hf u).trans hu) rfl

end

/-! The operations that deliver no result. -/

theorem fxresetOp_keepsReaders : KeepsReaders fxresetOp := .withHandle _ fun _ => rfl

theorem setshiftOp_keepsReaders : KeepsReaders setshiftOp := .withHandle _ fun _ => by dsimp only; split <;> rfl

theorem settimaOp_keepsReaders (val : BitVec 16) : KeepsReaders (settimaOp val) :=
  .withHandle _ fun _ => by dsimp only; split <;> rfl

theorem settimbOp_keepsReaders (val : BitVec 16) : KeepsReaders (settimbOp val) :=
  .withHandle _ fun _ => by dsimp only; split <;> rfl

theorem sdmaenOp_keepsReaders : KeepsReaders sdmaenOp := .withHandle _ fun _ => rfl

theorem sclrOp_keepsReaders : KeepsReaders sclrOp := .withHandle _ fun _ => rfl

theorem fxenableOp_keepsReaders : KeepsReaders fxenableOp := .withHandle _ fun _ => by dsimp only; split <;> rfl

theorem fxdisableOp_keepsReaders : KeepsReaders fxdisableOp := .withHandle _ fun _ => rfl

theorem dallocOp_keepsReaders : KeepsReaders dallocOp := by
  intro s
  unfold dallocOp
  dsimp only
  split
  · rfl
  · split <;> rfl

theorem dsetupOp_keepsReaders : KeepsReaders dsetupOp := by
  intro s
  unfold dsetupOp
  split
  · rfl
  · split <;> rfl

theorem dstartOp_keepsReaders : KeepsReaders dstartOp := by
  intro s
  unfold dstartOp
  split <;> rfl

theorem dstopOp_keepsReaders : KeepsReaders dstopOp := fun _ => rfl

theorem dfreeOp_keepsReaders : KeepsReaders dfreeOp := by
  intro s
  unfold dfreeOp
  split <;> rfl

theorem cacheInvalidate_keepsReaders : KeepsReaders cacheInvalidate := fun _ => rfl

theorem initSequence_keepsReaders (p : Params) : ∀ f ∈ initSequence p, KeepsReaders f := by
  simp only [initSequence, List.forall_mem_cons, List.not_mem_nil, false_imp_iff, implies_true, and_true]
  exact ⟨fxresetOp_keepsReaders, setshiftOp_keepsReaders, settimaOp_keepsReaders _, settimbOp_keepsReaders _,
    dallocOp_keepsReaders, cacheInvalidate_keepsReaders, dsetupOp_keepsReaders, dstartOp_keepsReaders,
    sdmaenOp_keepsReaders, sclrOp_keepsReaders, fxenableOp_keepsReaders⟩

theorem initOp_keepsReaders : KeepsReaders initOp := by
  intro s
  unfold initOp
  split
  · rfl
  split
  · rfl
  · exact KeepsReaders.runOps (initSequence_keepsReaders s.params) s

theorem startOp_keepsReaders : KeepsReaders startOp := initOp_keepsReaders.andThen fun _ => rfl

theorem stopOp_keepsReaders : KeepsReaders stopOp := by
  refine .runOps ?_
  simp only [List.forall_mem_cons, List.not_mem_nil, false_imp_iff, implies_true, and_true]
  exact ⟨fxdisableOp_keepsReaders, dstopOp_keepsReaders, dfreeOp_keepsReaders⟩

theorem shiftwordOp_keepsReaders (v : Word) : KeepsReaders (shiftwordOp v) := by
  intro s
  unfold shiftwordOp
  split <;> rfl

theorem beatTransfer_keepsReaders : KeepsReaders beatTransfer := by
  intro s
  rcases busRead_cases s s.dma.tcd.saddr with ⟨-, e⟩ | ⟨-, e⟩ <;> rw [beatTransfer, e] <;> dsimp only <;> split <;> rfl

theorem dmabeatOp_keepsReaders : KeepsReaders dmabeatOp := fun s =>
  (dmabeatOp_sameButEvents s).readers.trans (beatTransfer_keepsReaders s)

theorem decodeOp_keepsReaders (h : Half) : KeepsReaders (decodeOp h) := by
  intro s
  unfold decodeOp
  split
  · rfl
  · exact decodeHalf_readers h s

theorem produceOp_keepsReaders (h : Half) : KeepsReaders (produceOp h) := fun _ => rfl

theorem cmplOp_keepsReaders (hc : Half) : KeepsReaders (cmplOp hc) := by
  intro s
  cases hw : s.track.wse[hc]
  · rw [cmplOp_decodes hw]
    exact (produceOp_readers hc _).trans (decodeHalf_readers hc _)
  · rw [cmplOp_late hw]
    rfl

theorem fiforstOp_keepsReaders : KeepsReaders fiforstOp := fun _ => rfl

/-! The results that a step delivers. -/

/-- The result is no batch in part: OK with no byte or exactly one batch, or no OK result. -/
def Result.whole (p : Params) : Result → Prop
  | .ok bytes => bytes = [] ∨ bytes.length = batchBytes p
  | .err _ => True
  | .addr _ => True

/-- Every result of `u` is one of `s` or a whole one. -/
def DeliversWhole (s u : State) : Prop :=
  ∀ t, u.respOf t = s.respOf t ∨ ∃ r, u.respOf t = some r ∧ r.whole s.params

section
variable {s u : State} {op : State → State}

theorem DeliversWhole.of_readers (h : u.readers = s.readers) : DeliversWhole s u :=
  fun t => .inl (by rw [State.respOf, State.respOf, h])

/-- A step that ends one thread's read with a whole result delivers that result alone. -/
theorem DeliversWhole.of_resp {tid : Tid} {r : Result} (hr : r.whole s.params)
    (h : u.readers.resp = s.readers.resp.set tid (some r)) : DeliversWhole s u := by
  intro t
  have hresp : u.respOf t = (s.withResp tid r).respOf t := by rw [State.respOf, h]; rfl
  rw [hresp, State.respOf_withResp]
  split
  · exact .inr ⟨r, rfl, hr⟩
  · exact .inl rfl

theorem DeliversWhole.hostCommand (hop : KeepsReaders op) (h : hostCommand op s = .next u) : DeliversWhole s u := by
  obtain ⟨-, ⟨-, rfl⟩ | ⟨-, rfl⟩⟩ := hostCommand_next h
  · refine .of_resp (tid := hostTid) (r := .ok []) (.inl rfl) ?_
    rw [respondOk_eq, State.withResp_readers, hop]
  · exact .of_readers (hop s)

theorem DeliversWhole.agentStep {en : State → Bool} (hop : DeliversWhole s (op s))
    (h : agentStep en op s = .next u) : DeliversWhole s u := by
  obtain ⟨-, ⟨-, rfl⟩ | ⟨-, rfl⟩⟩ := agentStep_next h
  · exact hop
  · exact .of_readers rfl

theorem KeepsReaders.deliversWhole (hop : KeepsReaders op) (s : State) : DeliversWhole s (op s) := .of_readers (hop s)

end

section
variable (s : State) (tid : Tid)

theorem getbuf_deliversWhole (w : Word) :
    DeliversWhole s (withHandle w (fun s => s.withResp hostTid (.addr s.params.shiftBufBisAddr)) s) := by
  rcases withHandle_cases w (fun s => s.withResp hostTid (.addr s.params.shiftBufBisAddr)) s with ⟨-, e⟩ | ⟨-, e⟩ <;>
    rw [e]
  · exact .of_resp (r := .addr _) trivial rfl
  · exact .of_readers rfl

theorem copyBatches_deliversWhole (cap : Nat) : DeliversWhole s (copyBatches tid cap s) := by
  rcases copyBatches_cases tid cap s with ⟨-, e⟩ | ⟨entry, -, -, -, ⟨-, e⟩ | ⟨-, e⟩⟩ <;> rw [e]
  · exact .of_resp (r := .ok []) (.inl rfl) rfl
  · exact .of_readers rfl
  · exact .of_resp (r := .ok (batchOf s entry)) (.inr (batchOf_length s entry)) rfl

theorem reportOverrun_deliversWhole : DeliversWhole s (reportOverrun tid s) := .of_resp (r := .err .eio) trivial rfl

theorem consumeOp_deliversWhole (nb : Bool) (cap : BitVec 16) : DeliversWhole s (consumeOp tid nb cap s) := by
  unfold consumeOp
  split
  · exact .of_readers rfl
  split
  · exact .of_resp (r := .ok []) (.inl rfl) rfl
  split
  · split
    · exact reportOverrun_deliversWhole s tid
    split
    · exact .of_resp (r := .err .eagain) trivial rfl
    · exact fun _ => .inl rfl
  · exact copyBatches_deliversWhole s tid _

theorem wakeOp_deliversWhole : DeliversWhole s (wakeOp tid s) := by
  unfold wakeOp
  dsimp only
  split
  · exact copyBatches_deliversWhole (signalTaken s) tid _
  split
  · exact reportOverrun_deliversWhole (signalTaken s) tid
  · exact .of_readers rfl

theorem sigintrOp_deliversWhole : DeliversWhole s (sigintrOp tid s) := .of_resp (r := .err .eintr) trivial rfl

end

/-- Every instruction delivers whole results: a command its own OK with no byte, a read what COPY makes of it. -/
theorem exec_deliversWhole {i : Instr} {s u : State} (h : exec i s = .next u) : DeliversWhole s u := by
  cases i with
  | fxreset => exact .hostCommand fxresetOp_keepsReaders h
  | setshift => exact .hostCommand setshiftOp_keepsReaders h
  | settima val => exact .hostCommand (settimaOp_keepsReaders val) h
  | settimb val => exact .hostCommand (settimbOp_keepsReaders val) h
  | sdmaen => exact .hostCommand sdmaenOp_keepsReaders h
  | sclr => exact .hostCommand sclrOp_keepsReaders h
  | fxenable => exact .hostCommand fxenableOp_keepsReaders h
  | getbuf =>
    obtain ⟨-, rfl⟩ := whenLive_next h
    exact getbuf_deliversWhole s _
  | fxdisable => exact .hostCommand fxdisableOp_keepsReaders h
  | dalloc => exact .hostCommand dallocOp_keepsReaders h
  | dsetup => exact .hostCommand dsetupOp_keepsReaders h
  | dstart => exact .hostCommand dstartOp_keepsReaders h
  | dstop => exact .hostCommand dstopOp_keepsReaders h
  | dfree => exact .hostCommand dfreeOp_keepsReaders h
  | cinv => exact .hostCommand cacheInvalidate_keepsReaders h
  | init => exact .hostCommand initOp_keepsReaders h
  | start => exact .hostCommand startOp_keepsReaders h
  | stop => exact .hostCommand stopOp_keepsReaders h
  | decode half => exact .hostCommand (decodeOp_keepsReaders half) h
  | consume tid nb cap =>
    obtain ⟨-, rfl⟩ := whenLive_next h
    exact consumeOp_deliversWhole s tid nb cap
  | fiforst => exact .hostCommand fiforstOp_keepsReaders h
  | shiftword v => exact .agentStep ((shiftwordOp_keepsReaders v).deliversWhole s) h
  | dmabeat => exact .agentStep (dmabeatOp_keepsReaders.deliversWhole s) h
  | cmpl hc => exact .agentStep ((cmplOp_keepsReaders hc).deliversWhole s) h
  | produce half => exact .agentStep ((produceOp_keepsReaders half).deliversWhole s) h
  | wake tid => exact .agentStep (wakeOp_deliversWhole s tid) h
  | sigintr tid => exact .agentStep (sigintrOp_deliversWhole s tid) h

/-- Settles O49: a result newly delivered is a whole one. -/
theorem readNeverPartial : Obligations.ReadNeverPartial := by
  intro i s u t bytes h hnew hok
  rcases exec_deliversWhole h t with kept | ⟨r, hr, hwhole⟩
  · exact absurd kept hnew
  · obtain rfl : r = .ok bytes := Option.some.inj (hr.symm.trans hok)
    exact hwhole

end Sys2Proof.Machine
end

section
/-! Proofs of the family 60_exceptions: a fault stops the machine, and a blocked reader with a signal posted is followed
by a WAKE (spec/60_exceptions.md R292, R321). -/

namespace Sys2Proof.Machine

/-! ### After a fault (R292) -/

section
variable {s : State} {r : FaultRecord}

theorem hostCommand_halted {op : State → State} (hr : s.fault = some r) : hostCommand op s = .fault (.halted r) :=
  whenLive_halted hr

theorem agentStep_halted {en : State → Bool} {op : State → State} (hr : s.fault = some r) :
    agentStep en op s = .fault (.halted r) := whenLive_halted hr

/-- Every arm of the dispatch tests FAULT before its operation. -/
theorem exec_halted (hr : s.fault = some r) (i : Instr) : exec i s = .fault (.halted r) := by
  cases i with
  | getbuf | consume => exact whenLive_halted hr
  | shiftword | dmabeat | cmpl | produce | wake | sigintr => exact agentStep_halted hr
  | _ => exact hostCommand_halted hr

theorem step_halted (hp : launchRefusal s.params = none) (hr : s.fault = some r) : step s = .fault (.halted r) := by
  simp [step, hp, hr]

theorem not_atRest_of_fault (hr : s.fault = some r) : ¬ atRest s := by
  rintro ⟨hnone, -⟩
  cases hr.symm.trans hnone

end

/-- Settles O8: both forms of the end of a run ask for a state at rest, which has no fault. -/
theorem faultIsTerminal : Obligations.FaultIsTerminal := fun _ _ hr =>
  ⟨exec_halted hr, fun hp => step_halted hp hr, fun ⟨rest, _⟩ => not_atRest_of_fault hr rest,
    fun _ _ hrun ⟨rest, _⟩ => not_atRest_of_fault hr (hrun ▸ rest)⟩

/-! ### What keeps a WAKE enabled: the thread blocked and the signal posted (R270, R271) -/

theorem wakeEnabled_iff {t : Tid} {s : State} :
    wakeEnabled t s = true ↔ (s.tsOf t).isBlocked = true ∧ 0 < s.fifo.sem := by simp [wakeEnabled]

/-- A step that leaves the thread and takes no unit of the signal leaves its WAKE enabled. -/
theorem wakeEnabled_mono {t : Tid} {s u : State} (hts : u.tsOf t = s.tsOf t) (hsem : s.fifo.sem ≤ u.fifo.sem)
    (hw : wakeEnabled t s = true) : wakeEnabled t u = true := by
  rw [wakeEnabled_iff] at hw ⊢
  obtain ⟨hb, hpos⟩ := hw
  exact ⟨hts ▸ hb, hpos.trans_le hsem⟩

/-- The operation leaves the WAKE of `t` enabled. -/
def KeepsWake (t : Tid) (op : State → State) : Prop := ∀ s, wakeEnabled t s = true → wakeEnabled t (op s) = true

/-! The shared shapes keep it if the operation inside does. -/

section
variable {t : Tid} {op : State → State} {s u : State}

theorem KeepsWake.andThen {f : State → State} (hop : KeepsWake t op) (hf : KeepsWake t f) :
    KeepsWake t fun s => andThen (op s) f := by
  intro s hw
  rcases andThen_cases (op s) f with ⟨-, e⟩ | ⟨-, e⟩ <;> simp only [e]
  · exact hf _ (hop s hw)
  · exact hop s hw

theorem KeepsWake.withHandle (w : Word) (hop : KeepsWake t op) : KeepsWake t (withHandle w op) := by
  intro s hw
  rcases withHandle_cases w op s with ⟨-, e⟩ | ⟨-, e⟩ <;> rw [e]
  · exact hop s hw
  · exact hw

theorem KeepsWake.runOps {fs : List (State → State)} (h : ∀ f ∈ fs, KeepsWake t f) : KeepsWake t (runOps fs) :=
  fun _ => runOps_keeps h

theorem KeepsWake.whenLive (hop : KeepsWake t op) (h : whenLive s op = .next u) (hw : wakeEnabled t s = true) :
    wakeEnabled t u = true := by
  obtain ⟨-, rfl⟩ := whenLive_next h
  exact hop s hw

theorem KeepsWake.hostCommand (hop : KeepsWake t op) (h : hostCommand op s = .next u) :
    wakeEnabled t s = true → wakeEnabled t u = true :=
  (hop.andThen (f := respondOk) fun _ hw => hw).whenLive h

theorem KeepsWake.agentStep {en : State → Bool} (hop : KeepsWake t op) (h : agentStep en op s = .next u)
    (hw : wakeEnabled t s = true) : wakeEnabled t u = true := by
  obtain ⟨-, ⟨-, rfl⟩ | ⟨-, rfl⟩⟩ := agentStep_next h
  · exact hop s hw
  · exact hw

end

/-! The peripheral's and the channel's operations, which write no part that a wait reads. -/

section
variable (t : Tid)

theorem fxresetOp_keepsWake : KeepsWake t fxresetOp := .withHandle _ fun _ hw => hw

theorem setshiftOp_keepsWake : KeepsWake t setshiftOp := .withHandle _ fun _ hw => by dsimp only; split <;> exact hw

theorem settimaOp_keepsWake (val : BitVec 16) : KeepsWake t (settimaOp val) :=
  .withHandle _ fun _ hw => by dsimp only; split <;> exact hw

theorem settimbOp_keepsWake (val : BitVec 16) : KeepsWake t (settimbOp val) :=
  .withHandle _ fun _ hw => by dsimp only; split <;> exact hw

theorem sdmaenOp_keepsWake : KeepsWake t sdmaenOp := .withHandle _ fun _ hw => hw

theorem sclrOp_keepsWake : KeepsWake t sclrOp := .withHandle _ fun _ hw => hw

theorem fxenableOp_keepsWake : KeepsWake t fxenableOp := .withHandle _ fun _ hw => by dsimp only; split <;> exact hw

theorem fxdisableOp_keepsWake : KeepsWake t fxdisableOp := .withHandle _ fun _ hw => hw

theorem dallocOp_keepsWake : KeepsWake t dallocOp := by
  intro s hw
  unfold dallocOp
  dsimp only
  split
  · exact hw
  · split <;> exact hw

theorem cacheInvalidate_keepsWake : KeepsWake t cacheInvalidate := fun _ hw => hw

theorem dsetupOp_keepsWake : KeepsWake t dsetupOp := by
  intro s hw
  unfold dsetupOp
  split
  · exact hw
  · split <;> exact hw

theorem dstartOp_keepsWake : KeepsWake t dstartOp := by
  intro s hw
  unfold dstartOp
  split <;> exact hw

theorem dstopOp_keepsWake : KeepsWake t dstopOp := fun _ hw => hw

theorem dfreeOp_keepsWake : KeepsWake t dfreeOp := by
  intro s hw
  unfold dfreeOp
  split <;> exact hw

/-! The composite commands, from their sub-commands; START's own writes leave SEM (R148). -/

theorem initSequence_keepsWake (p : Params) : ∀ f ∈ initSequence p, KeepsWake t f := by
  simp only [initSequence, List.forall_mem_cons]
  exact ⟨fxresetOp_keepsWake t, setshiftOp_keepsWake t, settimaOp_keepsWake t _, settimbOp_keepsWake t _,
    dallocOp_keepsWake t, cacheInvalidate_keepsWake t, dsetupOp_keepsWake t, dstartOp_keepsWake t, sdmaenOp_keepsWake t,
    sclrOp_keepsWake t, fxenableOp_keepsWake t, List.forall_mem_nil _⟩

theorem initOp_keepsWake : KeepsWake t initOp := by
  intro s hw
  unfold initOp
  split
  · exact hw
  split
  · exact hw
  · exact KeepsWake.runOps (initSequence_keepsWake t s.params) s hw

theorem startOp_keepsWake : KeepsWake t startOp := (initOp_keepsWake t).andThen fun _ hw => hw

theorem stopOp_keepsWake : KeepsWake t stopOp := by
  refine .runOps ?_
  simp only [List.forall_mem_cons]
  exact ⟨fxdisableOp_keepsWake t, dstopOp_keepsWake t, dfreeOp_keepsWake t, List.forall_mem_nil _⟩

/-! Capture, decoding and the hand-off, which may post a further signal (R251). -/

theorem shiftwordOp_keepsWake (v : Word) : KeepsWake t (shiftwordOp v) := by
  intro s hw
  unfold shiftwordOp
  split <;> exact hw

theorem beatTransfer_keepsWake : KeepsWake t beatTransfer := by
  intro s hw
  unfold beatTransfer
  rcases busRead_cases s s.dma.tcd.saddr with ⟨-, e⟩ | ⟨-, e⟩ <;> rw [e]
  all_goals
    dsimp only
    split <;> exact hw

theorem dmabeatOp_keepsWake : KeepsWake t dmabeatOp := fun s hw =>
  have same := dmabeatOp_sameButEvents s
  wakeEnabled_mono (congrArg (·.ts[t]) same.readers) (congrArg Fifo.sem same.fifo).ge (beatTransfer_keepsWake t s hw)

theorem decodeHalf_keepsWake (half : Half) : KeepsWake t (decodeHalf half) := fun _ hw => hw

theorem decodeOp_keepsWake (half : Half) : KeepsWake t (decodeOp half) := by
  intro s hw
  unfold decodeOp
  split
  · exact hw
  · exact decodeHalf_keepsWake t half s hw

theorem Fifo.sem_le_offer (f : Fifo) (e : Entry) : f.sem ≤ (f.offer e).1.sem := by
  rcases f.offer_cases e with ⟨-, h⟩ | ⟨-, h⟩ <;> rw [h]
  dsimp only
  split <;> omega

theorem produceOp_keepsWake (half : Half) : KeepsWake t (produceOp half) :=
  fun s => wakeEnabled_mono rfl (s.fifo.sem_le_offer _)

theorem cmplOp_keepsWake (hc : Half) : KeepsWake t (cmplOp hc) := by
  intro s hw
  cases hwse : s.track.wse[hc]
  · rw [cmplOp_decodes hwse]
    exact produceOp_keepsWake t hc _ (decodeHalf_keepsWake t hc _ hw)
  · rw [cmplOp_late hwse]
    exact hw

theorem getbuf_keepsWake : KeepsWake t
    (withHandle Instr.getbuf.word fun s => s.withResp hostTid (.addr s.params.shiftBufBisAddr)) :=
  .withHandle _ fun _ hw => hw

/-! The read port: another thread's read, or the end of its wait, leaves the signal and this thread. -/

theorem fiforstOp_keepsWake : KeepsWake t fiforstOp := fun _ hw => hw

variable {t} {tid : Tid} (other : tid ≠ t)
include other

theorem KeepsWake.withTs (x : ThreadState) : KeepsWake t (·.withTs tid x) :=
  fun s => wakeEnabled_mono (by rw [State.tsOf_withTs, if_neg other]) le_rfl

theorem reportOverrun_keepsWake : KeepsWake t (reportOverrun tid) := fun _ hw => KeepsWake.withTs other _ _ hw

theorem copyBatches_keepsWake (cap : Nat) : KeepsWake t (copyBatches tid cap) := by
  intro s hw
  rcases copyBatches_cases tid cap s with ⟨-, e⟩ | ⟨_, -, -, -, ⟨-, e⟩ | ⟨-, e⟩⟩ <;> rw [e]
  · exact KeepsWake.withTs other _ _ hw
  · exact hw
  · exact KeepsWake.withTs other _ _ hw

theorem sigintrOp_keepsWake : KeepsWake t (sigintrOp tid) := fun _ hw => KeepsWake.withTs other _ _ hw

end

/-- A read of the blocked thread itself is a fault, which leaves its wait (R255). -/
theorem consumeOp_keepsWake (t tid : Tid) (nb : Bool) (cap : BitVec 16) : KeepsWake t (consumeOp tid nb cap) := by
  intro s hw
  by_cases other : tid = t
  · subst other
    rw [consumeOp_blocked fun idle => by simp [wakeEnabled, idle, ThreadState.isBlocked] at hw]
    exact hw
  unfold consumeOp
  split
  · exact hw
  split
  · exact hw
  split
  · split
    · exact reportOverrun_keepsWake other s hw
    split
    · exact hw
    · exact KeepsWake.withTs other _ _ hw
  · exact copyBatches_keepsWake other _ s hw

/-- A reader's WAKE stays enabled through every instruction but a WAKE that is taken and the reader's own SIGINTR. -/
theorem exec_keepsWake {t : Tid} {i : Instr} {s u : State}
    (hwake : ∀ tid, i = .wake tid → ¬ wakeEnabled tid s = true) (hsigintr : i ≠ .sigintr t)
    (h : exec i s = .next u) : wakeEnabled t s = true → wakeEnabled t u = true := by
  cases i with
  | fxreset => exact (fxresetOp_keepsWake t).hostCommand h
  | setshift => exact (setshiftOp_keepsWake t).hostCommand h
  | settima val => exact (settimaOp_keepsWake t val).hostCommand h
  | settimb val => exact (settimbOp_keepsWake t val).hostCommand h
  | sdmaen => exact (sdmaenOp_keepsWake t).hostCommand h
  | sclr => exact (sclrOp_keepsWake t).hostCommand h
  | fxenable => exact (fxenableOp_keepsWake t).hostCommand h
  | getbuf => exact (getbuf_keepsWake t).whenLive h
  | fxdisable => exact (fxdisableOp_keepsWake t).hostCommand h
  | dalloc => exact (dallocOp_keepsWake t).hostCommand h
  | dsetup => exact (dsetupOp_keepsWake t).hostCommand h
  | dstart => exact (dstartOp_keepsWake t).hostCommand h
  | dstop => exact (dstopOp_keepsWake t).hostCommand h
  | dfree => exact (dfreeOp_keepsWake t).hostCommand h
  | cinv => exact (cacheInvalidate_keepsWake t).hostCommand h
  | init => exact (initOp_keepsWake t).hostCommand h
  | start => exact (startOp_keepsWake t).hostCommand h
  | stop => exact (stopOp_keepsWake t).hostCommand h
  | decode half => exact (decodeOp_keepsWake t half).hostCommand h
  | consume tid nb cap => exact (consumeOp_keepsWake t tid nb cap).whenLive h
  | fiforst => exact (fiforstOp_keepsWake t).hostCommand h
  | shiftword v => exact (shiftwordOp_keepsWake t v).agentStep h
  | dmabeat => exact (dmabeatOp_keepsWake t).agentStep h
  | cmpl hc => exact (cmplOp_keepsWake t hc).agentStep h
  | produce half => exact (produceOp_keepsWake t half).agentStep h
  | wake tid =>
    obtain ⟨-, ⟨he, -⟩ | ⟨-, rfl⟩⟩ := agentStep_next h
    · exact absurd he (hwake tid rfl)
    · exact id
  | sigintr tid => exact (sigintrOp_keepsWake (ne_of_apply_ne Instr.sigintr hsigintr)).agentStep h

/-! ### A turn of a run (R83, R321) -/

theorem fetch_of_no_event {s : State} {w v : Word} {rest : List Turn} {r : Reject} (hs : s.sched = .event w v :: rest)
    (hd : decodeEvent w v = .error r) : fetch s = .refuse (.notAnEvent w) := by
  simp only [fetch, hs, hd]

/-- A turn taken is idle, an illegal word recorded, or an instruction run, which the turn presents if it is an
agent's step. -/
theorem takeTurn_cases {x : Option Turn} {s u : State} (h : takeTurn x s = .next u) :
    u = s.withSched [] ∨ u.fault ≠ none ∨
      ∃ i, exec i (s.withSched []) = .next u ∧
        (i.channel = .agent → ∃ w v, x = some (.event w v) ∧ decodeEvent w v = .ok i) := by
  obtain ⟨hp, hf, -⟩ := step_cases h
  match x with
  | none =>
    rw [takeTurn_none (s := s) hp hf] at h
    exact .inl (Host.Outcome.next.inj h).symm
  | some (.command w) =>
    cases hd : decodePort w with
    | error _ =>
      rw [takeTurn, step_of_fetch_done hp hf (fetch_of_rejected rfl hd)] at h
      exact .inr (.inl (Host.Outcome.next.inj h ▸ raise_fault_ne_none _ _))
    | ok i =>
      rw [takeTurn, step_of_fetch_instr hp hf (fetch_of_command rfl hd)] at h
      obtain ⟨port, -⟩ := decodeHost_eq_ok (decodePort_eq_ok_iff.mp hd)
      exact .inr (.inr ⟨i, h, fun agent => nomatch port.symm.trans agent⟩)
  | some (.event w v) =>
    cases hd : decodeEvent w v with
    | error _ =>
      rw [takeTurn, step_live hp hf, fetch_of_no_event rfl hd] at h
      cases h
    | ok i =>
      rw [takeTurn, step_of_fetch_instr hp hf (fetch_of_event rfl hd)] at h
      exact .inr (.inr ⟨i, h, fun _ => ⟨w, v, rfl, hd⟩⟩)

/-- Through a turn at which no WAKE is taken, the thread is not interrupted and no fault is recorded, its WAKE stays
enabled: no command of the port is a WAKE or a SIGINTR. -/
theorem Run.wake_stays_enabled {r : Run} {t : Tid} {m : Nat} (hwake : ∀ u, ¬ r.takes (.wake u) m)
    (hsigintr : ¬ r.presents m (.sigintr t)) (hlive : (r.state (m + 1)).fault = none)
    (he : (FairStep.wake t).enabled (r.state m)) : (FairStep.wake t).enabled (r.state (m + 1)) := by
  obtain ⟨hf, hw⟩ := he
  refine ⟨hlive, ?_⟩
  have hturn := (r.steps m).resolve_right fun ⟨faulted, _⟩ => faulted hf
  rcases takeTurn_cases hturn with idle | faults | ⟨i, hexec, presented⟩
  · rw [idle]
    exact hw
  · exact absurd hlive faults
  · refine exec_keepsWake ?wake ?sigintr hexec hw
    case wake =>
      rintro tid rfl hen
      exact hwake tid ⟨⟨hf, hen⟩, _, presented rfl, rfl⟩
    case sigintr =>
      rintro rfl
      exact hsigintr (presented rfl)

/-- Settles O60: if none of the three ends came, the WAKE of `t` would stay enabled for ever, by induction on the turns,
and fairness would take it. -/
theorem signalledReaderWakes : Obligations.SignalledReaderWakes := by
  intro r t n fair start
  by_contra never
  push Not at never
  have enabled (m : Nat) (hm : n ≤ m) : (FairStep.wake t).enabled (r.state m) := by
    induction m, hm using Nat.le_induction with
    | base => exact start
    | succ m hm ih =>
      obtain ⟨hwake, hsigintr, -⟩ := never m hm
      obtain ⟨-, -, hlive⟩ := never (m + 1) (hm.trans m.le_succ)
      exact r.wake_stays_enabled hwake hsigintr hlive ih
  obtain ⟨m, hm, taken⟩ := fair _ n enabled
  obtain ⟨hwake, -, -⟩ := never m hm
  exact hwake t taken

end Sys2Proof.Machine
end

section
/-! Proofs of the family 70_reset_and_hazards: what has a step at reset, and the bring-up by primitive commands
(spec/70_reset_and_hazards.md R332, R334). -/

namespace Sys2Proof.Machine

open Sys2Proof.Claims

/-! ### At reset (R332) -/

section
variable {s : State} (hs : s.fault = none)
include hs

theorem hostCommand_answers (op : State → State) : ∃ t, hostCommand op s = .next t := ⟨_, whenLive_live hs⟩

theorem agentStep_answers (en : State → Bool) (op : State → State) : ∃ t, agentStep en op s = .next t :=
  ⟨_, whenLive_live hs⟩

/-- Every arm of the dispatch answers a next state while no fault is recorded. -/
theorem exec_answers (i : Instr) : ∃ t, exec i s = .next t := by
  cases i with
  | getbuf | consume => exact ⟨_, whenLive_live hs⟩
  | shiftword | dmabeat | cmpl | produce | wake | sigintr => exact agentStep_answers hs _ _
  | _ => exact hostCommand_answers hs _

end

section
variable (p : Params) (tid : Tid)

theorem wakeEnabled_resetWith : wakeEnabled tid (State.resetWith p) = false := by
  simp [wakeEnabled, ThreadState.isBlocked]

theorem sigintrEnabled_resetWith : sigintrEnabled tid (State.resetWith p) = false := by
  simp [sigintrEnabled, ThreadState.isBlocked]

end

/-- Settles O11: the flags, EVQ and the hand-off are clear and every thread is idle; a CONSUME with room is O46's read
of an empty FIFO with OVR = 0. -/
theorem resetEnablesCommandsOnly : Obligations.ResetEnablesCommandsOnly := by
  intro p
  refine ⟨fun i _ => exec_answers rfl i, rfl, rfl, fun _ => ⟨rfl, rfl⟩,
    fun t => ⟨wakeEnabled_resetWith p t, sigintrEnabled_resetWith p t⟩, rfl, rfl, fun t cap room => ?_⟩
  have read (nb : Bool) := readOfEmptyFifo (State.resetWith p) t nb cap rfl (State.tsOf_resetWith p t) room rfl
  obtain ⟨-, nonblocking, -⟩ := read true
  obtain ⟨-, -, blocking⟩ := read false
  exact ⟨nonblocking rfl rfl, blocking rfl rfl⟩

/-! ### The bring-up by primitive commands (R334) -/

section
variable (s : State)

/-- A later result of the HOST replaces an earlier one. -/
@[simp] theorem done_withResp (r : Result) : done (s.withResp hostTid r) = done s := by
  simp [done, State.withResp, hostTid]

@[simp] theorem done_done : done (done s) = done s := done_withResp s _

@[simp] theorem done_withFx (x : Peripheral) : (done s).withFx x = done (s.withFx x) := rfl

@[simp] theorem done_withDma (d : Dma) : (done s).withDma d = done (s.withDma d) := rfl

@[simp] theorem withResp_withDma (tid : Tid) (r : Result) (d : Dma) :
    (s.withResp tid r).withDma d = (s.withDma d).withResp tid r := rfl

/-- The draw and the allocation it grants (R140) leave the HOST's result and the peripheral. -/
theorem allocated_done_withFx (x : Peripheral) :
    allocated (afterAllocDraw (done (s.withFx x))) = done ((allocated (afterAllocDraw s)).withFx x) := rfl

end

theorem execAll_cons_to {i : Instr} {is : List Instr} {s t : State} {x : Host.Outcome State Fault Refusal}
    (h : exec i s = .next t) (rest : execAll is t = x) : execAll (i :: is) s = x := by
  rw [execAll, h]
  exact rest

/-- A command whose operation reaches `t` without a fault is followed, with its result delivered, by the commands after
it. -/
theorem execAll_command {i : Instr} {is : List Instr} {op : State → State} {s t : State}
    {x : Host.Outcome State Fault Refusal} (hi : exec i s = hostCommand op s)
    (hs : s.fault = none) (h : op s = t) (ht : t.fault = none) (rest : execAll is (done t) = x) :
    execAll (i :: is) s = x :=
  execAll_cons_to (hi.trans (hostCommand_done hs ht h)) rest

section
variable {s : State} (hs : s.fault = none) (hp : s.params.handlePresent = true)
include hs hp

theorem exec_getbuf : exec .getbuf s = .next (s.withResp hostTid (.addr s.params.shiftBufBisAddr)) := by
  obtain ⟨-, answers⟩ := getbufReturnsAddress
  exact answers s hs hp

/-- FXRESET to SETTIMB, issued one by one, leave the peripheral configured, whatever it was. -/
theorem execAll_configure (is : List Instr) :
    execAll (.fxreset :: .setshift :: .settima s.params.timaCmp :: .settimb s.params.timbCmp :: is) s =
      execAll is (done (s.withFx (configuredFx s.params))) :=
  execAll_command rfl hs (fxresetOp_of_handle hp) hs <|
  execAll_command rfl hs (setshiftOp_stopped hp rfl) hs <|
  execAll_command rfl hs (settimaOp_stopped hp rfl) hs <|
  execAll_command rfl hs (settimbOp_stopped hp rfl) hs <| congrArg (execAll is) <| by
    simp only [done_withFx, done_done]
    rfl

/-- CINV to FXENABLE, issued one by one with the peripheral configured and a channel allocated, leave what INIT leaves:
the address that GETBUF delivers is replaced by the result of the next command. -/
theorem execAll_run (ha : s.dma.ch.alloc = true) (hq : s.dma.ch.erq = false) (hal : dmaAligned s.params = true) :
    execAll [.cinv, .getbuf, .dsetup, .dstart, .sdmaen, .sclr, .fxenable] (done (s.withFx (configuredFx s.params))) =
      .next (done (initDone s)) :=
  execAll_command (op := cacheInvalidate) (t := done (s.withFx _)) rfl hs rfl hs <|
  execAll_cons_to (exec_getbuf hs hp) <|
  execAll_command rfl hs (dsetupOp_programs ha hq hal) hs <|
  execAll_command rfl hs (dstartOp_programmed rfl) hs <|
  execAll_command rfl hs (sdmaenOp_of_handle hp) hs <|
  execAll_command rfl hs (sclrOp_of_handle hp) hs <|
  execAll_command rfl hs (fxenableOp_configured hp rfl) hs <| congrArg Host.Outcome.next <| by
    simp only [withResp_withDma, done_withFx, done_withDma, done_withResp, done_done]
    rfl

end

/-- Settles O28, by the channel held or granted: DALLOC finds the peripheral configured and leaves the rest to
`execAll_run`; INIT is O27's in the same case. -/
theorem primitiveBringUpEqualsInit : Obligations.PrimitiveBringUpEqualsInit := by
  intro s hs he hq hp hadm hch
  have hal := dmaAligned_of_admissible hadm
  rw [execAll_configure hs hp]
  cases ha : s.dma.ch.alloc with
  | true =>
    have init : exec .init s = .next (done (initDone s)) := hostCommand_done hs hs (initOp_held hs he hq hp ha hal)
    rw [init]
    refine execAll_command rfl hs (dallocOp_held ha) hs ?_
    rw [done_done]
    exact execAll_run hs hp ha hq hal
  | false =>
    have hd : allocDraw s = true := hch.resolve_left (ne_true_of_eq_false ha)
    have init : exec .init s = .next (done (initDone (allocated (afterAllocDraw s)))) :=
      hostCommand_done hs hs (initOp_granted hs he hq hp ha hd hal)
    rw [init]
    refine execAll_command rfl hs (dallocOp_granted ha hd) hs ?_
    rw [allocated_done_withFx, done_done]
    exact execAll_run hs hp rfl hq hal

end Sys2Proof.Machine
end
